-- ==== Sys2Proof/Word.lean ====
section
/-! DEFINITION. Strings of bits: the one kind of word this machine has (spec 00_scope.md R7, 10_state.md R21). -/

namespace Sys2Proof

/-- One bit of a register, of an instruction word or of genspace. -/
abbrev Bit := Bool

/-- A string `s[0], s[1], …`, address 0 first (R7). It is the pair of a stack register `#k` and its
meta-register `##k` (R21): the length is `##k`, and the bit positions from `##k` up are "omitted".
An instruction word `w[0] … w[16]` is written the same way (R60). -/
abbrev Item := List Bit

/-- The largest size of a string (R5, R7). -/
abbrev maxSize : Nat := 255

/-- Every instruction has 17 bits (R60). -/
abbrev instrSize : Nat := 17

end Sys2Proof
end

