-- ==== Sys2Proof/Syntax.lean ====
section
/-! DEFINITION. The instructions: one constructor for each mnemonic of spec/opcode_table.json (spec 30_encoding.md R71 to
R73, R77). A mnemonic with two encodings (SP_RR, SP_RR_Y, SGP_RR, SGP_RR_Y) is one constructor. -/

namespace Sys2Proof

/-- One instruction, its embedded fields read (30_encoding.md R64 to R68, R77): `u8` an unsigned number, `s9` and `s12`
signed numbers (never null here: null selects a twin or is another instruction), `b9` the embedded string `emb9`,
`b12` the embedded string or none for `0^12`, `b0 … b3` the truth table of SB_O. -/
inductive Instr where
  -- Get (40_get.md)
  | sgE (b12 : Option Item)
  | sgAE (u8 : BitVec 8)
  | sgAR
  | sgAEY (u8 : BitVec 8)
  | sgARY
  | sgRO (s9 : Int)
  | sgRS (u8 : BitVec 8)
  | sgRR
  | sgROY (s9 : Int)
  | sgRSY (u8 : BitVec 8)
  | sgRRY
  -- Put (41_put.md)
  | spA
  | spAY
  | spRO (s9 : Int)
  | spRR
  | spROY (s9 : Int)
  | spRRY
  -- Get and conditional put (42_get_and_put.md)
  | sgpA
  | sgpAY
  | sgpRO (s9 : Int)
  | sgpRR
  | sgpROY (s9 : Int)
  | sgpRRY
  -- Versus (43_versus.md)
  | svE (b9 : Item)
  | svR
  -- Manufacture and Resize (44_manufacture_resize.md), IG_E (30_encoding.md R77)
  | smE0 (u8 : BitVec 8)
  | smR0
  | smE1 (u8 : BitVec 8)
  | smR1
  | smZ
  | igE (s12 : Int)
  | srE0 (u8 : BitVec 8)
  | srR0
  | srE1 (u8 : BitVec 8)
  | srR1
  -- Circulate (45_circulate.md)
  | scSE0 (s9 : Int)
  | scSR0
  | scSE1 (s9 : Int)
  | scSR1
  | scRE (s9 : Int)
  | scRR
  | scB
  -- Overwrite (46_overwrite.md)
  | soL (u8 : BitVec 8)
  | soS (b9 : Item)
  | soR
  | so0L (u8 : BitVec 8)
  | so0Q (u8 : BitVec 8)
  | so0R
  | so1L (u8 : BitVec 8)
  | so1Q (u8 : BitVec 8)
  | so1R
  -- Extract (47_extract.md)
  | seA (u8 : BitVec 8)
  | seS (u8 : BitVec 8)
  | seR
  -- Find (48_find.md)
  | sfIR (u8 : BitVec 8)
  | sfBR (u8 : BitVec 8)
  | sfSR (b9 : Item)
  | sfRR
  | sfIL (u8 : BitVec 8)
  | sfBL (u8 : BitVec 8)
  | sfSL (b9 : Item)
  | sfRL
  | sfQE (b9 : Item)
  | sfQR
  -- Join and Boolean (49_join_boolean.md)
  | sj
  | sbN
  | sbO (b0 b1 b2 b3 : Bit)
deriving DecidableEq, Repr

end Sys2Proof
end

