-- ==== Sys2Proof/Decode.lean ====
section
/-! DEFINITION. The decoder and the encoder of spec 30_encoding.md. An instruction word is the string
`w[0] … w[16]` (R60); the decoder answers on every string of bits and rejects by name (R74). -/

namespace Sys2Proof

/-- Why a word is no instruction (R74). -/
inductive DecodeRefusal where
  /-- A word outside the three groups, or in a slot of them the chapter never mentions. -/
  | notAStringInstruction
  /-- SG_RO or SG_RO_Y with `s9` null; Put and Get-and-put in format M8 with `u8 ≠ 0`. -/
  | unassignedEncoding
deriving DecidableEq, Repr

/-! ## Fields -/

/-- The number `Σ w[i]·2^i` of a string of bits (R60, R64). -/
def natOfBits : List Bit → Nat
  | [] => 0
  | b :: bs => b.toNat + 2 * natOfBits bs

/-- The `k` low bits of a number, least significant first. -/
def bitsOfNat : Nat → Nat → List Bit
  | 0, _ => []
  | k + 1, n => (n % 2 == 1) :: bitsOfNat k (n / 2)

/-- `w[i]`. -/
def wbit (w : Item) (i : Nat) : Bit := w.getD i false

/-- `u8 = w[0:7]` (R64). -/
def u8Of (w : Item) : BitVec 8 := BitVec.ofNat 8 (natOfBits (w.take 8))

/-- A signed field: two's complement, least significant bit first, null (none) when only its last bit
is 1 (R65, and R77 for `s12`). -/
def signedOf (bs : List Bit) : Option Int :=
  let half := 2 ^ (bs.length - 1)
  let n := natOfBits bs
  if n = half then none else if n < half then some n else some ((n : Int) - 2 * half)

/-- `s9 = w[0:8]` (R65). -/
def s9Of (w : Item) : Option Int := signedOf (w.take 9)

/-- The string embedded in a field (R66, R67): the bits below the highest 1 bit, or none when every bit is 0. -/
def embeddedOf : List Bit → Option Item
  | [] => none
  | b :: bs =>
    match embeddedOf bs with
    | some s => some (b :: s)
    | none => if b then some [] else none

/-- `emb9` of `w[0:8]` (R66). -/
def b9Of (w : Item) : Option Item := embeddedOf (w.take 9)

/-! ## The decoding procedure (R75) -/

/-- Format E12, `w[14:16] = 001` (R73, R75 (1)). -/
def decodeE12 (w : Item) : Except DecodeRefusal Instr :=
  match wbit w 12, wbit w 13 with
  | true, false => .ok (.sgE (embeddedOf (w.take 12)))
  | false, true =>
    match signedOf (w.take 12) with
    | none => .ok .smZ
    | some s12 => .ok (.igE s12)
  | _, _ => .error .notAStringInstruction

/-- The Get instructions of the memory group, `dir = 10` (R71). -/
def decodeGet (w : Item) : Except DecodeRefusal Instr :=
  if wbit w 10 then
    match s9Of w with
    | none => .error .unassignedEncoding
    | some s9 => .ok (if wbit w 9 then .sgROY s9 else .sgRO s9)
  else
    let u8 := u8Of w
    match wbit w 9, wbit w 8 with
    | false, false => .ok (if u8 = 0 then .sgAR else .sgAE u8)
    | false, true => .ok (if u8 = 0 then .sgARY else .sgAEY u8)
    | true, false => .ok (if u8 = 0 then .sgRR else .sgRS u8)
    | true, true => .ok (if u8 = 0 then .sgRRY else .sgRSY u8)

/-- The Put instructions, `dir = 01`: the pattern with `s9` null is the register form (R71, 90_conflicts.md C6). -/
def decodePut (w : Item) : Except DecodeRefusal Instr :=
  if wbit w 10 then
    match s9Of w with
    | none => .ok (if wbit w 9 then .spRRY else .spRR)
    | some s9 => .ok (if wbit w 9 then .spROY s9 else .spRO s9)
  else if u8Of w = 0 then
    match wbit w 9, wbit w 8 with
    | false, false => .ok .spA
    | false, true => .ok .spAY
    | true, false => .ok .spRR
    | true, true => .ok .spRRY
  else .error .unassignedEncoding

/-- The Get-and-conditional-put instructions, `dir = 11` (R71, C4, C6). -/
def decodeGetPut (w : Item) : Except DecodeRefusal Instr :=
  if wbit w 10 then
    match s9Of w with
    | none => .ok (if wbit w 9 then .sgpRRY else .sgpRR)
    | some s9 => .ok (if wbit w 9 then .sgpROY s9 else .sgpRO s9)
  else if u8Of w = 0 then
    match wbit w 9, wbit w 8 with
    | false, false => .ok .sgpA
    | false, true => .ok .sgpAY
    | true, false => .ok .sgpRR
    | true, true => .ok .sgpRRY
  else .error .unassignedEncoding

/-- The memory group, `w[13:16] = 1101`, by `dir = w[11:12]` (R75 (2)). -/
def decodeMemory (w : Item) : Except DecodeRefusal Instr :=
  match wbit w 11, wbit w 12 with
  | true, false => decodeGet w
  | false, true => decodePut w
  | true, true => decodeGetPut w
  | false, false => .error .notAStringInstruction

/-- Format T9, `op3 = w[9:11]` (R72): the escape value of the field selects the register twin (R70). -/
def decodeT9 (w : Item) : Instr :=
  match wbit w 9, wbit w 10, wbit w 11 with
  | true, true, true => match b9Of w with | some b => .svE b | none => .svR
  | true, false, true => match s9Of w with | some d => .scSE0 d | none => .scSR0
  | false, false, true => match s9Of w with | some d => .scSE1 d | none => .scSR1
  | false, true, true => match s9Of w with | some d => .scRE d | none => .scRR
  | true, false, false => match b9Of w with | some b => .soS b | none => .soR
  | true, true, false => match b9Of w with | some b => .sfSR b | none => .sfRR
  | false, true, false => match b9Of w with | some b => .sfSL b | none => .sfRL
  | false, false, false => match b9Of w with | some b => .sfQE b | none => .sfQR

/-- Format T8, `op3 = w[8:10]` (R72). -/
def decodeT8 (w : Item) : Instr :=
  let u8 := u8Of w
  match wbit w 8, wbit w 9, wbit w 10 with
  | false, false, false => if u8 = 0 then .smR0 else .smE0 u8
  | true, false, false => if u8 = 0 then .smR1 else .smE1 u8
  | false, true, false => if u8 = 0 then .srR0 else .srE0 u8
  | true, true, false => if u8 = 0 then .srR1 else .srE1 u8
  | true, true, true => .sfIR u8
  | false, true, true => .sfBR u8
  | true, false, true => .sfIL u8
  | false, false, true => .sfBL u8

/-- Formats Z and ZB, the `op3 = 000` corner of U8: the `?` bits are ignored (R62, R69). -/
def decodeZ (w : Item) : Instr :=
  match wbit w 6, wbit w 7 with
  | true, true => .scB
  | false, true => .sj
  | true, false => .sbN
  | false, false => .sbO (wbit w 0) (wbit w 1) (wbit w 2) (wbit w 3)

/-- Format U8, `op3 = w[8:10]` (R72). -/
def decodeU8 (w : Item) : Instr :=
  let u8 := u8Of w
  match wbit w 8, wbit w 9, wbit w 10 with
  | false, false, false => decodeZ w
  | true, false, false => .soL u8
  | false, false, true => .so0L u8
  | true, false, true => if u8 = 0 then .so0R else .so0Q u8
  | false, true, true => .so1L u8
  | true, true, true => if u8 = 0 then .so1R else .so1Q u8
  | false, true, false => .seA u8
  | true, true, false => if u8 = 0 then .seR else .seS u8

/-- The register-to-register string group, `w[13:16] = 0101` (R75 (3)): it has no hole. -/
def decodeString (w : Item) : Instr :=
  if wbit w 12 then decodeT9 w else if wbit w 11 then decodeU8 w else decodeT8 w

/-- The instruction of a word (R75), bits above `w[16]` not read and bits the string lacks taken as 0. -/
def decode (w : Item) : Except DecodeRefusal Instr :=
  match wbit w 14, wbit w 15, wbit w 16 with
  | false, false, true => decodeE12 w
  | true, false, true => if wbit w 13 then decodeMemory w else .ok (decodeString w)
  | _, _, _ => .error .notAStringInstruction

/-! ## The encoder -/

/-- The bits of an embedded unsigned field (R64). -/
def u8Bits (u8 : BitVec 8) : List Bit := bitsOfNat 8 u8.toNat

/-- The bits of a signed field of `k` bits (R65). -/
def signedBits (k : Nat) (z : Int) : List Bit := bitsOfNat k (z % (2 ^ k : Nat)).toNat

/-- The bits of an embedded string in a field of `k` bits: the string, the marker 1, zeros (R66, R67). -/
def embeddedBits (k : Nat) (b : Item) : List Bit := b ++ true :: List.replicate (k - 1 - b.length) false

/-- `0^k`. -/
def zeros (k : Nat) : List Bit := List.replicate k false

/-- The null pattern of a signed field of `k` bits, `0^(k−1) 1` (R65). -/
def nullBits (k : Nat) : List Bit := zeros (k - 1) ++ [true]

/-- The word of a well-formed instruction, `w[0]` first (R71 to R73): `?` bits as zeros (R78), and of two encodings the
printed one (log entry 33). -/
def encode : Instr → Item
  | .sgE (some b) => embeddedBits 12 b ++ [true, false, false, false, true]
  | .sgE none => zeros 12 ++ [true, false, false, false, true]
  | .sgAE u8 => u8Bits u8 ++ [false, false, false, true, false, true, true, false, true]
  | .sgAR => zeros 8 ++ [false, false, false, true, false, true, true, false, true]
  | .sgAEY u8 => u8Bits u8 ++ [true, false, false, true, false, true, true, false, true]
  | .sgARY => zeros 8 ++ [true, false, false, true, false, true, true, false, true]
  | .sgRO s9 => signedBits 9 s9 ++ [false, true, true, false, true, true, false, true]
  | .sgRS u8 => u8Bits u8 ++ [false, true, false, true, false, true, true, false, true]
  | .sgRR => zeros 8 ++ [false, true, false, true, false, true, true, false, true]
  | .sgROY s9 => signedBits 9 s9 ++ [true, true, true, false, true, true, false, true]
  | .sgRSY u8 => u8Bits u8 ++ [true, true, false, true, false, true, true, false, true]
  | .sgRRY => zeros 8 ++ [true, true, false, true, false, true, true, false, true]
  | .spA => zeros 8 ++ [false, false, false, false, true, true, true, false, true]
  | .spAY => zeros 8 ++ [true, false, false, false, true, true, true, false, true]
  | .spRO s9 => signedBits 9 s9 ++ [false, true, false, true, true, true, false, true]
  | .spRR => zeros 8 ++ [false, true, false, false, true, true, true, false, true]
  | .spROY s9 => signedBits 9 s9 ++ [true, true, false, true, true, true, false, true]
  | .spRRY => zeros 8 ++ [true, true, false, false, true, true, true, false, true]
  | .sgpA => zeros 8 ++ [false, false, false, true, true, true, true, false, true]
  | .sgpAY => zeros 8 ++ [true, false, false, true, true, true, true, false, true]
  | .sgpRO s9 => signedBits 9 s9 ++ [false, true, true, true, true, true, false, true]
  | .sgpRR => zeros 8 ++ [false, true, false, true, true, true, true, false, true]
  | .sgpROY s9 => signedBits 9 s9 ++ [true, true, true, true, true, true, false, true]
  | .sgpRRY => zeros 8 ++ [true, true, false, true, true, true, true, false, true]
  | .svE b9 => embeddedBits 9 b9 ++ [true, true, true, true, false, true, false, true]
  | .svR => zeros 9 ++ [true, true, true, true, false, true, false, true]
  | .smE0 u8 => u8Bits u8 ++ [false, false, false, false, false, false, true, false, true]
  | .smR0 => zeros 8 ++ [false, false, false, false, false, false, true, false, true]
  | .smE1 u8 => u8Bits u8 ++ [true, false, false, false, false, false, true, false, true]
  | .smR1 => zeros 8 ++ [true, false, false, false, false, false, true, false, true]
  | .smZ => nullBits 12 ++ [false, true, false, false, true]
  | .igE s12 => signedBits 12 s12 ++ [false, true, false, false, true]
  | .srE0 u8 => u8Bits u8 ++ [false, true, false, false, false, false, true, false, true]
  | .srR0 => zeros 8 ++ [false, true, false, false, false, false, true, false, true]
  | .srE1 u8 => u8Bits u8 ++ [true, true, false, false, false, false, true, false, true]
  | .srR1 => zeros 8 ++ [true, true, false, false, false, false, true, false, true]
  | .scSE0 s9 => signedBits 9 s9 ++ [true, false, true, true, false, true, false, true]
  | .scSR0 => nullBits 9 ++ [true, false, true, true, false, true, false, true]
  | .scSE1 s9 => signedBits 9 s9 ++ [false, false, true, true, false, true, false, true]
  | .scSR1 => nullBits 9 ++ [false, false, true, true, false, true, false, true]
  | .scRE s9 => signedBits 9 s9 ++ [false, true, true, true, false, true, false, true]
  | .scRR => nullBits 9 ++ [false, true, true, true, false, true, false, true]
  | .scB => zeros 6 ++ [true, true, false, false, false, true, false, false, true, false, true]
  | .soL u8 => u8Bits u8 ++ [true, false, false, true, false, false, true, false, true]
  | .soS b9 => embeddedBits 9 b9 ++ [true, false, false, true, false, true, false, true]
  | .soR => zeros 9 ++ [true, false, false, true, false, true, false, true]
  | .so0L u8 => u8Bits u8 ++ [false, false, true, true, false, false, true, false, true]
  | .so0Q u8 => u8Bits u8 ++ [true, false, true, true, false, false, true, false, true]
  | .so0R => zeros 8 ++ [true, false, true, true, false, false, true, false, true]
  | .so1L u8 => u8Bits u8 ++ [false, true, true, true, false, false, true, false, true]
  | .so1Q u8 => u8Bits u8 ++ [true, true, true, true, false, false, true, false, true]
  | .so1R => zeros 8 ++ [true, true, true, true, false, false, true, false, true]
  | .seA u8 => u8Bits u8 ++ [false, true, false, true, false, false, true, false, true]
  | .seS u8 => u8Bits u8 ++ [true, true, false, true, false, false, true, false, true]
  | .seR => zeros 8 ++ [true, true, false, true, false, false, true, false, true]
  | .sfIR u8 => u8Bits u8 ++ [true, true, true, false, false, false, true, false, true]
  | .sfBR u8 => u8Bits u8 ++ [false, true, true, false, false, false, true, false, true]
  | .sfSR b9 => embeddedBits 9 b9 ++ [true, true, false, true, false, true, false, true]
  | .sfRR => zeros 9 ++ [true, true, false, true, false, true, false, true]
  | .sfIL u8 => u8Bits u8 ++ [true, false, true, false, false, false, true, false, true]
  | .sfBL u8 => u8Bits u8 ++ [false, false, true, false, false, false, true, false, true]
  | .sfSL b9 => embeddedBits 9 b9 ++ [false, true, false, true, false, true, false, true]
  | .sfRL => zeros 9 ++ [false, true, false, true, false, true, false, true]
  | .sfQE b9 => embeddedBits 9 b9 ++ [false, false, false, true, false, true, false, true]
  | .sfQR => zeros 9 ++ [false, false, false, true, false, true, false, true]
  | .sj => zeros 6 ++ [false, true, false, false, false, true, false, false, true, false, true]
  | .sbN => zeros 6 ++ [true, false, false, false, false, true, false, false, true, false, true]
  | .sbO b0 b1 b2 b3 => [b0, b1, b2, b3] ++ zeros 4 ++ [false, false, false, true, false, false, true, false, true]

/-- The 17 bits of a table word: `w` numbered as spec/opcode_table.json numbers it, every bit from `nbits` up 0. -/
def tableBits (nbits w : Nat) : Item := bitsOfNat instrSize (w % 2 ^ nbits)

/-- The instruction the decoder reads from a word of spec/opcode_table.json. -/
def decodeTableWord (nbits w : Nat) : Option Instr := (decode (tableBits nbits w)).toOption

end Sys2Proof
end

