-- ==== Sys2Proof/Config.lean ====
section
/-! DEFINITION. The parameters of spec 00_scope.md R6: what the source does not fix. Each is plain data that the launch
state carries (10_state.md R35, 70_reset_and_hazards.md R281 (5)), so that a statement about every state holds under every
setting; the settings no data can write down are uninterpreted constants without a body. -/

namespace Sys2Proof

/-! ## Exceptions, which two parameters speak of -/

/-- The eight exceptions (60_exceptions.md R252 to R259); the names are the spec's. -/
inductive ExceptionName where
  /-- A requested size is null, negative or above 255 (R252). -/
  | sizeRange
  /-- SG_E with `b12 = 0^12` (R253). -/
  | emptyEmbedded
  /-- Two strings that must have one size have not (R254). -/
  | sizeMismatch
  /-- A null distance (R255). -/
  | nullDistance
  /-- A string of size 0 is rotated (R256). -/
  | rotateEmpty
  /-- The substring does not fit at the location (R257). -/
  | noFit
  /-- The location is outside −255…+255, or null (R258). -/
  | locationRange
  /-- A requested bit is outside the superstring, or the start is null (R259). -/
  | extractRange
deriving DecidableEq, Repr

/-- `Thrown(Name, info)` (60_exceptions.md R251): the exception and the offending values in the order the spec gives them, null
as none. -/
structure Thrown where
  name : ExceptionName
  info : List (Option Int)
deriving DecidableEq, Repr

/-! ## The parameters -/

/-- What reading an item as a signed integer gives (10_state.md R26): a number, null, or no decided value. -/
inductive IntReading where
  | undecided
  | null
  | int (n : Int)
deriving DecidableEq, Repr, Inhabited

/-- `IntOf` and `IntEncode` (R26, R27), always with `int(enc(n)) = n` (log entry 10): the recommended layout (two's
complement, bit 0 least significant) with the shortest encoding; the recommended `IntOf` with an encoding nothing
else is known of; or two functions nothing else is known of. -/
inductive IntFormat where
  | recommended
  | freeEncode
  | uninterpreted
deriving DecidableEq, Repr

/-- An `IntOf` and an `IntEncode` that fit together (R27): `read` gives the reading of the items that R26 leaves open (none
is null), `write` the item of an integer, and `int(enc(n)) = n`. -/
structure IntCodec where
  read : Item → Option Int
  write : Int → Item
  /-- `int(enc(n)) = n`, where the reading is `read`'s. -/
  read_write : ∀ n, read (write n) = some n
  /-- The empty item reads as null (R26). -/
  write_ne_nil : ∀ n, write n ≠ []
  /-- An item of the band is read as no integer (R26). -/
  write_decided : ∀ n k, write n ≠ List.replicate k false ++ [true]
  /-- What an instruction pushes is an item: `s12`, a location or a count (R21, 30_encoding.md R77, 48_find.md R222). -/
  write_short : ∀ n, -2047 ≤ n → n ≤ 2047 → (write n).length ≤ maxSize

/-- Addresses of genspace that exist (20_memory.md R41): all, those from an address up, those up to an address, a number of
them from an address up, or a set nothing is known of (log entry 3). -/
inductive Region where
  | everywhere
  | atLeast (a : Int)
  | atMost (a : Int)
  | range (a : Int) (n : Nat)
  | uninterpreted
deriving DecidableEq, Repr

/-- `GenspaceValid` (R41), as the addresses that exist: those of any of the regions. -/
abbrev Extent := List Region

/-- `FindIndexBase` (48_find.md R221): the number of the first instance met. -/
inductive FindIndexBase where
  | zero
  | one
deriving DecidableEq, Repr

/-- `FindNotFound` (R221): the item pushed when fewer instances are met than `i` asks for. -/
inductive FindNotFound where
  | item (v : Item)
  | uninterpreted
deriving DecidableEq, Repr

/-- `FindLeftAnchor` (R221): which bit of an instance a leftward search compares with `b`. -/
inductive FindLeftAnchor where
  | start
  | finish
deriving DecidableEq, Repr

/-- `FindBadArg` (R221): what a locating instruction does with a null or out-of-range `i` or `b`: refuse
`FindArgument` (recommended), throw one of the exceptions, or push an item nothing is known of (log entry 24). -/
inductive FindBadArg where
  | refuse
  | raise (name : ExceptionName)
  | uninterpreted
deriving DecidableEq, Repr

/-- `GetPutResult` (42_get_and_put.md R130): the item a Get-and-conditional-put pushes: the string read
(decision D11), or an item nothing is known of. -/
inductive GetPutResult where
  | stringRead
  | uninterpreted
deriving DecidableEq, Repr

/-- A join longer than 255 bits (49_join_boolean.md R240): raise `SizeRange` (decision D12), or refuse `JoinOverflow`. -/
inductive JoinOverflow where
  | raise
  | refuse
deriving DecidableEq, Repr

/-- Overlapping instances in a Find (48_find.md R220): all count (decision D13), or refuse `OverlapUndecided`. -/
inductive Overlap where
  | count
  | refuse
deriving DecidableEq, Repr

/-- How many agents the launch has (20_memory.md R47): one, or several, under which every `_Y` instruction
refuses `Synchronized`. Nothing else of a second agent is modelled (log entry 20). -/
inductive Agents where
  | one
  | several
deriving DecidableEq, Repr

/-- `ThrowEffect` (60_exceptions.md R251), what the machine does after a throw: unset, which stops the run, or an effect
nothing is known of (log entry 8). -/
inductive ThrowEffect where
  | unset
  | uninterpreted
deriving DecidableEq, Repr

/-- What an uninterpreted `ThrowEffect` leaves when the machine goes on: the stack, the address of the next instruction,
and the strings stored in genspace on the way, in order (log entry 8). -/
structure Resumption where
  stack  : List Item
  pc     : Int
  stores : List (Int × Item)
deriving DecidableEq, Repr

/-- The configuration of a run (10_state.md R35): the parameters of R6. No instruction writes it. -/
structure Config where
  extent         : Extent
  stackDepth     : Option Nat     -- `StackDepth` (R23); none is unbounded
  intFormat      : IntFormat
  throwEffect    : ThrowEffect
  findIndexBase  : FindIndexBase
  findNotFound   : FindNotFound
  findLeftAnchor : FindLeftAnchor
  findBadArg     : FindBadArg
  getPutResult   : GetPutResult
  joinOverflow   : JoinOverflow
  overlap        : Overlap
  agents         : Agents
  endOfRun       : Option Int     -- `EndOfRun` (R284); none is no end
deriving DecidableEq, Repr

/-- The settings the spec recommends (R23, R26, R27, R221) or adopts by decision (D11, D12, D13, D22); every address
exists and no end of run is set, DESIGN CHOICE (log entries 3, 6, 27). -/
def Config.recommended : Config where
  extent         := [.everywhere]
  stackDepth     := none
  intFormat      := .recommended
  throwEffect    := .unset
  findIndexBase  := .zero
  findNotFound   := .item []
  findLeftAnchor := .start
  findBadArg     := .refuse
  getPutResult   := .stringRead
  joinOverflow   := .raise
  overlap        := .count
  agents         := .one
  endOfRun       := none

/-- Whether an address is in the uninterpreted region (log entry 3). -/
opaque Config.openExtent : Int → Bool

/-- The uninterpreted format: any pair that keeps R26 and R27, or none, for the recommended one (log entry 10). -/
opaque Config.openCodec : Option IntCodec

/-- The encoding of an integer under the format `freeEncode`, used where it reads back (log entry 10). -/
opaque Config.openIntEncode : Int → Item

/-- What an uninterpreted `ThrowEffect` does after the throw, from the stack, `pc` and the bits of genspace that
have a value: none is a halt (log entry 8). -/
opaque Config.openThrowEffect : Thrown → List Item → Int → List (Int × Bit) → Option Resumption

/-- `FindNotFound` as a function of superstring, substring, `i` and `b` (log entry 24). -/
opaque Config.openNotFound : Item → Item → Int → Int → Item

/-- The item pushed for a bad `i` or `b` of a Find (none is null), as a function of superstring, substring,
`i` and `b` (log entry 24). -/
opaque Config.openBadArg : Item → Item → Option Int → Option Int → Item

/-- `GetPutResult(cur, old, new, equal)` (R130; log entry 21). -/
opaque Config.openGetPut : Item → Item → Item → Bool → Item

end Sys2Proof
end

