-- ==== Sys2Proof/Machine/State.lean ====
section
/-! DEFINITION. The state of the machine (spec 10_state.md R35), the ways a step can stop (60_exceptions.md R250, R274), and
the state after reset (R34). -/

namespace Sys2Proof.Machine

/-- The kind of access a synchronization precedes, the first argument of `Sync(kind, a, n)` (20_memory.md R47).
DESIGN CHOICE: the spec lists no values of `kind` and its pseudocode writes `Sync(a, n)`; one value per family
of the `_Y` instructions is the model's choice (log entry 36). -/
inductive SyncKind where
  /-- The event of a Get. -/
  | get
  /-- The event of a Put. -/
  | put
  /-- The event of a Get and conditional put. -/
  | getPut
deriving DecidableEq, Repr

/-- The event `Sync(kind, a, n)` (R47); the values of `kind` are the model's (log entry 36). -/
structure SyncEvent where
  kind : SyncKind
  addr : Int
  size : Nat
deriving DecidableEq, Repr

/-- One bit of genspace that has a value, at its address (R40: the bit is the only unit; R41: addresses are
integers, negative ones not excluded). -/
abbrev Cell := Int × Bit

/-- Genspace: the bits that have a value, addresses strictly rising. An unlisted bit has none (R281 (2)). -/
abbrev Memory := List Cell

/-- The state (R35), with the thrown mark of R34 and the launch configuration. -/
structure State where
  stack    : List Item         -- `#0` first; `##k` is the length of `#k` (R20, R21)
  pc       : Int               -- the address of the current instruction (R29)
  genspace : Memory            -- R32, R40
  log      : List SyncEvent    -- oldest first (R33, R47)
  thrown   : Option Thrown     -- R34, R251
  threw    : Bool              -- whether the run has thrown (70_reset_and_hazards.md R284; log entry 37); the model's own record
  config   : Config            -- R35, R281 (5); the model's own field, written by no instruction
deriving DecidableEq, Repr

/-- Why the machine stops with a fault. -/
inductive Fault where
  /-- Raised by `State.leaveThrown` on a state that carries the mark `Thrown(Name, info)`: the run has ended there
  (60_exceptions.md R251, R264, R265), because `ThrowEffect` is unset or halts. Safe: the hardware goes on in a way the
  source does not say. -/
  | thrown (t : Thrown)
deriving DecidableEq, Repr

/-- Why the machine refuses (60_exceptions.md R274): the spec gives the situation no meaning. All are safe. -/
inductive Refusal where
  /-- Raised by `exec` alone, for an instruction without a meaning yet; no arm does. Safe. -/
  | notModelled (mnemonic : String)
  /-- Raised by the pull operations: fewer items on the stack than the instruction pulls (R24). Safe. -/
  | stackUnderflow
  /-- Raised by `State.pushAdvance`: a push beyond `StackDepth` (R23). Safe. -/
  | stackOverflow
  /-- Raised by the pull operations: an operand item of more than 255 bits (R28). Safe. -/
  | oversizeItem
  /-- Raised by `State.intArg`: an item whose integer reading is undecided (R26). Safe. -/
  | undecidedInteger
  /-- Raised by `State.addressArg`: a null absolute address or register offset (R44). Safe. -/
  | nullAddress
  /-- Raised by `State.memRead` and `State.memWrite`: the `n` bits at `a` are not all valid, or one that is
  read has no value (R41, R281). Safe. -/
  | accessOutside (a : Int) (n : Nat)
  /-- Raised by `State.fetchWord`: the 17 bits at `pc` are not all valid with a value (R49). Safe. -/
  | fetchOutside (pc : Int)
  /-- Raised by `State.allowSync`: a `_Y` instruction in a launch with several agents (R47). Safe. -/
  | synchronized
  /-- Raised by `State.fetchInstr`: a word outside the chapter (R74). Safe. -/
  | notAStringInstruction
  /-- Raised by `State.fetchInstr`: a word of the memory group the source does not print (R74). Safe. -/
  | unassignedEncoding
  /-- Raised by `extract`: no bit requested, at a start outside `0 … S` (R210). Safe. -/
  | undecidedExtract
  /-- Raised by `State.locate`: a null or out-of-range `i` or `b` under the setting `refuse` (R221). Safe. -/
  | findArgument
  /-- Raised by `State.occurrences`: overlapping instances under the setting `refuse` (R220). Safe. -/
  | overlapUndecided
  /-- Raised by the meaning of SJ: a join above 255 bits under the setting `refuse` (R240). Safe. -/
  | joinOverflow
deriving DecidableEq, Repr

/-- How the pseudocode of an instruction ends early (R250): the first `raise` or `refuse` met. -/
inductive Stop where
  | raise (t : Thrown)
  | refuse (r : Refusal)
deriving DecidableEq, Repr

/-- The machine after reset. The source describes none (70_reset_and_hazards.md R280): log and mark are as R34 gives them, the
stack is the launch premise R34 recommends, no bit of genspace has a value (R281), and `pc` and
the configuration are DESIGN CHOICE (log entries 4, 5, 6). -/
def State.reset : State where
  stack    := []
  pc       := 0
  genspace := []
  log      := []
  thrown   := none
  threw    := false
  config   := .recommended

end Sys2Proof.Machine
end

