-- ==== Sys2Proof/Machine/Ops.lean ====
section
/-! DEFINITION. The shared operations over the stack, genspace and the log, taking an exception, and fetching an
instruction (spec 00_scope.md R10, R12; 20_memory.md; 60_exceptions.md R250, R251). -/

namespace Sys2Proof.Machine

/-! ## Genspace -/

/-- The value of the bit at `a`, or none. -/
def Memory.readBit : Memory → Int → Option Bit
  | [], _ => none
  | (b, v) :: m, a => if a = b then some v else Memory.readBit m a

/-- Gives the bit at `a` the value `v`. -/
def Memory.writeBit : Memory → Int → Bit → Memory
  | [], a, v => [(a, v)]
  | (b, w) :: m, a, v =>
    if a < b then (a, v) :: (b, w) :: m
    else if a = b then (a, v) :: m
    else (b, w) :: Memory.writeBit m a v

/-- The `n` bits from `a` up, string bit `i` from address `a + i` (R42), or none when one has no value. -/
def Memory.read (m : Memory) : Int → Nat → Option Item
  | _, 0 => some []
  | a, n + 1 =>
    match m.readBit a, Memory.read m (a + 1) n with
    | some b, some v => some (b :: v)
    | _, _ => none

/-- Writes the bits of a string from `a` up, string bit `i` to address `a + i` (R43). -/
def Memory.write : Memory → Int → Item → Memory
  | m, _, [] => m
  | m, a, b :: v => Memory.write (m.writeBit a b) (a + 1) v

/-- The canonical form: addresses strictly rising. (No value is what an unlisted bit reads as, so no entry can
repeat it.) -/
abbrev Memory.wf (m : Memory) : Prop := m.Pairwise (fun x y => x.1 < y.1)

/-- Whether the address is in the region. -/
def regionHas : Region → Int → Bool
  | .everywhere, _ => true
  | .atLeast b, a => decide (b ≤ a)
  | .atMost b, a => decide (a ≤ b)
  | .range b n, a => decide (b ≤ a ∧ a < b + n)
  | .uninterpreted, a => Config.openExtent a

/-- Whether the address exists. -/
def extentHas (e : Extent) (a : Int) : Bool := e.any fun r => regionHas r a

/-- `GenspaceValid(a, n)` (R41): every bit `a … a+n−1` exists; true for `n = 0` at every `a` (R46). -/
def State.genspaceValid (s : State) (a : Int) (n : Nat) : Bool :=
  (List.range n).all fun i => extentHas s.config.extent (a + i)

/-- `MemRead(a, n)` (R41, R42, R281 (2)). -/
def State.memRead (s : State) (a : Int) (n : Nat) : Except Stop Item :=
  if s.genspaceValid a n then
    match s.genspace.read a n with
    | some v => .ok v
    | none => .error (.refuse (.accessOutside a n))
  else .error (.refuse (.accessOutside a n))

/-- `s` with `v` written at `a`. -/
def State.withBits (s : State) (a : Int) (v : Item) : State := { s with genspace := s.genspace.write a v }

/-- `MemWrite(a, n, v)`, `n = size(v)` (R41, R43). -/
def State.memWrite (s : State) (a : Int) (v : Item) : Except Stop State :=
  if s.genspaceValid a v.length then .ok (s.withBits a v)
  else .error (.refuse (.accessOutside a v.length))

/-- The relative address of an offset, `pc + 17 + o`, without wrap-around (R44). -/
def State.relative (s : State) (o : Int) : Int := s.pc + 17 + o

/-! ## Synchronization -/

/-- `Sync(kind, a, n)`: the event appended to the log (R47). -/
def State.sync (s : State) (kind : SyncKind) (a : Int) (n : Nat) : State :=
  { s with log := s.log ++ [⟨kind, a, n⟩] }

/-- `Sync(kind, a, n)` for a `_Y` instruction (`y` true), nothing for its plain twin. -/
def State.syncIf (s : State) (y : Bool) (kind : SyncKind) (a : Int) (n : Nat) : State :=
  if y then s.sync kind a n else s

/-- A launch with several agents refuses every `_Y` instruction (R47). -/
def State.allowSync (s : State) (y : Bool) : Except Stop Unit :=
  if y && s.config.agents == .several then .error (.refuse .synchronized) else .ok ()

/-! ## The stack and the advance -/

/-- Whether `StackDepth` admits `d` items (R23). -/
def State.roomFor (s : State) (d : Nat) : Bool :=
  match s.config.stackDepth with
  | none => true
  | some m => decide (d ≤ m)

/-- The stack after the pulls and the push, and `pc <- pc + 17` (R22, R29). -/
def State.retire (s : State) (stack : List Item) : State := { s with stack := stack, pc := s.pc + 17 }

/-- `push(v)` onto what the pulls left, then the advance (R12 (4), R23). -/
def State.pushAdvance (s : State) (rest : List Item) (v : Item) : Except Stop State :=
  if s.roomFor (rest.length + 1) then .ok (s.retire (v :: rest)) else .error (.refuse .stackOverflow)

/-! ## Exceptions -/

/-- `raise Name(info)`. -/
def raise {α : Type} (name : ExceptionName) (info : List (Option Int)) : Except Stop α := .error (.raise ⟨name, info⟩)

/-- `refuse Reason`. -/
def refuse {α : Type} (r : Refusal) : Except Stop α := .error (.refuse r)

/-- Taking an exception (R251, R264): the state carries the mark and the record of it (log entry 37), and nothing else
changes. There is no saved register, no handler and no return (R264, R265); what a set `ThrowEffect` does comes in the
next step. -/
def State.throw (s : State) (t : Thrown) : State := { s with thrown := some t, threw := true }

/-- The stack cut to what `StackDepth` admits (10_state.md R23), its items to 255 bits (R21): the bounds kept for an
open stack. -/
def State.boundStack (s : State) (stack : List Item) : List Item :=
  let items := stack.map (·.take maxSize)
  match s.config.stackDepth with
  | none => items
  | some m => items.take m

/-- `s` with the string stored at `a` where every bit of it is valid, else `s`. -/
def State.storeValid (s : State) (a : Int) (v : Item) : State :=
  if s.genspaceValid a v.length then s.withBits a v else s

/-- `s` after an uninterpreted `ThrowEffect` that goes on: the stores done, stack and `pc` set, the mark gone, the record
kept, since a run that threw is never complete (70_reset_and_hazards.md R284; log entry 37). -/
def State.resume (s : State) (r : Resumption) : State :=
  { r.stores.foldl (fun t c => t.storeValid c.1 c.2) s with
    stack := s.boundStack r.stack
    pc := r.pc
    thrown := none
    threw := true }

/-- The step from a state with the mark `t` (60_exceptions.md R251): none while `ThrowEffect` is unset, else what the
parameter gives (log entry 8). -/
def State.leaveThrown (s : State) (t : Thrown) : Host.Outcome State Fault Refusal :=
  match s.config.throwEffect with
  | .unset => .fault (.thrown t)
  | .uninterpreted =>
    match Config.openThrowEffect t s.stack s.pc s.genspace with
    | none => .fault (.thrown t)
    | some r => .next (s.resume r)

/-- The outcome of an instruction's pseudocode run from `s` (R250): completed, thrown from the state as the
instruction found it (R251), or refused. -/
def State.conclude (s : State) : Except Stop State → Host.Outcome State Fault Refusal
  | .ok t => .next t
  | .error (.raise t) => .next (s.throw t)
  | .error (.refuse r) => .refused r

/-! ## Fetch -/

/-- The 17 bits at `pc`, `w[i]` from address `pc + i` (R49, R60). -/
def State.fetchWord (s : State) : Except Refusal Item :=
  if s.genspaceValid s.pc instrSize then
    match s.genspace.read s.pc instrSize with
    | some w => .ok w
    | none => .error (.fetchOutside s.pc)
  else .error (.fetchOutside s.pc)

/-- The refusal of a word that is no instruction (30_encoding.md R74). -/
def decodeRefusal : DecodeRefusal → Refusal
  | .notAStringInstruction => .notAStringInstruction
  | .unassignedEncoding => .unassignedEncoding

/-- The instruction at `pc` (R12 (1), R49). -/
def State.fetchInstr (s : State) : Except Refusal Instr :=
  match s.fetchWord with
  | .error r => .error r
  | .ok w =>
    match decode w with
    | .error r => .error (decodeRefusal r)
    | .ok i => .ok i

/-- The extent of `s` with the `n` addresses from `a` up added where they lack. -/
def State.extentWith (s : State) (a : Int) (n : Nat) : Extent :=
  if s.genspaceValid a n then s.config.extent else .range a n :: s.config.extent

end Sys2Proof.Machine
end

