-- ==== Sys2Proof/Machine/Operands.lean ====
section
/-! DEFINITION. Operands: pulling items (spec 10_state.md R24, R28), reading one as a signed integer and pushing an
integer (R26, R27), requested sizes (00_scope.md R11), addresses (20_memory.md R44). -/

namespace Sys2Proof.Machine

/-! ## Pulled items -/

/-- An item a string instruction may meet (10_state.md R28). -/
abbrev fits (v : Item) : Prop := v.length ≤ maxSize

/-- The pulled item `x[0]` and the stack below it. -/
def State.pull1 (s : State) : Except Stop (Item × List Item) :=
  match s.stack with
  | x0 :: rest => if fits x0 then .ok (x0, rest) else refuse .oversizeItem
  | _ => refuse .stackUnderflow

/-- The pulled items `x[0]`, `x[1]` and the stack below them. -/
def State.pull2 (s : State) : Except Stop (Item × Item × List Item) :=
  match s.stack with
  | x0 :: x1 :: rest => if fits x0 ∧ fits x1 then .ok (x0, x1, rest) else refuse .oversizeItem
  | _ => refuse .stackUnderflow

/-- The pulled items `x[0]`, `x[1]`, `x[2]` and the stack below them. -/
def State.pull3 (s : State) : Except Stop (Item × Item × Item × List Item) :=
  match s.stack with
  | x0 :: x1 :: x2 :: rest =>
    if fits x0 ∧ fits x1 ∧ fits x2 then .ok (x0, x1, x2, rest) else refuse .oversizeItem
  | _ => refuse .stackUnderflow

/-- The pulled items `x[0]` to `x[3]` and the stack below them. -/
def State.pull4 (s : State) : Except Stop (Item × Item × Item × Item × List Item) :=
  match s.stack with
  | x0 :: x1 :: x2 :: x3 :: rest =>
    if fits x0 ∧ fits x1 ∧ fits x2 ∧ fits x3 then .ok (x0, x1, x2, x3, rest) else refuse .oversizeItem
  | _ => refuse .stackUnderflow

/-! ## Integers -/

/-- The undecided band `0^(n−1) 1` (10_state.md R26). -/
def undecidedBand (v : Item) : Bool := v.getLast? == some true && v.dropLast.all (! ·)

/-- Two's complement, bit 0 least significant, bit `n−1` the sign (R26). -/
def twosComplement (v : Item) : Int :=
  (natOfBits v.dropLast : Int) - (if v.getLast? = some true then (2 ^ (v.length - 1) : Nat) else 0 : Nat)

/-- The reading of a non-empty item outside the band under the uninterpreted format, null as none (log entry 10). -/
def openRead (v : Item) : Option Int :=
  match Config.openCodec with
  | none => some (twosComplement v)
  | some c => c.read v

/-- `IntOf` (R26). -/
def intOf (f : IntFormat) (v : Item) : IntReading :=
  if v = [] then .null
  else if undecidedBand v then .undecided
  else
    match f with
    | .recommended | .freeEncode => .int (twosComplement v)
    | .uninterpreted =>
      match openRead v with
      | none => .null
      | some n => .int n

/-- The binary digits of `n`, least significant first, none for 0, from a fuel of at least `n`. -/
def digits : Nat → Nat → List Bit
  | 0, _ => []
  | fuel + 1, n => if n = 0 then [] else (n % 2 == 1) :: digits fuel (n / 2)

/-- The shortest item outside the undecided band that reads as `z` (R27). -/
def shortestTwos (z : Int) : Item :=
  if 0 ≤ z then digits z.toNat z.toNat ++ [false]
  else
    let m := (-z - 1).toNat
    let v := (digits m m).map (! ·) ++ [true]
    if undecidedBand v then v ++ [true] else v

/-- An item is at most 255 bits long (10_state.md R21, R35): the bound kept for an open value. -/
def clip (v : Item) : Item := v.take maxSize

/-- The encoding of the format `freeEncode`: the open item where it is one and reads back as the integer, as R27 asks,
else the shortest (log entry 10). -/
def freeEncode (z : Int) : Item :=
  let v := Config.openIntEncode z
  if fits v ∧ intOf .freeEncode v = .int z then v else shortestTwos z

/-- The encoding of the uninterpreted format (log entry 10). -/
def openWrite (z : Int) : Item :=
  match Config.openCodec with
  | none => shortestTwos z
  | some c => c.write z

/-- `IntEncode` (R27); null is none. -/
def intEncode (f : IntFormat) : Option Int → Item
  | none => []
  | some z =>
    match f with
    | .recommended => shortestTwos z
    | .freeEncode => freeEncode z
    | .uninterpreted => openWrite z

/-- `enc(n)`. -/
def State.enc (s : State) (n : Option Int) : Item := intEncode s.config.intFormat n

/-- `int(v)`, null as none (R26). -/
def State.intArg (s : State) (v : Item) : Except Stop (Option Int) :=
  match intOf s.config.intFormat v with
  | .undecided => refuse .undecidedInteger
  | .null => .ok none
  | .int n => .ok (some n)

/-- An absolute address or a register offset (20_memory.md R44). -/
def State.addressArg (s : State) (v : Item) : Except Stop Int := do
  match ← s.intArg v with
  | none => refuse .nullAddress
  | some a => .ok a

/-- `sizearg(v)` (00_scope.md R10, R11). -/
def State.sizeArg (s : State) (v : Item) : Except Stop Nat := do
  match ← s.intArg v with
  | none => raise .sizeRange [none]
  | some n => if n < 0 ∨ 255 < n then raise .sizeRange [some n] else .ok n.toNat

/-- A distance to shift or rotate (45_circulate.md R174, R176, R178). -/
def State.distanceArg (s : State) (v : Item) : Except Stop Int := do
  match ← s.intArg v with
  | none => raise .nullDistance []
  | some d => .ok d

/-- A location that is only required not to be null (46_overwrite.md R195, R196, R198, R199). -/
def State.locationArg (s : State) (v : Item) : Except Stop Int := do
  match ← s.intArg v with
  | none => raise .locationRange [none]
  | some n => .ok n

/-- A location in −255…+255 (46_overwrite.md R192, R193). -/
def State.rangedLocationArg (s : State) (v : Item) : Except Stop Int := do
  let n ← s.locationArg v
  if n < -255 ∨ 255 < n then raise .locationRange [some n] else .ok n

/-- A starting address of an extract (47_extract.md R212, R213). -/
def State.startArg (s : State) (v : Item) : Except Stop Int := do
  match ← s.intArg v with
  | none => raise .extractRange [none]
  | some a => .ok a

end Sys2Proof.Machine
end

