-- ==== Sys2Proof/Machine/Circulate.lean ====
section
/-! DEFINITION. The Circulate family (spec 45_circulate.md). -/

namespace Sys2Proof.Machine

/-- `Shift(s, D, f)`: `r[j] = s[j − D]` where that address is in the string, else `f` (45_circulate.md R170). -/
def shift (v : Item) (d : Int) (f : Bit) : Item :=
  (List.range v.length).map fun (j : Nat) =>
    if 0 ≤ (j : Int) - d ∧ (j : Int) - d < v.length then v.getD ((j : Int) - d).toNat f else f

/-- `Rotate(s, D)` of a non-empty string: `r[j] = s[(j − D) mod S]`, floor modulus (R171). -/
def rotate (v : Item) (d : Int) : Item :=
  (List.range v.length).map fun (j : Nat) => v.getD (((j : Int) - d) % (v.length : Int)).toNat false

/-- SC_SE0, SC_SE1: distance embedded (R173, R175). -/
def shiftEmbedded (f : Bit) (s9 : Int) (s : State) : Except Stop State := do
  let (v, rest) ← s.pull1
  s.pushAdvance rest (shift v s9 f)

/-- SC_SR0, SC_SR1: distance `x[1]` (R174, R176). -/
def shiftRegister (f : Bit) (s : State) : Except Stop State := do
  let (v, x1, rest) ← s.pull2
  let d ← s.distanceArg x1
  s.pushAdvance rest (shift v d f)

/-- The rotation of a string that must not be empty, and the push (R171). -/
def rotateOnto (rest : List Item) (v : Item) (d : Int) (s : State) : Except Stop State :=
  if v.length = 0 then raise .rotateEmpty [] else s.pushAdvance rest (rotate v d)

/-- SC_SE0 (R173). -/
def execScSE0 (s9 : Int) (s : State) : Host.Outcome State Fault Refusal := s.conclude (shiftEmbedded false s9 s)

/-- SC_SR0 (R174). -/
def execScSR0 (s : State) : Host.Outcome State Fault Refusal := s.conclude (shiftRegister false s)

/-- SC_SE1 (R175). -/
def execScSE1 (s9 : Int) (s : State) : Host.Outcome State Fault Refusal := s.conclude (shiftEmbedded true s9 s)

/-- SC_SR1 (R176). -/
def execScSR1 (s : State) : Host.Outcome State Fault Refusal := s.conclude (shiftRegister true s)

/-- SC_RE (R177). -/
def execScRE (s9 : Int) (s : State) : Host.Outcome State Fault Refusal :=
  s.conclude do
    let (v, rest) ← s.pull1
    rotateOnto rest v s9 s

/-- SC_RR: the null distance before the empty string (R178, 60_exceptions.md R263). -/
def execScRR (s : State) : Host.Outcome State Fault Refusal :=
  s.conclude do
    let (v, x1, rest) ← s.pull2
    let d ← s.distanceArg x1
    rotateOnto rest v d s

/-- SC_B: `Reverse(s)` (R172, R179). -/
def execScB (s : State) : Host.Outcome State Fault Refusal :=
  s.conclude do
    let (v, rest) ← s.pull1
    s.pushAdvance rest v.reverse

end Sys2Proof.Machine
end

