-- ==== Sys2Proof/Machine/Extract.lean ====
section
/-! DEFINITION. The Extract family (spec 47_extract.md). -/

namespace Sys2Proof.Machine

/-- `Extract(sup, a, q)`: the bits at `a … a+q−1` (47_extract.md R210). With `q = 0` a start outside `0 … S` is refused. -/
def extract (sup : Item) (a : Int) (q : Nat) : Except Stop Item :=
  if 0 ≤ a ∧ a + q ≤ sup.length then .ok ((sup.drop a.toNat).take q)
  else if q = 0 then refuse .undecidedExtract
  else raise .extractRange [some a, some q, some sup.length]

/-- The extract, then the push. -/
def extractOnto (rest : List Item) (sup : Item) (a : Int) (q : Nat) (s : State) : Except Stop State := do
  let r ← extract sup a q
  s.pushAdvance rest r

/-- SE_A: starting address embedded, size `x[1]` (R211). -/
def execSeA (u8 : BitVec 8) (s : State) : Host.Outcome State Fault Refusal :=
  s.conclude do
    let (sup, x1, rest) ← s.pull2
    let q ← s.sizeArg x1
    extractOnto rest sup u8.toNat q s

/-- SE_S: size embedded, starting address `x[1]` (R212). -/
def execSeS (u8 : BitVec 8) (s : State) : Host.Outcome State Fault Refusal :=
  s.conclude do
    let (sup, x1, rest) ← s.pull2
    let a ← s.startArg x1
    extractOnto rest sup a u8.toNat s

/-- SE_R: starting address `x[1]`, size `x[2]` (R213). -/
def execSeR (s : State) : Host.Outcome State Fault Refusal :=
  s.conclude do
    let (sup, x1, x2, rest) ← s.pull3
    let a ← s.startArg x1
    let q ← s.sizeArg x2
    extractOnto rest sup a q s

end Sys2Proof.Machine
end

