-- ==== Sys2Proof/Machine/Find.lean ====
section
/-! DEFINITION. The Find family (spec 48_find.md), under the parameters of R221. -/

namespace Sys2Proof.Machine

/-- Whether `p` is an instance of `sub` in `sup` (48_find.md R220). -/
def occursAt (sup sub : Item) (p : Nat) : Bool :=
  decide (p + sub.length ≤ sup.length) && (sup.drop p).take sub.length == sub

/-- `Occ(sup, sub)`, ascending (R220). -/
def occ (sup sub : Item) : List Nat := (List.range (sup.length + 1)).filter (occursAt sup sub)

/-- Whether two instances are less than `L` apart (R220). -/
def overlapping (sup sub : Item) : Bool :=
  (occ sup sub).any fun p => (occ sup sub).any fun q => decide (p < q ∧ q < p + sub.length)

/-- `Occ(sup, sub)`, refused under the cautious setting when instances overlap (R220). -/
def State.occurrences (s : State) (sup sub : Item) : Except Stop (List Nat) :=
  if s.config.overlap = .refuse ∧ overlapping sup sub then refuse .overlapUndecided else .ok (occ sup sub)

/-- The direction of a search (R221). -/
inductive Direction where
  | right
  | left
deriving DecidableEq, Repr

/-- Whether the search from bit `b` meets the instance at `p` (R221). -/
def admits (anchor : FindLeftAnchor) (dir : Direction) (subLength : Nat) (b : Int) (p : Nat) : Bool :=
  match dir, anchor with
  | .right, _ => decide (b ≤ (p : Int))
  | .left, .start => decide ((p : Int) ≤ b)
  | .left, .finish => decide ((p : Int) + subLength - 1 ≤ b)

/-- The instances in the order the search meets them (R221). -/
def candidates (anchor : FindLeftAnchor) (dir : Direction) (subLength : Nat) (b : Int) (ps : List Nat) : List Nat :=
  let met := ps.filter (admits anchor dir subLength b)
  match dir with
  | .right => met
  | .left => met.reverse

/-- The number of the first instance met. -/
def indexBase : FindIndexBase → Int
  | .zero => 0
  | .one => 1

/-- The item pushed when the instance is not found (R221). -/
def notFoundItem (c : FindNotFound) (sup sub : Item) (i b : Int) : Item :=
  match c with
  | .item v => v
  | .uninterpreted => clip (Config.openNotFound sup sub i b)

/-- What a null or out-of-range `i` or `b` gives (R221). -/
def badArgument (c : FindBadArg) (sup sub : Item) (i b : Option Int) : Except Stop Item :=
  match c with
  | .refuse => refuse .findArgument
  | .raise name => raise name [i, b]
  | .uninterpreted => .ok (clip (Config.openBadArg sup sub i b))

/-- Whether `i` and `b` are in range (R221). -/
def findArgsOk (base : FindIndexBase) (sup : Item) (i b : Int) : Bool :=
  decide (indexBase base ≤ i ∧ 0 ≤ b ∧ b ≤ sup.length)

/-- `Locate(sup, sub, i, b, dir)` (R221). -/
def State.locate (s : State) (dir : Direction) (sup sub : Item) (i b : Option Int) : Except Stop Item :=
  match i, b with
  | some i', some b' =>
    if findArgsOk s.config.findIndexBase sup i' b' then do
      let ps ← s.occurrences sup sub
      let cand := candidates s.config.findLeftAnchor dir sub.length b' ps
      match cand[(i' - indexBase s.config.findIndexBase).toNat]? with
      | some p => .ok (s.enc (some p))
      | none => .ok (notFoundItem s.config.findNotFound sup sub i' b')
    else badArgument s.config.findBadArg sup sub i b
  | _, _ => badArgument s.config.findBadArg sup sub i b

/-- The search, then the push. -/
def locateOnto (dir : Direction) (rest : List Item) (sup sub : Item) (i b : Option Int) (s : State) : Except Stop State := do
  let r ← s.locate dir sup sub i b
  s.pushAdvance rest r

/-- SF_IR, SF_IL: `i` embedded, `b` in `x[2]` (R223, R227). -/
def findIndexEmbedded (dir : Direction) (u8 : BitVec 8) (s : State) : Except Stop State := do
  let (sup, sub, x2, rest) ← s.pull3
  let b ← s.intArg x2
  locateOnto dir rest sup sub (some (u8.toNat : Int)) b s

/-- SF_BR, SF_BL: `b` embedded, `i` in `x[2]` (R224, R228). -/
def findStartEmbedded (dir : Direction) (u8 : BitVec 8) (s : State) : Except Stop State := do
  let (sup, sub, x2, rest) ← s.pull3
  let i ← s.intArg x2
  locateOnto dir rest sup sub i (some (u8.toNat : Int)) s

/-- SF_SR, SF_SL: substring embedded, `i` in `x[1]`, `b` in `x[2]` (R225, R229). -/
def findSubstringEmbedded (dir : Direction) (b9 : Item) (s : State) : Except Stop State := do
  let (sup, x1, x2, rest) ← s.pull3
  let i ← s.intArg x1
  let b ← s.intArg x2
  locateOnto dir rest sup b9 i b s

/-- SF_RR, SF_RL: `i` in `x[2]`, `b` in `x[3]` (R226, R230). -/
def findRegister (dir : Direction) (s : State) : Except Stop State := do
  let (sup, sub, x2, x3, rest) ← s.pull4
  let i ← s.intArg x2
  let b ← s.intArg x3
  locateOnto dir rest sup sub i b s

/-- `Count(sup, sub)` (R222), then the push. -/
def countOnto (rest : List Item) (sup sub : Item) (s : State) : Except Stop State := do
  let ps ← s.occurrences sup sub
  s.pushAdvance rest (s.enc (some (ps.length : Int)))

/-- SF_IR (R223). -/
def execSfIR (u8 : BitVec 8) (s : State) : Host.Outcome State Fault Refusal := s.conclude (findIndexEmbedded .right u8 s)

/-- SF_BR (R224). -/
def execSfBR (u8 : BitVec 8) (s : State) : Host.Outcome State Fault Refusal := s.conclude (findStartEmbedded .right u8 s)

/-- SF_SR, the spec's name of the second row printed SF_BR (R225, 90_conflicts.md C1). -/
def execSfSR (b9 : Item) (s : State) : Host.Outcome State Fault Refusal := s.conclude (findSubstringEmbedded .right b9 s)

/-- SF_RR (R226). -/
def execSfRR (s : State) : Host.Outcome State Fault Refusal := s.conclude (findRegister .right s)

/-- SF_IL (R227). -/
def execSfIL (u8 : BitVec 8) (s : State) : Host.Outcome State Fault Refusal := s.conclude (findIndexEmbedded .left u8 s)

/-- SF_BL (R228). -/
def execSfBL (u8 : BitVec 8) (s : State) : Host.Outcome State Fault Refusal := s.conclude (findStartEmbedded .left u8 s)

/-- SF_SL, the spec's name of the second row printed SF_BL (R229, C1). -/
def execSfSL (b9 : Item) (s : State) : Host.Outcome State Fault Refusal := s.conclude (findSubstringEmbedded .left b9 s)

/-- SF_RL (R230). -/
def execSfRL (s : State) : Host.Outcome State Fault Refusal := s.conclude (findRegister .left s)

/-- SF_QE (R231). -/
def execSfQE (b9 : Item) (s : State) : Host.Outcome State Fault Refusal :=
  s.conclude do
    let (sup, rest) ← s.pull1
    countOnto rest sup b9 s

/-- SF_QR (R232). -/
def execSfQR (s : State) : Host.Outcome State Fault Refusal :=
  s.conclude do
    let (sup, sub, rest) ← s.pull2
    countOnto rest sup sub s

end Sys2Proof.Machine
end

