-- ==== Sys2Proof/Machine/Get.lean ====
section
/-! DEFINITION. The Get family (spec 40_get.md). `y` is true for the synchronized form. -/

namespace Sys2Proof.Machine

/-- The access of every Get but SG_E: the event of a synchronized form, the read, the push (40_get.md R100). -/
def getStored (y : Bool) (a : Int) (n : Nat) (rest : List Item) (s : State) : Except Stop State := do
  let t := s.syncIf y .get a n
  let v ← t.memRead a n
  t.pushAdvance rest v

/-- SG_AE, SG_AE_Y: absolute address `x[0]`, size embedded (R102, R104). -/
def getAbsoluteSized (y : Bool) (u8 : BitVec 8) (s : State) : Except Stop State := do
  let (x0, rest) ← s.pull1
  s.allowSync y
  let a ← s.addressArg x0
  getStored y a u8.toNat rest s

/-- SG_AR, SG_AR_Y: absolute address `x[0]`, size `x[1]` (R103, R105). -/
def getAbsolute (y : Bool) (s : State) : Except Stop State := do
  let (x0, x1, rest) ← s.pull2
  s.allowSync y
  let a ← s.addressArg x0
  let n ← s.sizeArg x1
  getStored y a n rest s

/-- SG_RO, SG_RO_Y: offset embedded, size `x[0]` (R106, R109). -/
def getRelativeOffset (y : Bool) (s9 : Int) (s : State) : Except Stop State := do
  let (x0, rest) ← s.pull1
  s.allowSync y
  let n ← s.sizeArg x0
  getStored y (s.relative s9) n rest s

/-- SG_RS, SG_RS_Y: offset `x[0]`, size embedded (R107, R110). -/
def getRelativeSized (y : Bool) (u8 : BitVec 8) (s : State) : Except Stop State := do
  let (x0, rest) ← s.pull1
  s.allowSync y
  let o ← s.addressArg x0
  getStored y (s.relative o) u8.toNat rest s

/-- SG_RR, SG_RR_Y: offset `x[0]`, size `x[1]` (R108, R111). -/
def getRelative (y : Bool) (s : State) : Except Stop State := do
  let (x0, x1, rest) ← s.pull2
  s.allowSync y
  let o ← s.addressArg x0
  let n ← s.sizeArg x1
  getStored y (s.relative o) n rest s

/-- SG_E (R101). -/
def execSgE (b12 : Option Item) (s : State) : Host.Outcome State Fault Refusal :=
  s.conclude <|
    match b12 with
    | none => raise .emptyEmbedded []
    | some b => s.pushAdvance s.stack b

/-- SG_AE (R102). -/
def execSgAE (u8 : BitVec 8) (s : State) : Host.Outcome State Fault Refusal := s.conclude (getAbsoluteSized false u8 s)

/-- SG_AR (R103). -/
def execSgAR (s : State) : Host.Outcome State Fault Refusal := s.conclude (getAbsolute false s)

/-- SG_AE_Y (R104). -/
def execSgAEY (u8 : BitVec 8) (s : State) : Host.Outcome State Fault Refusal := s.conclude (getAbsoluteSized true u8 s)

/-- SG_AR_Y (R105). -/
def execSgARY (s : State) : Host.Outcome State Fault Refusal := s.conclude (getAbsolute true s)

/-- SG_RO (R106). -/
def execSgRO (s9 : Int) (s : State) : Host.Outcome State Fault Refusal := s.conclude (getRelativeOffset false s9 s)

/-- SG_RS (R107). -/
def execSgRS (u8 : BitVec 8) (s : State) : Host.Outcome State Fault Refusal := s.conclude (getRelativeSized false u8 s)

/-- SG_RR (R108). -/
def execSgRR (s : State) : Host.Outcome State Fault Refusal := s.conclude (getRelative false s)

/-- SG_RO_Y (R109). -/
def execSgROY (s9 : Int) (s : State) : Host.Outcome State Fault Refusal := s.conclude (getRelativeOffset true s9 s)

/-- SG_RS_Y (R110). -/
def execSgRSY (u8 : BitVec 8) (s : State) : Host.Outcome State Fault Refusal := s.conclude (getRelativeSized true u8 s)

/-- SG_RR_Y (R111). -/
def execSgRRY (s : State) : Host.Outcome State Fault Refusal := s.conclude (getRelative true s)

end Sys2Proof.Machine
end

