-- ==== Sys2Proof/Machine/GetPut.lean ====
section
/-! DEFINITION. The Get-and-conditional-put family (spec 42_get_and_put.md). `y` is true for the synchronized form. -/

namespace Sys2Proof.Machine

/-- The item pushed, `GetPutResult(cur, old, new, equal)` (42_get_and_put.md R130). -/
def getPutItem (c : GetPutResult) (cur old new : Item) : Item :=
  match c with
  | .stringRead => cur
  | .uninterpreted => clip (Config.openGetPut cur old new (cur == old))

/-- `GetPut(a, old, new)` in one step (R130), after the event of a synchronized form (R132), then the push. -/
def getPutStored (y : Bool) (a : Int) (old new : Item) (rest : List Item) (s : State) : Except Stop State := do
  if old.length ≠ new.length then raise .sizeMismatch [some old.length, some new.length] else
  let t := s.syncIf y .getPut a old.length
  let cur ← t.memRead a old.length
  let u ← (if cur = old then t.memWrite a new else .ok t)
  u.pushAdvance rest (getPutItem s.config.getPutResult cur old new)

/-- SGP_A, SGP_A_Y: absolute address `x[0]`, old value `x[1]`, new value `x[2]` (R131, R132). -/
def getPutAbsolute (y : Bool) (s : State) : Except Stop State := do
  let (x0, old, new, rest) ← s.pull3
  s.allowSync y
  let a ← s.addressArg x0
  getPutStored y a old new rest s

/-- SGP_RO, SGP_RO_Y: offset embedded, old value `x[0]`, new value `x[1]` (R133, R135). -/
def getPutRelativeOffset (y : Bool) (s9 : Int) (s : State) : Except Stop State := do
  let (old, new, rest) ← s.pull2
  s.allowSync y
  getPutStored y (s.relative s9) old new rest s

/-- SGP_RR, SGP_RR_Y: offset `x[0]`, old value `x[1]`, new value `x[2]` (R134, R136). -/
def getPutRelative (y : Bool) (s : State) : Except Stop State := do
  let (x0, old, new, rest) ← s.pull3
  s.allowSync y
  let o ← s.addressArg x0
  getPutStored y (s.relative o) old new rest s

/-- SGP_A (R131). -/
def execSgpA (s : State) : Host.Outcome State Fault Refusal := s.conclude (getPutAbsolute false s)

/-- SGP_A_Y (R132). -/
def execSgpAY (s : State) : Host.Outcome State Fault Refusal := s.conclude (getPutAbsolute true s)

/-- SGP_RO (R133). -/
def execSgpRO (s9 : Int) (s : State) : Host.Outcome State Fault Refusal := s.conclude (getPutRelativeOffset false s9 s)

/-- SGP_RR (R134). -/
def execSgpRR (s : State) : Host.Outcome State Fault Refusal := s.conclude (getPutRelative false s)

/-- SGP_RO_Y (R135). -/
def execSgpROY (s9 : Int) (s : State) : Host.Outcome State Fault Refusal := s.conclude (getPutRelativeOffset true s9 s)

/-- SGP_RR_Y (R136). -/
def execSgpRRY (s : State) : Host.Outcome State Fault Refusal := s.conclude (getPutRelative true s)

end Sys2Proof.Machine
end

