-- ==== Sys2Proof/Machine/JoinBoolean.lean ====
section
/-! DEFINITION. The Join and Boolean families (spec 49_join_boolean.md). -/

namespace Sys2Proof.Machine

/-- A join above 255 bits: the exception of decision D12, or the refusal of a model without it (49_join_boolean.md R240). -/
def joinTooLong {α : Type} (c : JoinOverflow) (n : Nat) : Except Stop α :=
  match c with
  | .raise => raise .sizeRange [some n]
  | .refuse => refuse .joinOverflow

/-- SJ: `#0` keeps its addresses, `#1` follows (R240). -/
def execSj (s : State) : Host.Outcome State Fault Refusal :=
  s.conclude do
    let (lo, hi, rest) ← s.pull2
    if 255 < lo.length + hi.length then joinTooLong s.config.joinOverflow (lo.length + hi.length)
    else s.pushAdvance rest (lo ++ hi)

/-- SB_N (R241). -/
def execSbN (s : State) : Host.Outcome State Fault Refusal :=
  s.conclude do
    let (v, rest) ← s.pull1
    s.pushAdvance rest (v.map (! ·))

/-- `Op(b4, x, y) = b_(2·x + y)` (R242). -/
def boolOp (b0 b1 b2 b3 : Bit) : Bit → Bit → Bit
  | false, false => b0
  | false, true => b1
  | true, false => b2
  | true, true => b3

/-- SB_O (R243). -/
def execSbO (b0 b1 b2 b3 : Bit) (s : State) : Host.Outcome State Fault Refusal :=
  s.conclude do
    let (p, q, rest) ← s.pull2
    if p.length ≠ q.length then raise .sizeMismatch [some p.length, some q.length]
    else s.pushAdvance rest (List.zipWith (boolOp b0 b1 b2 b3) p q)

end Sys2Proof.Machine
end

