-- ==== Sys2Proof/Machine/Manufacture.lean ====
section
/-! DEFINITION. The Manufacture and Resize families (spec 44_manufacture_resize.md), and IG_E (30_encoding.md R77). -/

namespace Sys2Proof.Machine

/-- `f^n`: `n` bits `f` (00_scope.md R8). -/
def fill (f : Bit) (n : Nat) : Item := List.replicate n f

/-- SM_R0, SM_R1: size `x[0]` (44_manufacture_resize.md R151, R153). -/
def manufacture (f : Bit) (s : State) : Except Stop State := do
  let (x0, rest) ← s.pull1
  let n ← s.sizeArg x0
  s.pushAdvance rest (fill f n)

/-- `Resize(s, n, f)` (R155). -/
def resize (v : Item) (n : Nat) (f : Bit) : Item := v.take n ++ fill f (n - v.length)

/-- SR_E0, SR_E1: new size embedded (R156, R158). -/
def resizeSized (f : Bit) (u8 : BitVec 8) (s : State) : Except Stop State := do
  let (v, rest) ← s.pull1
  s.pushAdvance rest (resize v u8.toNat f)

/-- SR_R0, SR_R1: new size `x[1]` (R157, R159). -/
def resizeRegister (f : Bit) (s : State) : Except Stop State := do
  let (v, x1, rest) ← s.pull2
  let n ← s.sizeArg x1
  s.pushAdvance rest (resize v n f)

/-- SM_E0 (R150). -/
def execSmE0 (u8 : BitVec 8) (s : State) : Host.Outcome State Fault Refusal :=
  s.conclude (s.pushAdvance s.stack (fill false u8.toNat))

/-- SM_R0 (R151). -/
def execSmR0 (s : State) : Host.Outcome State Fault Refusal := s.conclude (manufacture false s)

/-- SM_E1 (R152). -/
def execSmE1 (u8 : BitVec 8) (s : State) : Host.Outcome State Fault Refusal :=
  s.conclude (s.pushAdvance s.stack (fill true u8.toNat))

/-- SM_R1 (R153). -/
def execSmR1 (s : State) : Host.Outcome State Fault Refusal := s.conclude (manufacture true s)

/-- SM_Z (R154). -/
def execSmZ (s : State) : Host.Outcome State Fault Refusal := s.conclude (s.pushAdvance s.stack [])

/-- IG_E with a value that is not null: DEDUCED by the spec from SM_Z (30_encoding.md R77; log entry 19). -/
def execIgE (s12 : Int) (s : State) : Host.Outcome State Fault Refusal :=
  s.conclude (s.pushAdvance s.stack (s.enc (some s12)))

/-- SR_E0 (R156). -/
def execSrE0 (u8 : BitVec 8) (s : State) : Host.Outcome State Fault Refusal := s.conclude (resizeSized false u8 s)

/-- SR_R0 (R157). -/
def execSrR0 (s : State) : Host.Outcome State Fault Refusal := s.conclude (resizeRegister false s)

/-- SR_E1 (R158). -/
def execSrE1 (u8 : BitVec 8) (s : State) : Host.Outcome State Fault Refusal := s.conclude (resizeSized true u8 s)

/-- SR_R1 (R159). -/
def execSrR1 (s : State) : Host.Outcome State Fault Refusal := s.conclude (resizeRegister true s)

end Sys2Proof.Machine
end

