-- ==== Sys2Proof/Machine/Overwrite.lean ====
section
/-! DEFINITION. The Overwrite family (spec 46_overwrite.md). -/

namespace Sys2Proof.Machine

/-- `Overwrite(sup, sub, n)` where it fits: `sub` in place of the bits of `sup` from `n` up (46_overwrite.md R190). -/
def overwriteBits (sup sub : Item) (n : Nat) : Item := sup.take n ++ sub ++ sup.drop (n + sub.length)

/-- `Overwrite(sup, sub, n)`: the substring fits when `0 ≤ n` and `n + L ≤ S` (R190). -/
def overwrite (sup sub : Item) (n : Int) : Except Stop Item :=
  if 0 ≤ n ∧ n + sub.length ≤ sup.length then .ok (overwriteBits sup sub n.toNat)
  else raise .noFit [some n, some sub.length, some sup.length]

/-- The overwrite, then the push. -/
def overwriteOnto (rest : List Item) (sup sub : Item) (n : Int) (s : State) : Except Stop State := do
  let r ← overwrite sup sub n
  s.pushAdvance rest r

/-- SO_0L, SO_1L: location embedded, quantity `x[1]` (R194, R197). -/
def overwriteFillAt (f : Bit) (u8 : BitVec 8) (s : State) : Except Stop State := do
  let (sup, x1, rest) ← s.pull2
  let q ← s.sizeArg x1
  overwriteOnto rest sup (fill f q) u8.toNat s

/-- SO_0Q, SO_1Q: quantity embedded, location `x[1]` (R195, R198). -/
def overwriteFillQuantity (f : Bit) (u8 : BitVec 8) (s : State) : Except Stop State := do
  let (sup, x1, rest) ← s.pull2
  let n ← s.locationArg x1
  overwriteOnto rest sup (fill f u8.toNat) n s

/-- SO_0R, SO_1R: location `x[1]`, quantity `x[2]` (R196, R199). -/
def overwriteFill (f : Bit) (s : State) : Except Stop State := do
  let (sup, x1, x2, rest) ← s.pull3
  let n ← s.locationArg x1
  let q ← s.sizeArg x2
  overwriteOnto rest sup (fill f q) n s

/-- SO_L (R191). -/
def execSoL (u8 : BitVec 8) (s : State) : Host.Outcome State Fault Refusal :=
  s.conclude do
    let (sup, sub, rest) ← s.pull2
    overwriteOnto rest sup sub u8.toNat s

/-- SO_S (R192). -/
def execSoS (b9 : Item) (s : State) : Host.Outcome State Fault Refusal :=
  s.conclude do
    let (sup, x1, rest) ← s.pull2
    let n ← s.rangedLocationArg x1
    overwriteOnto rest sup b9 n s

/-- SO_R (R193). -/
def execSoR (s : State) : Host.Outcome State Fault Refusal :=
  s.conclude do
    let (sup, sub, x2, rest) ← s.pull3
    let n ← s.rangedLocationArg x2
    overwriteOnto rest sup sub n s

/-- SO_0L (R194). -/
def execSo0L (u8 : BitVec 8) (s : State) : Host.Outcome State Fault Refusal := s.conclude (overwriteFillAt false u8 s)

/-- SO_0Q (R195). -/
def execSo0Q (u8 : BitVec 8) (s : State) : Host.Outcome State Fault Refusal := s.conclude (overwriteFillQuantity false u8 s)

/-- SO_0R (R196). -/
def execSo0R (s : State) : Host.Outcome State Fault Refusal := s.conclude (overwriteFill false s)

/-- SO_1L (R197). -/
def execSo1L (u8 : BitVec 8) (s : State) : Host.Outcome State Fault Refusal := s.conclude (overwriteFillAt true u8 s)

/-- SO_1Q (R198). -/
def execSo1Q (u8 : BitVec 8) (s : State) : Host.Outcome State Fault Refusal := s.conclude (overwriteFillQuantity true u8 s)

/-- SO_1R (R199). -/
def execSo1R (s : State) : Host.Outcome State Fault Refusal := s.conclude (overwriteFill true s)

end Sys2Proof.Machine
end

