-- ==== Sys2Proof/Machine/Put.lean ====
section
/-! DEFINITION. The Put family (spec 41_put.md). `y` is true for the synchronized form. -/

namespace Sys2Proof.Machine

/-- The access of every Put: the event of a synchronized form, the write of all bits of the data item, nothing
pushed (41_put.md R120). -/
def putStored (y : Bool) (a : Int) (d : Item) (rest : List Item) (s : State) : Except Stop State := do
  let t ← (s.syncIf y .put a d.length).memWrite a d
  .ok (t.retire rest)

/-- SP_A, SP_A_Y: absolute address `x[0]`, data `x[1]` (R121, R122). -/
def putAbsolute (y : Bool) (s : State) : Except Stop State := do
  let (x0, d, rest) ← s.pull2
  s.allowSync y
  let a ← s.addressArg x0
  putStored y a d rest s

/-- SP_RO, SP_RO_Y: offset embedded, data `x[0]` (R123, R125, 90_conflicts.md C7). -/
def putRelativeOffset (y : Bool) (s9 : Int) (s : State) : Except Stop State := do
  let (d, rest) ← s.pull1
  s.allowSync y
  putStored y (s.relative s9) d rest s

/-- SP_RR, SP_RR_Y: offset `x[0]`, data `x[1]` (R124, R126). -/
def putRelative (y : Bool) (s : State) : Except Stop State := do
  let (x0, d, rest) ← s.pull2
  s.allowSync y
  let o ← s.addressArg x0
  putStored y (s.relative o) d rest s

/-- SP_A (R121). -/
def execSpA (s : State) : Host.Outcome State Fault Refusal := s.conclude (putAbsolute false s)

/-- SP_A_Y (R122). -/
def execSpAY (s : State) : Host.Outcome State Fault Refusal := s.conclude (putAbsolute true s)

/-- SP_RO (R123). -/
def execSpRO (s9 : Int) (s : State) : Host.Outcome State Fault Refusal := s.conclude (putRelativeOffset false s9 s)

/-- SP_RR (R124). -/
def execSpRR (s : State) : Host.Outcome State Fault Refusal := s.conclude (putRelative false s)

/-- SP_RO_Y (R125). -/
def execSpROY (s9 : Int) (s : State) : Host.Outcome State Fault Refusal := s.conclude (putRelativeOffset true s9 s)

/-- SP_RR_Y (R126). -/
def execSpRRY (s : State) : Host.Outcome State Fault Refusal := s.conclude (putRelative true s)

end Sys2Proof.Machine
end

