-- ==== Sys2Proof/Machine/Flags.lean ====
section
/-! DEFINITION. The machine has no flag (spec 10_state.md R30): a comparison leaves a 6-bit string (43_versus.md R140). -/

namespace Sys2Proof.Machine

/-- The lexicographic order from address 0 up: 1 above 0, and of two strings without a difference the longer one
is greater (R140). -/
def compareStrings : Item → Item → Ordering
  | [], [] => .eq
  | [], _ :: _ => .lt
  | _ :: _, [] => .gt
  | true :: _, false :: _ => .gt
  | false :: _, true :: _ => .lt
  | true :: p, true :: q => compareStrings p q
  | false :: p, false :: q => compareStrings p q

/-- `Cmp6(p, q)`: the bits `>`, `≤`, `≠`, `=`, `<`, `≥` (R140). -/
def cmp6 (p q : Item) : Item :=
  let o := compareStrings p q
  [o == .gt, o != .gt, o != .eq, o == .eq, o == .lt, o != .lt]

end Sys2Proof.Machine
end

