-- ==== Sys2Proof/Machine/Versus.lean ====
section
/-! DEFINITION. The Versus family (spec 43_versus.md). -/

namespace Sys2Proof.Machine

/-- SV_E: the embedded string is the right-hand comparand (43_versus.md R141). -/
def execSvE (b9 : Item) (s : State) : Host.Outcome State Fault Refusal :=
  s.conclude do
    let (p, rest) ← s.pull1
    s.pushAdvance rest (cmp6 p b9)

/-- SV_R (R142). -/
def execSvR (s : State) : Host.Outcome State Fault Refusal :=
  s.conclude do
    let (p, q, rest) ← s.pull2
    s.pushAdvance rest (cmp6 p q)

end Sys2Proof.Machine
end

