-- ==== Sys2Proof/Machine/Dispatch.lean ====
section
/-! DEFINITION. The meaning of each instruction, one arm a constructor. -/

namespace Sys2Proof.Machine

/-- Executes one instruction (spec 60_exceptions.md R250). -/
def exec (i : Instr) (s : State) : Host.Outcome State Fault Refusal :=
  match i with
  | .sgE b12 => Sys2Proof.Machine.execSgE b12 s
  | .sgAE u8 => Sys2Proof.Machine.execSgAE u8 s
  | .sgAR => Sys2Proof.Machine.execSgAR s
  | .sgAEY u8 => Sys2Proof.Machine.execSgAEY u8 s
  | .sgARY => Sys2Proof.Machine.execSgARY s
  | .sgRO s9 => Sys2Proof.Machine.execSgRO s9 s
  | .sgRS u8 => Sys2Proof.Machine.execSgRS u8 s
  | .sgRR => Sys2Proof.Machine.execSgRR s
  | .sgROY s9 => Sys2Proof.Machine.execSgROY s9 s
  | .sgRSY u8 => Sys2Proof.Machine.execSgRSY u8 s
  | .sgRRY => Sys2Proof.Machine.execSgRRY s
  | .spA => Sys2Proof.Machine.execSpA s
  | .spAY => Sys2Proof.Machine.execSpAY s
  | .spRO s9 => Sys2Proof.Machine.execSpRO s9 s
  | .spRR => Sys2Proof.Machine.execSpRR s
  | .spROY s9 => Sys2Proof.Machine.execSpROY s9 s
  | .spRRY => Sys2Proof.Machine.execSpRRY s
  | .sgpA => Sys2Proof.Machine.execSgpA s
  | .sgpAY => Sys2Proof.Machine.execSgpAY s
  | .sgpRO s9 => Sys2Proof.Machine.execSgpRO s9 s
  | .sgpRR => Sys2Proof.Machine.execSgpRR s
  | .sgpROY s9 => Sys2Proof.Machine.execSgpROY s9 s
  | .sgpRRY => Sys2Proof.Machine.execSgpRRY s
  | .svE b9 => Sys2Proof.Machine.execSvE b9 s
  | .svR => Sys2Proof.Machine.execSvR s
  | .smE0 u8 => Sys2Proof.Machine.execSmE0 u8 s
  | .smR0 => Sys2Proof.Machine.execSmR0 s
  | .smE1 u8 => Sys2Proof.Machine.execSmE1 u8 s
  | .smR1 => Sys2Proof.Machine.execSmR1 s
  | .smZ => Sys2Proof.Machine.execSmZ s
  | .igE s12 => Sys2Proof.Machine.execIgE s12 s
  | .srE0 u8 => Sys2Proof.Machine.execSrE0 u8 s
  | .srR0 => Sys2Proof.Machine.execSrR0 s
  | .srE1 u8 => Sys2Proof.Machine.execSrE1 u8 s
  | .srR1 => Sys2Proof.Machine.execSrR1 s
  | .scSE0 s9 => Sys2Proof.Machine.execScSE0 s9 s
  | .scSR0 => Sys2Proof.Machine.execScSR0 s
  | .scSE1 s9 => Sys2Proof.Machine.execScSE1 s9 s
  | .scSR1 => Sys2Proof.Machine.execScSR1 s
  | .scRE s9 => Sys2Proof.Machine.execScRE s9 s
  | .scRR => Sys2Proof.Machine.execScRR s
  | .scB => Sys2Proof.Machine.execScB s
  | .soL u8 => Sys2Proof.Machine.execSoL u8 s
  | .soS b9 => Sys2Proof.Machine.execSoS b9 s
  | .soR => Sys2Proof.Machine.execSoR s
  | .so0L u8 => Sys2Proof.Machine.execSo0L u8 s
  | .so0Q u8 => Sys2Proof.Machine.execSo0Q u8 s
  | .so0R => Sys2Proof.Machine.execSo0R s
  | .so1L u8 => Sys2Proof.Machine.execSo1L u8 s
  | .so1Q u8 => Sys2Proof.Machine.execSo1Q u8 s
  | .so1R => Sys2Proof.Machine.execSo1R s
  | .seA u8 => Sys2Proof.Machine.execSeA u8 s
  | .seS u8 => Sys2Proof.Machine.execSeS u8 s
  | .seR => Sys2Proof.Machine.execSeR s
  | .sfIR u8 => Sys2Proof.Machine.execSfIR u8 s
  | .sfBR u8 => Sys2Proof.Machine.execSfBR u8 s
  | .sfSR b9 => Sys2Proof.Machine.execSfSR b9 s
  | .sfRR => Sys2Proof.Machine.execSfRR s
  | .sfIL u8 => Sys2Proof.Machine.execSfIL u8 s
  | .sfBL u8 => Sys2Proof.Machine.execSfBL u8 s
  | .sfSL b9 => Sys2Proof.Machine.execSfSL b9 s
  | .sfRL => Sys2Proof.Machine.execSfRL s
  | .sfQE b9 => Sys2Proof.Machine.execSfQE b9 s
  | .sfQR => Sys2Proof.Machine.execSfQR s
  | .sj => Sys2Proof.Machine.execSj s
  | .sbN => Sys2Proof.Machine.execSbN s
  | .sbO b0 b1 b2 b3 => Sys2Proof.Machine.execSbO b0 b1 b2 b3 s

end Sys2Proof.Machine
end

