-- ==== Sys2Proof/Machine/Step.lean ====
section
/-! DEFINITION. One step of the machine. -/

namespace Sys2Proof.Machine

/-- One step: a thrown state is left only by a `ThrowEffect` that is set (spec 60_exceptions.md R251), a complete run
(`pc` at the end and nothing thrown) fetches nothing and stays as it is (70_reset_and_hazards.md R284; log entries 27
and 37), and else the instruction at `pc` is fetched and executed (20_memory.md R49). -/
def step (s : State) : Host.Outcome State Fault Refusal :=
  match s.thrown with
  | some t => s.leaveThrown t
  | none =>
    if s.config.endOfRun = some s.pc ∧ s.threw = false then .next s
    else
      match s.fetchInstr with
      | .ok i => exec i s
      | .error r => .refused r

/-- `s` with the table word stored at `pc`, and what keeps `step` from fetching it removed: the thrown mark, an end
of run at `pc`, the lack of the 17 addresses (log entry 7). -/
def State.withFetchWord (s : State) (nbits w : Nat) : State :=
  { s with
    genspace := s.genspace.write s.pc (tableBits nbits w)
    thrown := none
    config := { s.config with
      extent := s.extentWith s.pc instrSize
      endOfRun := if s.config.endOfRun = some s.pc then none else s.config.endOfRun } }

end Sys2Proof.Machine
end

