-- ==== Sys2Proof/Safety.lean ====
section
/-! DEFINITION. What a safe state and a complete run are, and what the spec's operand lists and tables say of each
instruction, in the terms the claims use. -/

namespace Sys2Proof

open Machine

/-! ## States -/

/-- A run is complete: `pc` is at the end of the run, the state carries no mark, and the run has thrown nothing (spec
70_reset_and_hazards.md R284: "A run that throws … is not complete"). -/
def Complete (s : State) : Prop := s.config.endOfRun = some s.pc ∧ s.thrown = none ∧ s.threw = false

/-- The run has thrown: the state carries the mark (60_exceptions.md R251), or the record of one that a set `ThrowEffect`
left (log entry 37). -/
def Threw (s : State) : Prop := s.thrown ≠ none ∨ s.threw = true

/-- A mark is recorded (log entry 37). -/
def MarkRecorded (s : State) : Prop := s.thrown ≠ none → s.threw = true

/-- Every item on the stack has 0…255 bits (10_state.md R21, R35). -/
def StackSized (s : State) : Prop := ∀ v ∈ s.stack, v.length ≤ maxSize

/-- No more items than `StackDepth` (R23). -/
def DepthBounded (s : State) : Prop := s.roomFor s.stack.length = true

/-- Every bit that has a value is valid (R35: a bit that is not valid has none). -/
def ValuesValid (s : State) : Prop := ∀ a, (s.genspace.readBit a).isSome → extentHas s.config.extent a = true

/-- The not-found item of the configuration is an item (48_find.md R221, 10_state.md R35). -/
def ConfigSized (s : State) : Prop := ∀ v, s.config.findNotFound = .item v → v.length ≤ maxSize

/-- What every state of a run is: items of at most 255 bits, no more of them than the stack holds, genspace in its
canonical form with values at valid addresses only, a mark on record. -/
structure Inv (s : State) : Prop where
  stackSized : StackSized s
  depthBounded : DepthBounded s
  memoryWf : s.genspace.wf
  valuesValid : ValuesValid s
  configSized : ConfigSized s
  markRecorded : MarkRecorded s

/-- The pulled items `xs` lie on top of `rest`, each an item a string instruction may meet (R24, R28). -/
def Pulled (s : State) (xs rest : List Item) : Prop := s.stack = xs ++ rest ∧ ∀ v ∈ xs, fits v

/-- The stack admits a push onto `rest` (R23). -/
def CanPush (s : State) (rest : List Item) : Prop := s.roomFor (rest.length + 1) = true

/-- The item reads as the integer `n` (R26). -/
def ReadsAs (s : State) (v : Item) (n : Int) : Prop := intOf s.config.intFormat v = .int n

/-- The item reads as null (R26). -/
def ReadsNull (s : State) (v : Item) : Prop := intOf s.config.intFormat v = .null

/-- The item reads as an integer or null, null as none. -/
def Reads (s : State) (v : Item) : Option Int → Prop
  | none => ReadsNull s v
  | some n => ReadsAs s v n

/-- The item has no decided integer reading (R26). -/
def Undecided (s : State) (v : Item) : Prop := intOf s.config.intFormat v = .undecided

/-- The item reads as null or as an integer that is no string size (00_scope.md R11): `n` is what it reads as. -/
def BadSize (s : State) (v : Item) (n : Option Int) : Prop := Reads s v n ∧ ∀ z, n = some z → z < 0 ∨ 255 < z

/-- The bits `a … a + size(v) − 1` are valid and hold `v` (20_memory.md R41, R42). -/
def Holds (s : State) (a : Int) (v : Item) : Prop :=
  s.genspaceValid a v.length = true ∧ ∀ k, (h : k < v.length) → s.genspace.readBit (a + (k : Nat)) = some v[k]

/-- Genspace after is genspace before with the bits of `v` at `a … a + size(v) − 1` (R43): the stored bits read as
`v`, every other address reads as before. -/
def Stored (before after : State) (a : Int) (v : Item) : Prop :=
  (∀ k, (h : k < v.length) → after.genspace.readBit (a + (k : Nat)) = some v[k]) ∧
    ∀ b, (b < a ∨ a + v.length ≤ b) → after.genspace.readBit b = before.genspace.readBit b

/-- Every address reads as before. -/
def NothingStored (before after : State) : Prop := ∀ b, after.genspace.readBit b = before.genspace.readBit b

/-- `s` with a new stack, one instruction further on (R12, R29), everything else as it was. -/
def advanced (s : State) (stack : List Item) : State := { s with stack := stack, pc := s.pc + 17 }

/-- The log after an access of a synchronized form (`y`) or of a plain one (20_memory.md R47). -/
def logAfter (s : State) (y : Bool) (kind : SyncKind) (a : Int) (n : Nat) : List SyncEvent :=
  if y then s.log ++ [⟨kind, a, n⟩] else s.log

/-- The one-agent premise of a synchronized form (R47). -/
def SyncAllowed (s : State) (y : Bool) : Prop := y = true → s.config.agents = .one

/-- Only the stack, `pc`, genspace and the log may differ. -/
def SameRest (before after : State) : Prop :=
  after.thrown = before.thrown ∧ after.threw = before.threw ∧ after.config = before.config

/-- The outcome with the log of `s` in place of its own: what is left of a `_Y` instruction without its
synchronization (R47). -/
def forgetLog (s : State) : Host.Outcome State Fault Refusal → Host.Outcome State Fault Refusal
  | .next t => .next { t with log := s.log }
  | .fault f => .fault f
  | .refused r => .refused r

/-- The exception is thrown (60_exceptions.md R251): the next state carries the mark. -/
def Throws (o : Host.Outcome State Fault Refusal) (name : ExceptionName) : Prop :=
  ∃ t info, o = .next t ∧ t.thrown = some ⟨name, info⟩

/-! ## Find -/

/-- Whether `p` is an address at which `sub` stands in `sup` (48_find.md R220), bit by bit. -/
def standsAt (sup sub : Item) (p : Nat) : Bool :=
  decide (p + sub.length ≤ sup.length) && (List.range sub.length).all fun k => sup.getD (p + k) false == sub.getD k false

/-- Whether the leftward or rightward search from bit `b` meets an instance at `p` (R221). -/
def searchMeets (s : State) (dir : Direction) (sub : Item) (b : Int) (p : Nat) : Bool :=
  match dir, s.config.findLeftAnchor with
  | .right, _ => decide (b ≤ p)
  | .left, .start => decide ((p : Int) ≤ b)
  | .left, .finish => decide ((p : Int) + sub.length ≤ b + 1)

/-- Whether the search meets the instance at `q` before the one at `p`. -/
def searchedBefore (dir : Direction) (q p : Nat) : Bool :=
  match dir with
  | .right => decide (q < p)
  | .left => decide (p < q)

/-- How many instances with the property there are. -/
def countInstances (sup sub : Item) (f : Nat → Bool) : Nat :=
  (List.range (sup.length + 1)).countP fun p => standsAt sup sub p && f p

/-- What a locating instruction pushes for `i` and `b` in range (R221): the address of the instance that exactly
`i − FindIndexBase` instances are met before, or the not-found item when there are too few. -/
def LocateResult (s : State) (dir : Direction) (sup sub : Item) (i b : Int) (r : Item) : Prop :=
  (∃ p, standsAt sup sub p = true ∧ searchMeets s dir sub b p = true ∧
      (countInstances sup sub fun q => searchMeets s dir sub b q && searchedBefore dir q p : Int)
        = i - indexBase s.config.findIndexBase ∧ r = s.enc (some (p : Int))) ∨
    ((countInstances sup sub (searchMeets s dir sub b) : Int) ≤ i - indexBase s.config.findIndexBase ∧
      (∀ v, s.config.findNotFound = .item v → r = v) ∧
      (s.config.findNotFound = .uninterpreted → r.length ≤ maxSize))

/-- No two instances are less than `L` apart, or overlapping ones count (R220). -/
def OverlapAllowed (s : State) (sup sub : Item) : Prop :=
  s.config.overlap = .count ∨
    ∀ p q, standsAt sup sub p = true → standsAt sup sub q = true → p < q → p + sub.length ≤ q

/-- `i` and `b` are integers in range (R221). -/
def FindArgsGood (s : State) (sup : Item) : Option Int → Option Int → Prop
  | some i, some b => indexBase s.config.findIndexBase ≤ i ∧ 0 ≤ b ∧ b ≤ sup.length
  | _, _ => False

/-! ## Operand lists -/

/-- The operands of the Get instructions that read genspace (40_get.md R102 to R111): instruction, synchronized
or not, address, size. -/
inductive GetOperands (s : State) (rest : List Item) : Instr → Bool → Int → Nat → Prop where
  | sgAE {u8 : BitVec 8} {x0 : Item} {a : Int} (hp : Pulled s [x0] rest) (ha : ReadsAs s x0 a) :
      GetOperands s rest (.sgAE u8) false a u8.toNat
  | sgAEY {u8 : BitVec 8} {x0 : Item} {a : Int} (hp : Pulled s [x0] rest) (ha : ReadsAs s x0 a) :
      GetOperands s rest (.sgAEY u8) true a u8.toNat
  | sgAR {x0 x1 : Item} {a : Int} {n : Nat} (hp : Pulled s [x0, x1] rest) (ha : ReadsAs s x0 a) (hn : ReadsAs s x1 n)
      (h : n ≤ 255) : GetOperands s rest .sgAR false a n
  | sgARY {x0 x1 : Item} {a : Int} {n : Nat} (hp : Pulled s [x0, x1] rest) (ha : ReadsAs s x0 a) (hn : ReadsAs s x1 n)
      (h : n ≤ 255) : GetOperands s rest .sgARY true a n
  | sgRO {s9 : Int} {x0 : Item} {n : Nat} (hp : Pulled s [x0] rest) (hn : ReadsAs s x0 n) (h : n ≤ 255) :
      GetOperands s rest (.sgRO s9) false (s.pc + 17 + s9) n
  | sgROY {s9 : Int} {x0 : Item} {n : Nat} (hp : Pulled s [x0] rest) (hn : ReadsAs s x0 n) (h : n ≤ 255) :
      GetOperands s rest (.sgROY s9) true (s.pc + 17 + s9) n
  | sgRS {u8 : BitVec 8} {x0 : Item} {o : Int} (hp : Pulled s [x0] rest) (ho : ReadsAs s x0 o) :
      GetOperands s rest (.sgRS u8) false (s.pc + 17 + o) u8.toNat
  | sgRSY {u8 : BitVec 8} {x0 : Item} {o : Int} (hp : Pulled s [x0] rest) (ho : ReadsAs s x0 o) :
      GetOperands s rest (.sgRSY u8) true (s.pc + 17 + o) u8.toNat
  | sgRR {x0 x1 : Item} {o : Int} {n : Nat} (hp : Pulled s [x0, x1] rest) (ho : ReadsAs s x0 o) (hn : ReadsAs s x1 n)
      (h : n ≤ 255) : GetOperands s rest .sgRR false (s.pc + 17 + o) n
  | sgRRY {x0 x1 : Item} {o : Int} {n : Nat} (hp : Pulled s [x0, x1] rest) (ho : ReadsAs s x0 o) (hn : ReadsAs s x1 n)
      (h : n ≤ 255) : GetOperands s rest .sgRRY true (s.pc + 17 + o) n

/-- The operands of the Put instructions (41_put.md R121 to R126): instruction, synchronized or not, address, data. -/
inductive PutOperands (s : State) (rest : List Item) : Instr → Bool → Int → Item → Prop where
  | spA {x0 d : Item} {a : Int} (hp : Pulled s [x0, d] rest) (ha : ReadsAs s x0 a) : PutOperands s rest .spA false a d
  | spAY {x0 d : Item} {a : Int} (hp : Pulled s [x0, d] rest) (ha : ReadsAs s x0 a) : PutOperands s rest .spAY true a d
  | spRO {s9 : Int} {d : Item} (hp : Pulled s [d] rest) : PutOperands s rest (.spRO s9) false (s.pc + 17 + s9) d
  | spROY {s9 : Int} {d : Item} (hp : Pulled s [d] rest) : PutOperands s rest (.spROY s9) true (s.pc + 17 + s9) d
  | spRR {x0 d : Item} {o : Int} (hp : Pulled s [x0, d] rest) (ho : ReadsAs s x0 o) :
      PutOperands s rest .spRR false (s.pc + 17 + o) d
  | spRRY {x0 d : Item} {o : Int} (hp : Pulled s [x0, d] rest) (ho : ReadsAs s x0 o) :
      PutOperands s rest .spRRY true (s.pc + 17 + o) d

/-- The operands of the Get-and-conditional-put instructions (42_get_and_put.md R131 to R136): instruction,
synchronized or not, address, old value, new value. -/
inductive GetPutOperands (s : State) (rest : List Item) : Instr → Bool → Int → Item → Item → Prop where
  | sgpA {x0 old new : Item} {a : Int} (hp : Pulled s [x0, old, new] rest) (ha : ReadsAs s x0 a) :
      GetPutOperands s rest .sgpA false a old new
  | sgpAY {x0 old new : Item} {a : Int} (hp : Pulled s [x0, old, new] rest) (ha : ReadsAs s x0 a) :
      GetPutOperands s rest .sgpAY true a old new
  | sgpRO {s9 : Int} {old new : Item} (hp : Pulled s [old, new] rest) :
      GetPutOperands s rest (.sgpRO s9) false (s.pc + 17 + s9) old new
  | sgpROY {s9 : Int} {old new : Item} (hp : Pulled s [old, new] rest) :
      GetPutOperands s rest (.sgpROY s9) true (s.pc + 17 + s9) old new
  | sgpRR {x0 old new : Item} {o : Int} (hp : Pulled s [x0, old, new] rest) (ho : ReadsAs s x0 o) :
      GetPutOperands s rest .sgpRR false (s.pc + 17 + o) old new
  | sgpRRY {x0 old new : Item} {o : Int} (hp : Pulled s [x0, old, new] rest) (ho : ReadsAs s x0 o) :
      GetPutOperands s rest .sgpRRY true (s.pc + 17 + o) old new

/-- The operands of the Overwrite instructions (46_overwrite.md R191 to R199), their range checks passed: instruction,
superstring, what is written, location. -/
inductive OverwriteOperands (s : State) (rest : List Item) : Instr → Item → Item → Int → Prop where
  | soL {u8 : BitVec 8} {sup sub : Item} (hp : Pulled s [sup, sub] rest) :
      OverwriteOperands s rest (.soL u8) sup sub u8.toNat
  | soS {b9 sup x1 : Item} {n : Int} (hp : Pulled s [sup, x1] rest) (hn : ReadsAs s x1 n) (h : -255 ≤ n ∧ n ≤ 255) :
      OverwriteOperands s rest (.soS b9) sup b9 n
  | soR {sup sub x2 : Item} {n : Int} (hp : Pulled s [sup, sub, x2] rest) (hn : ReadsAs s x2 n)
      (h : -255 ≤ n ∧ n ≤ 255) : OverwriteOperands s rest .soR sup sub n
  | so0L {u8 : BitVec 8} {sup x1 : Item} {q : Nat} (hp : Pulled s [sup, x1] rest) (hq : ReadsAs s x1 q) (h : q ≤ 255) :
      OverwriteOperands s rest (.so0L u8) sup (List.replicate q false) u8.toNat
  | so0Q {u8 : BitVec 8} {sup x1 : Item} {n : Int} (hp : Pulled s [sup, x1] rest) (hn : ReadsAs s x1 n) :
      OverwriteOperands s rest (.so0Q u8) sup (List.replicate u8.toNat false) n
  | so0R {sup x1 x2 : Item} {n : Int} {q : Nat} (hp : Pulled s [sup, x1, x2] rest) (hn : ReadsAs s x1 n)
      (hq : ReadsAs s x2 q) (h : q ≤ 255) : OverwriteOperands s rest .so0R sup (List.replicate q false) n
  | so1L {u8 : BitVec 8} {sup x1 : Item} {q : Nat} (hp : Pulled s [sup, x1] rest) (hq : ReadsAs s x1 q) (h : q ≤ 255) :
      OverwriteOperands s rest (.so1L u8) sup (List.replicate q true) u8.toNat
  | so1Q {u8 : BitVec 8} {sup x1 : Item} {n : Int} (hp : Pulled s [sup, x1] rest) (hn : ReadsAs s x1 n) :
      OverwriteOperands s rest (.so1Q u8) sup (List.replicate u8.toNat true) n
  | so1R {sup x1 x2 : Item} {n : Int} {q : Nat} (hp : Pulled s [sup, x1, x2] rest) (hn : ReadsAs s x1 n)
      (hq : ReadsAs s x2 q) (h : q ≤ 255) : OverwriteOperands s rest .so1R sup (List.replicate q true) n

/-- The operands of the Extract instructions (47_extract.md R211 to R213): instruction, superstring, start, size. -/
inductive ExtractOperands (s : State) (rest : List Item) : Instr → Item → Int → Nat → Prop where
  | seA {u8 : BitVec 8} {sup x1 : Item} {q : Nat} (hp : Pulled s [sup, x1] rest) (hq : ReadsAs s x1 q) (h : q ≤ 255) :
      ExtractOperands s rest (.seA u8) sup u8.toNat q
  | seS {u8 : BitVec 8} {sup x1 : Item} {a : Int} (hp : Pulled s [sup, x1] rest) (ha : ReadsAs s x1 a) :
      ExtractOperands s rest (.seS u8) sup a u8.toNat
  | seR {sup x1 x2 : Item} {a : Int} {q : Nat} (hp : Pulled s [sup, x1, x2] rest) (ha : ReadsAs s x1 a)
      (hq : ReadsAs s x2 q) (h : q ≤ 255) : ExtractOperands s rest .seR sup a q

/-- The operands of the locating Find instructions (48_find.md R223 to R230): instruction, direction, superstring,
substring, `i`, `b`. -/
inductive FindOperands (s : State) (rest : List Item) :
    Instr → Direction → Item → Item → Option Int → Option Int → Prop where
  | sfIR {u8 : BitVec 8} {sup sub x2 : Item} {b : Option Int} (hp : Pulled s [sup, sub, x2] rest) (hb : Reads s x2 b) :
      FindOperands s rest (.sfIR u8) .right sup sub (some u8.toNat) b
  | sfBR {u8 : BitVec 8} {sup sub x2 : Item} {i : Option Int} (hp : Pulled s [sup, sub, x2] rest) (hi : Reads s x2 i) :
      FindOperands s rest (.sfBR u8) .right sup sub i (some u8.toNat)
  | sfSR {b9 sup x1 x2 : Item} {i b : Option Int} (hp : Pulled s [sup, x1, x2] rest) (hi : Reads s x1 i)
      (hb : Reads s x2 b) : FindOperands s rest (.sfSR b9) .right sup b9 i b
  | sfRR {sup sub x2 x3 : Item} {i b : Option Int} (hp : Pulled s [sup, sub, x2, x3] rest) (hi : Reads s x2 i)
      (hb : Reads s x3 b) : FindOperands s rest .sfRR .right sup sub i b
  | sfIL {u8 : BitVec 8} {sup sub x2 : Item} {b : Option Int} (hp : Pulled s [sup, sub, x2] rest) (hb : Reads s x2 b) :
      FindOperands s rest (.sfIL u8) .left sup sub (some u8.toNat) b
  | sfBL {u8 : BitVec 8} {sup sub x2 : Item} {i : Option Int} (hp : Pulled s [sup, sub, x2] rest) (hi : Reads s x2 i) :
      FindOperands s rest (.sfBL u8) .left sup sub i (some u8.toNat)
  | sfSL {b9 sup x1 x2 : Item} {i b : Option Int} (hp : Pulled s [sup, x1, x2] rest) (hi : Reads s x1 i)
      (hb : Reads s x2 b) : FindOperands s rest (.sfSL b9) .left sup b9 i b
  | sfRL {sup sub x2 x3 : Item} {i b : Option Int} (hp : Pulled s [sup, sub, x2, x3] rest) (hi : Reads s x2 i)
      (hb : Reads s x3 b) : FindOperands s rest .sfRL .left sup sub i b

/-- The operands of the counting Find instructions (R231, R232): instruction, superstring, substring. -/
inductive CountOperands (s : State) (rest : List Item) : Instr → Item → Item → Prop where
  | sfQE {b9 sup : Item} (hp : Pulled s [sup] rest) : CountOperands s rest (.sfQE b9) sup b9
  | sfQR {sup sub : Item} (hp : Pulled s [sup, sub] rest) : CountOperands s rest .sfQR sup sub

/-! ## Instructions -/

/-- How many items the instruction lists under "Pulled" (10_state.md R22 and each family's rules). -/
def pulls : Instr → Nat
  | .sgE _ | .smE0 _ | .smE1 _ | .smZ | .igE _ => 0
  | .sgAE _ | .sgAEY _ | .sgRO _ | .sgROY _ | .sgRS _ | .sgRSY _ | .spRO _ | .spROY _ | .svE _ | .smR0 | .smR1
  | .srE0 _ | .srE1 _ | .scSE0 _ | .scSE1 _ | .scRE _ | .scB | .sfQE _ | .sbN => 1
  | .sgAR | .sgARY | .sgRR | .sgRRY | .spA | .spAY | .spRR | .spRRY | .sgpRO _ | .sgpROY _ | .svR | .srR0 | .srR1
  | .scSR0 | .scSR1 | .scRR | .soL _ | .soS _ | .so0L _ | .so0Q _ | .so1L _ | .so1Q _ | .seA _ | .seS _ | .sfQR | .sj
  | .sbO _ _ _ _ => 2
  | .sgpA | .sgpAY | .sgpRR | .sgpRRY | .soR | .so0R | .so1R | .seR | .sfIR _ | .sfBR _ | .sfSR _ | .sfIL _ | .sfBL _
  | .sfSL _ => 3
  | .sfRR | .sfRL => 4

/-- A Put pushes nothing (41_put.md R120); every other instruction pushes exactly one item (10_state.md R22). -/
def isPut : Instr → Bool
  | .spA | .spAY | .spRO _ | .spRR | .spROY _ | .spRRY => true
  | _ => false

/-- A Get and conditional put (42_get_and_put.md). -/
def isGetPut : Instr → Bool
  | .sgpA | .sgpAY | .sgpRO _ | .sgpRR | .sgpROY _ | .sgpRRY => true
  | _ => false

/-- The plain twin of a synchronized instruction (20_memory.md R47). -/
def plainTwin : Instr → Option Instr
  | .sgAEY u8 => some (.sgAE u8)
  | .sgARY => some .sgAR
  | .sgROY s9 => some (.sgRO s9)
  | .sgRSY u8 => some (.sgRS u8)
  | .sgRRY => some .sgRR
  | .spAY => some .spA
  | .spROY s9 => some (.spRO s9)
  | .spRRY => some .spRR
  | .sgpAY => some .sgpA
  | .sgpROY s9 => some (.sgpRO s9)
  | .sgpRRY => some .sgpRR
  | _ => none

/-- The stack positions read as integers, in the order the pseudocode reads them (each family's rules). -/
def intOperands : Instr → List Nat
  | .sgAE _ | .sgAEY _ | .sgRO _ | .sgROY _ | .sgRS _ | .sgRSY _ | .spA | .spAY | .spRR | .spRRY | .sgpA | .sgpAY
  | .sgpRR | .sgpRRY | .smR0 | .smR1 => [0]
  | .sgAR | .sgARY | .sgRR | .sgRRY => [0, 1]
  | .srR0 | .srR1 | .scSR0 | .scSR1 | .scRR | .soS _ | .so0L _ | .so0Q _ | .so1L _ | .so1Q _ | .seA _ | .seS _ => [1]
  | .soR | .sfIR _ | .sfBR _ | .sfIL _ | .sfBL _ => [2]
  | .so0R | .so1R | .seR | .sfSR _ | .sfSL _ => [1, 2]
  | .sfRR | .sfRL => [2, 3]
  | .sgE _ | .spRO _ | .spROY _ | .sgpRO _ | .sgpROY _ | .svE _ | .svR | .smE0 _ | .smE1 _ | .smZ | .igE _ | .srE0 _
  | .srE1 _ | .scSE0 _ | .scSE1 _ | .scRE _ | .scB | .soL _ | .sfQE _ | .sfQR | .sj | .sbN | .sbO _ _ _ _ => []

/-- The instructions whose `#0` is an absolute address or a register offset (20_memory.md R44). -/
def hasAddressOperand : Instr → Bool
  | .sgAE _ | .sgAEY _ | .sgAR | .sgARY | .sgRS _ | .sgRSY _ | .sgRR | .sgRRY | .spA | .spAY | .spRR | .spRRY | .sgpA
  | .sgpAY | .sgpRR | .sgpRRY => true
  | _ => false

/-- The locating instructions (48_find.md R223 to R230): `FindBadArg` is theirs. -/
def isLocate : Instr → Bool
  | .sfIR _ | .sfBR _ | .sfSR _ | .sfRR | .sfIL _ | .sfBL _ | .sfSL _ | .sfRL => true
  | _ => false

/-- The exceptions an instruction can raise, the table of 60_exceptions.md R260. -/
def raises : Instr → List ExceptionName
  | .sgE _ => [.emptyEmbedded]
  | .sgAR | .sgARY | .sgRO _ | .sgROY _ | .sgRR | .sgRRY | .smR0 | .smR1 | .srR0 | .srR1 | .sj => [.sizeRange]
  | .sgpA | .sgpAY | .sgpRO _ | .sgpRR | .sgpROY _ | .sgpRRY | .sbO _ _ _ _ => [.sizeMismatch]
  | .scSR0 | .scSR1 => [.nullDistance]
  | .scRE _ => [.rotateEmpty]
  | .scRR => [.nullDistance, .rotateEmpty]
  | .soL _ => [.noFit]
  | .soS _ | .soR | .so0Q _ | .so1Q _ => [.locationRange, .noFit]
  | .so0L _ | .so1L _ => [.sizeRange, .noFit]
  | .so0R | .so1R => [.locationRange, .sizeRange, .noFit]
  | .seA _ | .seR => [.sizeRange, .extractRange]
  | .seS _ => [.extractRange]
  | .sgAE _ | .sgAEY _ | .sgRS _ | .sgRSY _ | .spA | .spAY | .spRO _ | .spRR | .spROY _ | .spRRY | .svE _ | .svR
  | .smE0 _ | .smE1 _ | .smZ | .igE _ | .srE0 _ | .srE1 _ | .scSE0 _ | .scSE1 _ | .scB | .sfIR _ | .sfBR _ | .sfSR _
  | .sfRR | .sfIL _ | .sfBL _ | .sfSL _ | .sfRL | .sfQE _ | .sfQR | .sbN => []

/-- The instructions of the Circulate family (45_circulate.md R173 to R179). -/
def isCirculate : Instr → Bool
  | .scSE0 _ | .scSR0 | .scSE1 _ | .scSR1 | .scRE _ | .scRR | .scB => true
  | _ => false

/-- The words that more than one 17-bit string encodes (30_encoding.md R69, R71): those with `?` bits, and the four
with a second pattern. -/
def hasSeveralWords : Instr → Bool
  | .scB | .sj | .sbN | .sbO _ _ _ _ | .spRR | .spRRY | .sgpRR | .sgpRRY => true
  | _ => false

end Sys2Proof
end

