-- ==== Sys2Proof/WellFormed.lean ====
section
/-! DEFINITION. Which instruction terms an encoding can hold (spec 30_encoding.md R64 to R70, R77). -/

namespace Sys2Proof

/-- An embedded size that selects a register twin when it is 0 is never 0 (R70). -/
def sizeFieldOk (u8 : BitVec 8) : Bool := u8 != 0

/-- `s9` holds −255…+255 (R65). -/
def s9Ok (s9 : Int) : Bool := decide (-255 ≤ s9 ∧ s9 ≤ 255)

/-- `s12`, laid out like `s9`, holds −2047…+2047 (R77). -/
def s12Ok (s12 : Int) : Bool := decide (-2047 ≤ s12 ∧ s12 ≤ 2047)

/-- `b9` holds an embedded string of 0…8 bits (R66). -/
def b9Ok (b9 : Item) : Bool := decide (b9.length ≤ 8)

/-- `b12` holds an embedded string of 0…11 bits, or `0^12` (R67). -/
def b12Ok : Option Item → Bool
  | none => true
  | some b => decide (b.length ≤ 11)

/-- The operands of the instruction are values its encoding can hold. -/
def Instr.wf : Instr → Bool
  | .sgE b12 => b12Ok b12
  | .sgAE u8 => sizeFieldOk u8
  | .sgAR => true
  | .sgAEY u8 => sizeFieldOk u8
  | .sgARY => true
  | .sgRO s9 => s9Ok s9
  | .sgRS u8 => sizeFieldOk u8
  | .sgRR => true
  | .sgROY s9 => s9Ok s9
  | .sgRSY u8 => sizeFieldOk u8
  | .sgRRY => true
  | .spA => true
  | .spAY => true
  | .spRO s9 => s9Ok s9
  | .spRR => true
  | .spROY s9 => s9Ok s9
  | .spRRY => true
  | .sgpA => true
  | .sgpAY => true
  | .sgpRO s9 => s9Ok s9
  | .sgpRR => true
  | .sgpROY s9 => s9Ok s9
  | .sgpRRY => true
  | .svE b9 => b9Ok b9
  | .svR => true
  | .smE0 u8 => sizeFieldOk u8
  | .smR0 => true
  | .smE1 u8 => sizeFieldOk u8
  | .smR1 => true
  | .smZ => true
  | .igE s12 => s12Ok s12
  | .srE0 u8 => sizeFieldOk u8
  | .srR0 => true
  | .srE1 u8 => sizeFieldOk u8
  | .srR1 => true
  | .scSE0 s9 => s9Ok s9
  | .scSR0 => true
  | .scSE1 s9 => s9Ok s9
  | .scSR1 => true
  | .scRE s9 => s9Ok s9
  | .scRR => true
  | .scB => true
  | .soL _ => true
  | .soS b9 => b9Ok b9
  | .soR => true
  | .so0L _ => true
  | .so0Q u8 => sizeFieldOk u8
  | .so0R => true
  | .so1L _ => true
  | .so1Q u8 => sizeFieldOk u8
  | .so1R => true
  | .seA _ => true
  | .seS u8 => sizeFieldOk u8
  | .seR => true
  | .sfIR _ => true
  | .sfBR _ => true
  | .sfSR b9 => b9Ok b9
  | .sfRR => true
  | .sfIL _ => true
  | .sfBL _ => true
  | .sfSL b9 => b9Ok b9
  | .sfRL => true
  | .sfQE b9 => b9Ok b9
  | .sfQR => true
  | .sj => true
  | .sbN => true
  | .sbO _ _ _ _ => true

end Sys2Proof
end

