-- ==== Sys2Proof/Certificates/Slice0/Obligations.lean ====
section
/-! DEFINITION. The statements for the provers. A docstring names the rule of spec/ a statement formalises, and the spec's
own decision D<n> (92_eei_decisions.md) or the log entry a clause rests on. -/

open Sys2Proof Sys2Proof.Machine

/-! ## Encoding -/

/-- Decoding the word of a well-formed instruction gives the instruction back (30_encoding.md R71 to R73, R75, R77). -/
def Obligations.DecodeEncodeAgree : Prop :=
  ∀ i : Instr, i.wf = true → decode (encode i) = .ok i

/-- Every instruction the decoder answers is well formed: embedded sizes with a register twin are not 0, `s9` is in
−255…+255, embedded strings have at most 8 or 11 bits (R65 to R67, R70). -/
def Obligations.DecodedInstructionsAreWellFormed : Prop :=
  ∀ (w : Item) (i : Instr), decode w = .ok i → i.wf = true

/-- The other direction: a 17-bit word is the encoding of the instruction it decodes to, but for the instructions
with ignored `?` bits and the four with a second pattern (R69, R71, 90_conflicts.md C6). -/
def Obligations.EncodeDecodeGivesTheWord : Prop :=
  ∀ (w : Item) (i : Instr), w.length = instrSize → decode w = .ok i → hasSeveralWords i = false → encode i = w

/-- The `?` bits are ignored (R69, the spec's decision D18), and the `_RO` patterns of Put and Get-and-put with `s9` null
are their register forms (R71, 90_conflicts.md C6). -/
def Obligations.SeveralWordsOfOneInstruction : Prop :=
  (∀ q0 q1 q2 q3 q4 q5 : Bit,
    decode [q0, q1, q2, q3, q4, q5, true, true, false, false, false, true, false, false, true, false, true] = .ok .scB ∧
    decode [q0, q1, q2, q3, q4, q5, false, true, false, false, false, true, false, false, true, false, true] = .ok .sj ∧
    decode [q0, q1, q2, q3, q4, q5, true, false, false, false, false, true, false, false, true, false, true] = .ok .sbN ∧
    decode [q0, q1, q2, q3, q4, q5, false, false, false, false, false, true, false, false, true, false, true]
      = .ok (.sbO q0 q1 q2 q3)) ∧
  decode (nullBits 9 ++ [false, true, false, true, true, true, false, true]) = .ok .spRR ∧
  decode (nullBits 9 ++ [true, true, false, true, true, true, false, true]) = .ok .spRRY ∧
  decode (nullBits 9 ++ [false, true, true, true, true, true, false, true]) = .ok .sgpRR ∧
  decode (nullBits 9 ++ [true, true, true, true, true, true, false, true]) = .ok .sgpRRY

/-- A few words written out bit by bit from the spec's examples (R101, R106, R123, R133, R141, R150, R173, R193, R223, R243). -/
def Obligations.DecodesWrittenWords : Prop :=
  decode [true, false, true, true, false, false, false, false, false, false, false, false, true, false, false, false, true]
    = .ok (.sgE (some [true, false, true])) ∧
  decode [true, true, true, true, false, false, false, false, false, false, true, true, false, true, true, false, true]
    = .ok (.sgRO 15) ∧
  decode [false, true, false, false, false, false, true, false, false, false, true, false, true, true, true, false, true]
    = .ok (.spRO 66) ∧
  decode [true, false, true, false, true, false, false, true, false, false, true, true, true, true, true, false, true]
    = .ok (.sgpRO 149) ∧
  decode [true, false, true, true, false, true, false, false, false, true, true, true, true, false, true, false, true]
    = .ok (.svE [true, false, true, true, false]) ∧
  decode [true, true, true, false, false, false, false, false, false, false, false, false, false, false, true, false, true]
    = .ok (.smE0 7) ∧
  decode [true, false, true, true, true, true, true, true, true, true, false, true, true, false, true, false, true]
    = .ok (.scSE0 (-3)) ∧
  decode [false, false, false, false, false, false, false, false, false, true, false, false, true, false, true, false, true]
    = .ok .soR ∧
  decode [true, false, false, false, false, false, false, false, true, true, true, false, false, false, true, false, true]
    = .ok (.sfIR 1) ∧
  decode [false, true, true, false, false, false, false, false, false, false, false, true, false, false, true, false, true]
    = .ok (.sbO false true true false)

/-- Every word of R74's table is refused by its name, and the string group has no hole (R72, R74; the spec's decision D18). -/
def Obligations.UnassignedWordsRefused : Prop :=
  ∀ w : Item,
    (¬ (wbit w 14 = false ∧ wbit w 15 = false ∧ wbit w 16 = true) →
      ¬ (wbit w 14 = true ∧ wbit w 15 = false ∧ wbit w 16 = true) → decode w = .error .notAStringInstruction) ∧
    (wbit w 14 = false → wbit w 15 = false → wbit w 16 = true → wbit w 12 = wbit w 13 →
      decode w = .error .notAStringInstruction) ∧
    (wbit w 13 = true → wbit w 14 = true → wbit w 15 = false → wbit w 16 = true →
      (wbit w 11 = false → wbit w 12 = false → decode w = .error .notAStringInstruction) ∧
      (wbit w 11 = true → wbit w 12 = false → wbit w 10 = true → s9Of w = none →
        decode w = .error .unassignedEncoding) ∧
      (wbit w 12 = true → wbit w 10 = false → u8Of w ≠ 0 → decode w = .error .unassignedEncoding)) ∧
    (wbit w 13 = false → wbit w 14 = true → wbit w 15 = false → wbit w 16 = true → ∃ i, decode w = .ok i)

/-- The fields `b9` and `b12` (R66, R67): an all-zero field holds no string, `b_0 … b_(n−1)` followed by `1 0^(8−n)` (or
`1 0^(11−n)`) holds `b_0 … b_(n−1)`, and every other field has that form; the all-zero `b9` selects the register twin
in each of the five instructions with such a field, and the all-zero `b12` is SG_E's, which throws. -/
def Obligations.EmbeddedStringFields : Prop :=
  (∀ (width : Nat) (v : Item), v.length < width →
    embeddedOf (v ++ true :: List.replicate (width - 1 - v.length) false) = some v) ∧
  (∀ width : Nat, embeddedOf (List.replicate width false) = none) ∧
  (∀ f : List Bit, f ≠ List.replicate f.length false →
    ∃ v : Item, v.length < f.length ∧ f = v ++ true :: List.replicate (f.length - 1 - v.length) false) ∧
  decode (List.replicate 9 false ++ [true, true, true, true, false, true, false, true]) = .ok .svR ∧
  decode (List.replicate 9 false ++ [true, false, false, true, false, true, false, true]) = .ok .soR ∧
  decode (List.replicate 9 false ++ [true, true, false, true, false, true, false, true]) = .ok .sfRR ∧
  decode (List.replicate 9 false ++ [false, true, false, true, false, true, false, true]) = .ok .sfRL ∧
  decode (List.replicate 9 false ++ [false, false, false, true, false, true, false, true]) = .ok .sfQR ∧
  decode (List.replicate 12 false ++ [true, false, false, false, true]) = .ok (.sgE none) ∧
  (∀ s : State, Throws (exec (.sgE none) s) .emptyEmbedded) ∧
  (∀ (v : Item), v.length ≤ 11 →
    decode (v ++ true :: List.replicate (11 - v.length) false ++ [true, false, false, false, true]) = .ok (.sgE (some v))) ∧
  (∀ (v f : Item), v.length ≤ 8 → f = v ++ true :: List.replicate (8 - v.length) false →
    decode (f ++ [true, true, true, true, false, true, false, true]) = .ok (.svE v) ∧
    decode (f ++ [true, false, false, true, false, true, false, true]) = .ok (.soS v) ∧
    decode (f ++ [true, true, false, true, false, true, false, true]) = .ok (.sfSR v) ∧
    decode (f ++ [false, true, false, true, false, true, false, true]) = .ok (.sfSL v) ∧
    decode (f ++ [false, false, false, true, false, true, false, true]) = .ok (.sfQE v))

/-- The numeric fields (R64, R65, R77; the layout is the spec's decision D2): a signed field is two's complement, least
significant bit first, in −(2^k − 1)…2^k − 1, but for the pattern `0^k 1`, which is null; `u8` is unsigned. -/
def Obligations.NumericFields : Prop :=
  (∀ low : List Bit, signedOf (low ++ [false]) = some (natOfBits low : Int)) ∧
  (∀ low : List Bit, low ≠ List.replicate low.length false →
    signedOf (low ++ [true]) = some ((natOfBits low : Int) - 2 ^ low.length)) ∧
  (∀ k : Nat, signedOf (List.replicate k false ++ [true]) = none) ∧
  (∀ (bs : List Bit) (z : Int), bs ≠ [] → signedOf bs = some z →
    -(2 ^ (bs.length - 1)) < z ∧ z < 2 ^ (bs.length - 1)) ∧
  (∀ bs : List Bit, (natOfBits bs : Int) = ∑ i ∈ Finset.range bs.length, if bs.getD i false then (2 : Int) ^ i else 0)

/-! ## The step -/

/-- A step runs the decoded instruction: from a state without the thrown mark, of a run that is not complete, whose 17 bits
at `pc` are valid and hold the word `w` of the instruction `i`, the step is `exec i` and nothing is added (R49, R12). -/
def Obligations.StepRunsDecodedInstruction : Prop :=
  ∀ (s : State) (w : Item) (i : Instr), s.thrown = none → ¬ Complete s → w.length = instrSize →
    Holds s s.pc w → decode w = .ok i → step s = exec i s

/-- A table word stored by `State.withFetchWord` is the instruction the next step runs, whatever the state was
(the model's own loader, log entry 7). -/
def Obligations.FetchWordRunsNext : Prop :=
  ∀ (s : State) (nbits w : Nat) (i : Instr), decodeTableWord nbits w = some i →
    step (s.withFetchWord nbits w) = exec i (s.withFetchWord nbits w)

/-- A fetch whose 17 bits are not all valid is refused (20_memory.md R49), and a fetched word that is no instruction is refused
by its name (30_encoding.md R74; the spec's decisions D9, D18, D19). That valid bits without a value are refused
`FetchOutside` too is the model's inference from 10_state.md R35 (log entry 29), where 70_reset_and_hazards.md R281 (2) names
`AccessOutside` for reading such a bit. -/
def Obligations.StepRefusesFetch : Prop :=
  ∀ s : State, s.thrown = none → ¬ Complete s →
    ((∀ w : Item, w.length = instrSize → ¬ Holds s s.pc w) → step s = .refused (.fetchOutside s.pc)) ∧
    (∀ w : Item, w.length = instrSize → Holds s s.pc w →
      (decode w = .error .notAStringInstruction → step s = .refused .notAStringInstruction) ∧
      (decode w = .error .unassignedEncoding → step s = .refused .unassignedEncoding))

/-- While `ThrowEffect` is unset no step leaves a thrown state (60_exceptions.md R251, the spec's decision D6); a set one halts,
or goes on at an address of its own without the mark, with log and configuration as they were and the throw on record
(the form of that setting and the record are the model's, log entries 8, 37). A complete run stays as it is, the
instruction at the end not fetched (70_reset_and_hazards.md R284; that the complete state answers itself is log entry
27). -/
def Obligations.ThrownStopsAndCompleteStays : Prop :=
  (∀ (s : State) (t : Thrown), s.thrown = some t → s.config.throwEffect = .unset → step s = .fault (.thrown t)) ∧
  (∀ (s : State) (t : Thrown), s.thrown = some t → s.config.throwEffect = .uninterpreted →
    (Config.openThrowEffect t s.stack s.pc s.genspace = none ∧ step s = .fault (.thrown t)) ∨
    (∃ r u, Config.openThrowEffect t s.stack s.pc s.genspace = some r ∧ step s = .next u ∧ u.pc = r.pc ∧
      u.thrown = none ∧ u.threw = true ∧ u.log = s.log ∧ u.config = s.config ∧ (r.stores = [] → u.genspace = s.genspace) ∧
      (StackSized { s with stack := r.stack } → DepthBounded { s with stack := r.stack } → u.stack = r.stack))) ∧
    ∀ s : State, Complete s → step s = .next s

/-- Every step keeps the invariant: items of 0…255 bits, no more of them than the stack holds, genspace in canonical form
with values at valid addresses only (10_state.md R21, R23, R35), a mark on record (the model's field, log entry 37). It is
kept under every setting, by a set `ThrowEffect` too. -/
def Obligations.StepKeepsInv : Prop :=
  ∀ s t : State, Inv s → step s = .next t → Inv t

/-- The invariant holds after reset. The spec leaves every value of the reset state but log and mark unspecified (10_state.md
R34): the empty stack, `pc` 0, genspace without a value and the recommended configuration are the model's choices
(log entries 4, 5, 35, 6), and the statement leans on them. -/
def Obligations.ResetMeetsInv : Prop := Inv State.reset

/-- What reset leaves. The log is empty and no exception is thrown (10_state.md R34); the empty stack, `pc` 0, genspace
without a value, the recommended configuration and a record of no throw are the model's choices (log entries 4, 5, 35, 6,
37). -/
def Obligations.ResetLeaves : Prop :=
  State.reset.log = [] ∧ State.reset.thrown = none ∧ State.reset.threw = false ∧ State.reset.stack = [] ∧ State.reset.pc = 0 ∧
    (∀ a, State.reset.genspace.readBit a = none) ∧ State.reset.config = Config.recommended

/-- The common shape of every instruction (00_scope.md R12, 10_state.md R22, R29, 60_exceptions.md R250, R251): a next
state is either the state as it was with the thrown mark (exceptions are precise, the spec's decision D6) and its record
(log entry 37), or `pc` is 17 on, the listed items are pulled, one item is pushed (none by a Put), and mark, record and
configuration are as they were. -/
def Obligations.ExecCompletesOrThrows : Prop :=
  ∀ (i : Instr) (s t : State), exec i s = .next t →
    (∃ e, t = s.throw e) ∨
      (t.pc = s.pc + 17 ∧ SameRest s t ∧ pulls i ≤ s.stack.length ∧
        ∃ pushed : List Item, pushed.length = (if isPut i then 0 else 1) ∧ t.stack = pushed ++ s.stack.drop (pulls i))

/-- An instruction throws only exceptions that the table of 60_exceptions.md R260 lists for it, but for the one that a
`FindBadArg` set to throw names, in a locating instruction (48_find.md R221, log entry 24). -/
def Obligations.OnlyListedExceptions : Prop :=
  ∀ (i : Instr) (s t : State) (e : Thrown), s.thrown = none → exec i s = .next t → t.thrown = some e →
    e.name ∈ raises i ∨ (isLocate i = true ∧ s.config.findBadArg = .raise e.name)

/-- Genspace changes only by Put and Get-and-conditional-put instructions (60_exceptions.md R262). -/
def Obligations.OnlyPutsWriteGenspace : Prop :=
  ∀ (i : Instr) (s t : State), isPut i = false → isGetPut i = false → exec i s = .next t → t.genspace = s.genspace

/-- A synchronized instruction is its plain twin plus an event in the log (20_memory.md R47, the spec's decision D10). -/
def Obligations.SynchronizedFormIsPlainTwin : Prop :=
  ∀ (i j : Instr) (s : State), plainTwin i = some j → s.config.agents = .one → forgetLog s (exec i s) = exec j s

/-- Only a synchronized instruction appends to the log, and it appends one event (R33, R47). -/
def Obligations.OnlySynchronizedFormsLog : Prop :=
  ∀ (i : Instr) (s t : State), exec i s = .next t →
    (plainTwin i = none → t.log = s.log) ∧
    (∀ j, plainTwin i = some j → (∃ e, t = s.throw e) ∨ ∃ ev, t.log = s.log ++ [ev])

/-- With several agents every synchronized instruction is refused (R47, the spec's decision D10; log entry 20). -/
def Obligations.SeveralAgentsRefuseSynchronized : Prop :=
  ∀ (i j : Instr) (s : State) (xs rest : List Item), plainTwin i = some j → s.config.agents = .several →
    Pulled s xs rest → xs.length = pulls i → exec i s = .refused .synchronized

/-- An instruction that lists more items than there are is refused before anything else (10_state.md R24, the spec's
decision D5; 60_exceptions.md R263). -/
def Obligations.UnderflowComesFirst : Prop :=
  ∀ (i : Instr) (s : State), s.stack.length < pulls i → exec i s = .refused .stackUnderflow

/-- A pulled item of more than 255 bits is refused (10_state.md R28, the spec's decision D24; that integer operands are
checked too is log entry 12). -/
def Obligations.OversizeOperandRefused : Prop :=
  ∀ (i : Instr) (s : State) (v : Item), pulls i ≤ s.stack.length → v ∈ s.stack.take (pulls i) → ¬ fits v →
    exec i s = .refused .oversizeItem

/-- A push onto a full stack is refused (10_state.md R23, the spec's decision D5). -/
def Obligations.FullStackRefusesPush : Prop :=
  ∀ (i : Instr) (s : State), pulls i = 0 → i ≠ .sgE none → ¬ CanPush s s.stack → exec i s = .refused .stackOverflow

/-! ## Genspace and integers -/

/-- `MemRead(a, n)` gives the `n` bits at `a … a+n−1`, bit `a + i` as string bit `i`, exactly when they are valid and hold
values, and refuses `AccessOutside` else; two adjacent reads are the halves of one (20_memory.md R41, R42, R45, R46; the
bit order is the spec's decision D8; that a valid bit without a value is refused is 70_reset_and_hazards.md R281 (2), log
entry 2). -/
def Obligations.MemReadGivesTheBits : Prop :=
  ∀ (s : State) (a : Int),
    (∀ v : Item, s.memRead a v.length = .ok v ↔ Holds s a v) ∧
    (∀ n : Nat, (∀ v : Item, v.length = n → ¬ Holds s a v) → s.memRead a n = .error (.refuse (.accessOutside a n))) ∧
    s.memRead a 0 = .ok [] ∧
    (∀ (u v : Item), s.memRead a (u.length + v.length) = .ok (u ++ v) ↔
      s.memRead a u.length = .ok u ∧ s.memRead (a + u.length) v.length = .ok v)

/-- `MemWrite(a, n, v)` sets the bits `a … a+n−1` to `v` and changes no other bit; nothing but genspace changes; genspace
stays canonical; a write of no bit is valid at every address (R41, R43, R46; the bit order is the spec's decision D8). -/
def Obligations.MemWriteStoresTheBits : Prop :=
  ∀ (s : State) (a : Int) (v : Item),
    (s.genspaceValid a v.length = true →
      ∃ t, s.memWrite a v = .ok t ∧ Stored s t a v ∧ t = { s with genspace := t.genspace } ∧
        (s.genspace.wf → t.genspace.wf)) ∧
    (s.genspaceValid a v.length = false → s.memWrite a v = .error (.refuse (.accessOutside a v.length))) ∧
    s.memWrite a [] = .ok s

/-- A Put followed by a Get of the same address and size gives back the data, whatever the bit order
(R42, R43, R121, R103). -/
def Obligations.PutThenGetReturnsTheData : Prop :=
  ∀ (s : State) (x0 d y0 y1 : Item) (rest : List Item) (a : Int),
    Pulled s [x0, d, y0, y1] rest → ReadsAs s x0 a → ReadsAs s y0 a → ReadsAs s y1 d.length →
    s.genspaceValid a d.length = true → CanPush s rest →
    ∃ t u, exec .spA s = .next t ∧ exec .sgAR t = .next u ∧ u.stack = d :: rest ∧ u.pc = s.pc + 34

/-- `IntOf` (10_state.md R26, the spec's decision D3): the empty item is null and the band `0^(n−1) 1` is undecided under
every format; where `IntOf` is the recommended one every other item is a two's complement number, bit 0 least
significant. -/
def Obligations.IntegerReading : Prop :=
  (∀ f : IntFormat, intOf f [] = .null ∧ ∀ k : Nat, intOf f (List.replicate k false ++ [true]) = .undecided) ∧
  (∀ (f : IntFormat) (low : Item), f ≠ .uninterpreted → intOf f (low ++ [false]) = .int (natOfBits low)) ∧
  (∀ (f : IntFormat) (low : Item), f ≠ .uninterpreted → low ≠ List.replicate low.length false →
    intOf f (low ++ [true]) = .int ((natOfBits low : Int) - 2 ^ low.length))

/-- `IntEncode` (10_state.md R27, the spec's decision D4): null is the empty item and `enc(n)` reads back as `n` under every
format; under the recommended one no shorter item does. Every integer an instruction can push, −2047…2047, is
encoded in at most 255 bits (how the free formats keep this is log entry 10). -/
def Obligations.IntegerEncoding : Prop :=
  (∀ f : IntFormat, intEncode f none = []) ∧
  (∀ (f : IntFormat) (n : Int), intOf f (intEncode f (some n)) = .int n) ∧
  (∀ (f : IntFormat) (n : Int), -2047 ≤ n → n ≤ 2047 → (intEncode f (some n)).length ≤ maxSize) ∧
  (∀ (n : Int) (v : Item), intOf .recommended v = .int n → (intEncode .recommended (some n)).length ≤ v.length)

/-! ## The functions of the families -/

/-- `Resize(s, n, f)` (44_manufacture_resize.md R155). -/
def Obligations.ResizeRule : Prop :=
  ∀ (v : Item) (n : Nat) (f : Bit), n ≤ 255 →
    (resize v n f).length = n ∧
    (∀ k, k < v.length → k < n → (resize v n f)[k]? = v[k]?) ∧
    (∀ k, v.length ≤ k → k < n → (resize v n f)[k]? = some f) ∧
    (n = v.length → resize v n f = v) ∧
    (n < v.length → resize v n f = v.take n ∧ ∀ g, resize v n g = resize v n f)

/-- `Shift(s, D, f)` (45_circulate.md R170): by new address, by old address, and for the distances the rule names. -/
def Obligations.ShiftRule : Prop :=
  ∀ (v : Item) (d : Int) (f : Bit),
    (shift v d f).length = v.length ∧
    (∀ j : Nat, j < v.length →
      ((0 ≤ (j : Int) - d ∧ (j : Int) - d < v.length) → (shift v d f)[j]? = v[((j : Int) - d).toNat]?) ∧
      (¬ (0 ≤ (j : Int) - d ∧ (j : Int) - d < v.length) → (shift v d f)[j]? = some f)) ∧
    (∀ k : Nat, k < v.length → 0 ≤ (k : Int) + d → (k : Int) + d < v.length →
      (shift v d f)[((k : Int) + d).toNat]? = v[k]?) ∧
    (d = 0 → shift v d f = v) ∧
    (v.length ≤ d.natAbs → shift v d f = List.replicate v.length f) ∧
    (v = [] → shift v d f = [])

/-- `Rotate(s, D)` (45_circulate.md R171): the bit at `A` moves to `(A + D) mod S`, a rotation by −D undoes one by `D`,
any distance is as its remainder, and a string of size 0 throws. -/
def Obligations.RotateRule : Prop :=
  (∀ (v : Item) (d : Int), v ≠ [] →
    (rotate v d).length = v.length ∧
    (∀ k : Nat, k < v.length → (rotate v d)[(((k : Int) + d) % v.length).toNat]? = v[k]?) ∧
    rotate (rotate v d) (-d) = v ∧
    rotate v (d % v.length) = rotate v d) ∧
  (∀ (s : State) (d : Int) (rest : List Item), Pulled s [[]] rest → Throws (exec (.scRE d) s) .rotateEmpty) ∧
  (∀ (s : State) (x1 : Item) (d : Int) (rest : List Item), Pulled s [[], x1] rest → ReadsAs s x1 d →
    Throws (exec .scRR s) .rotateEmpty)

/-- SC_B completes with `Reverse(s)`: size `S`, `r[j] = s[S − 1 − j]` (45_circulate.md R172, R179). The pull, the one push
and the advance are 10_state.md R22, R29 and log entry 30, the room for the push R23 (the spec's decision D5). -/
def Obligations.ReverseCompletes : Prop :=
  ∀ (s : State) (v : Item) (rest : List Item), Pulled s [v] rest → CanPush s rest →
    ∃ r : Item, exec .scB s = .next (advanced s (r :: rest)) ∧ r.length = v.length ∧
      (∀ j, j < v.length → r[j]? = v[v.length - 1 - j]?) ∧ (v = [] → r = [])

/-- No instruction of the circulate family changes the size of a string (45_circulate.md R180). -/
def Obligations.CirculateKeepsSize : Prop :=
  ∀ (i : Instr) (s t : State) (v : Item) (below : List Item), isCirculate i = true → s.stack = v :: below →
    exec i s = .next t → t.pc = s.pc + 17 → ∃ r stack, t.stack = r :: stack ∧ r.length = v.length

/-- `Overwrite(sup, sub, n)` (46_overwrite.md R190; that an empty substring fits by the same inequality is the spec's
decision D15). -/
def Obligations.OverwriteRule : Prop :=
  ∀ (sup sub : Item) (n : Int),
    (0 ≤ n ∧ n + sub.length ≤ sup.length →
      ∃ r, overwrite sup sub n = .ok r ∧ r.length = sup.length ∧
        (∀ k : Nat, k < sub.length → r[n.toNat + k]? = sub[k]?) ∧
        (∀ j : Nat, (j : Int) < n ∨ n + sub.length ≤ j → r[j]? = sup[j]?)) ∧
    (¬ (0 ≤ n ∧ n + sub.length ≤ sup.length) →
      overwrite sup sub n = .error (.raise ⟨.noFit, [some n, some sub.length, some sup.length]⟩))

/-- `Extract(sup, a, q)` (47_extract.md R210; the zero-bit clause is the spec's decision D15). -/
def Obligations.ExtractRule : Prop :=
  ∀ (sup : Item) (a : Int) (q : Nat),
    (0 ≤ a ∧ a + q ≤ sup.length →
      ∃ r, extract sup a q = .ok r ∧ r.length = q ∧ ∀ k : Nat, k < q → r[k]? = sup[a.toNat + k]?) ∧
    (¬ (0 ≤ a ∧ a + q ≤ sup.length) → 1 ≤ q →
      extract sup a q = .error (.raise ⟨.extractRange, [some a, some q, some sup.length]⟩)) ∧
    (¬ (0 ≤ a ∧ a + q ≤ sup.length) → q = 0 → extract sup a q = .error (.refuse .undecidedExtract))

/-- The comparison and its 6-bit result (43_versus.md R140): the first difference decides, without one the longer string
is greater; equal exactly for equal strings; the order is total, so there are three results. -/
def Obligations.ComparisonRule : Prop :=
  ∀ p q : Item,
    (∀ k : Nat, (∀ j, j < k → p[j]? = q[j]?) → p[k]? = some true → q[k]? = some false →
      cmp6 p q = [true, false, true, false, false, true]) ∧
    (∀ k : Nat, (∀ j, j < k → p[j]? = q[j]?) → p[k]? = some false → q[k]? = some true →
      cmp6 p q = [false, true, true, false, true, false]) ∧
    ((∀ j, j < min p.length q.length → p[j]? = q[j]?) →
      (q.length < p.length → cmp6 p q = [true, false, true, false, false, true]) ∧
      (p.length < q.length → cmp6 p q = [false, true, true, false, true, false])) ∧
    (cmp6 p q = [false, true, false, true, false, true] ↔ p = q) ∧
    (cmp6 p q = [true, false, true, false, false, true] ↔ cmp6 q p = [false, true, true, false, true, false]) ∧
    (cmp6 p q = [true, false, true, false, false, true] ∨ cmp6 p q = [false, true, false, true, false, true] ∨
      cmp6 p q = [false, true, true, false, true, false])

/-! ## Completion -/

/-- The instructions that pull nothing complete with their string pushed and nothing else changed: SG_E, SM_E0, SM_E1,
SM_Z, IG_E (R101, R150, R152, R154; IG_E is inferred by the spec, R77, log entry 19). -/
def Obligations.ManufacturedStringsPushed : Prop :=
  ∀ s : State, CanPush s s.stack →
    (∀ b : Item, exec (.sgE (some b)) s = .next (advanced s (b :: s.stack))) ∧
    (∀ u8 : BitVec 8, exec (.smE0 u8) s = .next (advanced s (List.replicate u8.toNat false :: s.stack))) ∧
    (∀ u8 : BitVec 8, exec (.smE1 u8) s = .next (advanced s (List.replicate u8.toNat true :: s.stack))) ∧
    exec .smZ s = .next (advanced s ([] :: s.stack)) ∧
    (∀ s12 : Int, exec (.igE s12) s = .next (advanced s (s.enc (some s12) :: s.stack)))

/-- Every Get that reads genspace completes when its bits are valid and hold values: they are pushed, a synchronized form
logs its event, genspace and the rest are as they were (R100, R102 to R111; the bit order is decision D8, the event D10;
the event's kind `get` is the model's choice, log entry 36). -/
def Obligations.GetReadsGenspace : Prop :=
  ∀ (s : State) (rest : List Item) (i : Instr) (y : Bool) (a : Int) (v : Item),
    GetOperands s rest i y a v.length → SyncAllowed s y → Holds s a v → CanPush s rest →
    exec i s = .next { advanced s (v :: rest) with log := logAfter s y .get a v.length }

/-- Every Put completes when its addresses are valid: the data bits are stored at the address of its operands, every
other address reads as before, nothing is pushed (R120 to R126; the bit order is decision D8, the event of a synchronized
form D10; the event's kind `put` is the model's choice, log entry 36). -/
def Obligations.PutWritesGenspace : Prop :=
  ∀ (s : State) (rest : List Item) (i : Instr) (y : Bool) (a : Int) (d : Item),
    PutOperands s rest i y a d → SyncAllowed s y → s.genspaceValid a d.length = true →
    ∃ t, exec i s = .next t ∧ t.stack = rest ∧ t.pc = s.pc + 17 ∧ t.log = logAfter s y .put a d.length ∧
      SameRest s t ∧ Stored s t a d

/-- Every Get-and-conditional-put completes when its two strings have one size and the bits at its address are valid and
hold values: the new value is stored exactly when the bits equal the old value, else every address reads as before,
and one item is pushed, the string read under the adopted setting (R130 to R136; decision D11, log entry 21). The event of a
synchronized form is decision D10, its kind `getPut` the model's choice (log entry 36). -/
def Obligations.GetPutComparesAndWrites : Prop :=
  ∀ (s : State) (rest : List Item) (i : Instr) (y : Bool) (a : Int) (old new cur : Item),
    GetPutOperands s rest i y a old new → SyncAllowed s y → old.length = new.length → cur.length = old.length →
    Holds s a cur → CanPush s rest →
    ∃ t r, exec i s = .next t ∧ t.stack = r :: rest ∧ t.pc = s.pc + 17 ∧
      t.log = logAfter s y .getPut a old.length ∧ SameRest s t ∧
      (cur = old → Stored s t a new) ∧ (cur ≠ old → NothingStored s t) ∧
      (s.config.getPutResult = .stringRead → r = cur) ∧ r.length ≤ maxSize

/-- SV_E and SV_R complete with the 6-bit comparison string pushed (R141, R142). -/
def Obligations.VersusPushesTheComparison : Prop :=
  ∀ (s : State) (rest : List Item), CanPush s rest →
    (∀ p b9 : Item, Pulled s [p] rest → exec (.svE b9) s = .next (advanced s (cmp6 p b9 :: rest))) ∧
    (∀ p q : Item, Pulled s [p, q] rest → exec .svR s = .next (advanced s (cmp6 p q :: rest)))

/-- The register forms of Manufacture and all of Resize complete for every size in 0…255 (R151, R153, R156 to R159). -/
def Obligations.ManufactureAndResizeComplete : Prop :=
  ∀ (s : State) (rest : List Item), CanPush s rest →
    (∀ (x0 : Item) (n : Nat), Pulled s [x0] rest → ReadsAs s x0 n → n ≤ 255 →
      exec .smR0 s = .next (advanced s (List.replicate n false :: rest)) ∧
      exec .smR1 s = .next (advanced s (List.replicate n true :: rest))) ∧
    (∀ (v : Item) (u8 : BitVec 8), Pulled s [v] rest →
      exec (.srE0 u8) s = .next (advanced s (resize v u8.toNat false :: rest)) ∧
      exec (.srE1 u8) s = .next (advanced s (resize v u8.toNat true :: rest))) ∧
    (∀ (v x1 : Item) (n : Nat), Pulled s [v, x1] rest → ReadsAs s x1 n → n ≤ 255 →
      exec .srR0 s = .next (advanced s (resize v n false :: rest)) ∧
      exec .srR1 s = .next (advanced s (resize v n true :: rest)))

/-- The shifts and the rotations of a non-empty string complete for every distance (R173 to R178). -/
def Obligations.ShiftsAndRotationsComplete : Prop :=
  ∀ (s : State) (rest : List Item), CanPush s rest →
    (∀ (v : Item) (s9 : Int), Pulled s [v] rest →
      exec (.scSE0 s9) s = .next (advanced s (shift v s9 false :: rest)) ∧
      exec (.scSE1 s9) s = .next (advanced s (shift v s9 true :: rest)) ∧
      (v ≠ [] → exec (.scRE s9) s = .next (advanced s (rotate v s9 :: rest)))) ∧
    (∀ (v x1 : Item) (d : Int), Pulled s [v, x1] rest → ReadsAs s x1 d →
      exec .scSR0 s = .next (advanced s (shift v d false :: rest)) ∧
      exec .scSR1 s = .next (advanced s (shift v d true :: rest)) ∧
      (v ≠ [] → exec .scRR s = .next (advanced s (rotate v d :: rest))))

/-- Every Overwrite completes where its substring fits: the superstring with the substring at the location is pushed
(R190 to R199; decision D15 for an empty substring). -/
def Obligations.OverwriteCompletes : Prop :=
  ∀ (s : State) (rest : List Item) (i : Instr) (sup sub : Item) (n : Nat),
    OverwriteOperands s rest i sup sub n → n + sub.length ≤ sup.length → CanPush s rest →
    ∃ r, exec i s = .next (advanced s (r :: rest)) ∧ r.length = sup.length ∧
      (∀ k : Nat, k < sub.length → r[n + k]? = sub[k]?) ∧
      (∀ j : Nat, j < n ∨ n + sub.length ≤ j → r[j]? = sup[j]?)

/-- Every Extract completes where all requested bits are in the superstring: they are pushed (R210 to R213). -/
def Obligations.ExtractCompletes : Prop :=
  ∀ (s : State) (rest : List Item) (i : Instr) (sup : Item) (a q : Nat),
    ExtractOperands s rest i sup a q → a + q ≤ sup.length → CanPush s rest →
    ∃ r, exec i s = .next (advanced s (r :: rest)) ∧ r.length = q ∧ ∀ k : Nat, k < q → r[k]? = sup[a + k]?

/-- SF_QE and SF_QR complete with the number of instances: `1 + size(sup)` for the empty substring, 0 for one longer than
the superstring (R222, R231, R232; that overlapping instances count is decision D13, its setting log entry 23). -/
def Obligations.FindCounts : Prop :=
  ∀ (s : State) (rest : List Item) (i : Instr) (sup sub : Item),
    CountOperands s rest i sup sub → OverlapAllowed s sup sub → CanPush s rest →
    exec i s = .next (advanced s (s.enc (some (countInstances sup sub fun _ => true : Int)) :: rest)) ∧
    (sub = [] → countInstances sup sub (fun _ => true) = 1 + sup.length) ∧
    (sup.length < sub.length → countInstances sup sub (fun _ => true) = 0)

/-- The eight locating instructions complete for `i` and `b` in range: the address of the instance that exactly
`i − FindIndexBase` instances are met before, else the not-found item (R220 to R230; decisions D13, D14; under every
setting of the parameters, log entries 23, 24). -/
def Obligations.FindLocates : Prop :=
  ∀ (s : State) (rest : List Item) (k : Instr) (dir : Direction) (sup sub : Item) (i b : Int),
    FindOperands s rest k dir sup sub (some i) (some b) → FindArgsGood s sup (some i) (some b) →
    OverlapAllowed s sup sub → CanPush s rest →
    ∃ r, exec k s = .next (advanced s (r :: rest)) ∧ LocateResult s dir sup sub i b r

/-- A null or out-of-range `i` or `b` refuses `FindArgument` under the recommended setting, throws under a setting that names
an exception, and under the uninterpreted one pushes an item of at most 255 bits (48_find.md R221; decision D14,
log entry 24). -/
def Obligations.FindBadArguments : Prop :=
  ∀ (s : State) (rest : List Item) (k : Instr) (dir : Direction) (sup sub : Item) (i b : Option Int),
    FindOperands s rest k dir sup sub i b → ¬ FindArgsGood s sup i b →
    (s.config.findBadArg = .refuse → exec k s = .refused .findArgument) ∧
    (∀ name, s.config.findBadArg = .raise name → exec k s = .next (s.throw ⟨name, [i, b]⟩)) ∧
    (s.config.findBadArg = .uninterpreted → CanPush s rest →
      ∃ r : Item, exec k s = .next (advanced s (r :: rest)) ∧ r.length ≤ maxSize)

/-- SJ, SB_N and SB_O complete: `#0` then `#1`; every bit changed; the truth table of the four operation bits applied bit
by bit to two strings of one size (R240 to R243; the order of the digits is decision D17). -/
def Obligations.JoinAndBooleanComplete : Prop :=
  ∀ (s : State) (rest : List Item), CanPush s rest →
    (∀ lo hi : Item, Pulled s [lo, hi] rest → lo.length + hi.length ≤ 255 →
      exec .sj s = .next (advanced s ((lo ++ hi) :: rest))) ∧
    (∀ v : Item, Pulled s [v] rest →
      ∃ r : Item, exec .sbN s = .next (advanced s (r :: rest)) ∧ r.length = v.length ∧
        ∀ k, (h : k < v.length) → r[k]? = some (!v[k])) ∧
    (∀ (p q : Item) (b0 b1 b2 b3 : Bit), Pulled s [p, q] rest → p.length = q.length →
      ∃ r : Item, exec (.sbO b0 b1 b2 b3) s = .next (advanced s (r :: rest)) ∧ r.length = p.length ∧
        ∀ (k : Nat) (x y : Bit), p[k]? = some x → q[k]? = some y → r[k]? = some (([b0, b1, b2, b3]).getD (2 * x.toNat + y.toNat) false))

/-! ## Exceptions -/

/-- `SizeRange` (60_exceptions.md R252): a requested size that is null, negative or above 255 throws in each of the 16
instructions with such an operand, and so does a join above 255 bits (the spec's decision D12); nothing but the mark
changes (decision D6). -/
def Obligations.SizeRangeThrown : Prop :=
  ∀ (s : State) (rest : List Item) (x0 x1 x2 : Item) (a : Int) (n : Option Int),
    (∀ i ∈ [Instr.sgAR, .sgRR], Pulled s [x0, x1] rest → ReadsAs s x0 a → BadSize s x1 n →
      exec i s = .next (s.throw ⟨.sizeRange, [n]⟩)) ∧
    (∀ i ∈ [Instr.sgARY, .sgRRY], s.config.agents = .one → Pulled s [x0, x1] rest → ReadsAs s x0 a → BadSize s x1 n →
      exec i s = .next (s.throw ⟨.sizeRange, [n]⟩)) ∧
    (∀ s9 : Int, Pulled s [x0] rest → BadSize s x0 n →
      exec (.sgRO s9) s = .next (s.throw ⟨.sizeRange, [n]⟩) ∧
      (s.config.agents = .one → exec (.sgROY s9) s = .next (s.throw ⟨.sizeRange, [n]⟩))) ∧
    (∀ i ∈ [Instr.smR0, .smR1], Pulled s [x0] rest → BadSize s x0 n → exec i s = .next (s.throw ⟨.sizeRange, [n]⟩)) ∧
    (∀ i ∈ [Instr.srR0, .srR1], Pulled s [x0, x1] rest → BadSize s x1 n →
      exec i s = .next (s.throw ⟨.sizeRange, [n]⟩)) ∧
    (∀ u8 : BitVec 8, ∀ i ∈ [Instr.so0L u8, .so1L u8, .seA u8], Pulled s [x0, x1] rest → BadSize s x1 n →
      exec i s = .next (s.throw ⟨.sizeRange, [n]⟩)) ∧
    (∀ i ∈ [Instr.so0R, .so1R, .seR], Pulled s [x0, x1, x2] rest → ReadsAs s x1 a → BadSize s x2 n →
      exec i s = .next (s.throw ⟨.sizeRange, [n]⟩)) ∧
    (Pulled s [x0, x1] rest → 255 < x0.length + x1.length →
      (s.config.joinOverflow = .raise → exec .sj s = .next (s.throw ⟨.sizeRange, [some (x0.length + x1.length : Nat)]⟩)) ∧
      (s.config.joinOverflow = .refuse → exec .sj s = .refused .joinOverflow))

/-- `SizeMismatch` (60_exceptions.md R254): two strings of different size throw in every Get-and-conditional-put and in
SB_O; nothing but the mark changes (decision D6). -/
def Obligations.SizeMismatchThrown : Prop :=
  (∀ (s : State) (rest : List Item) (i : Instr) (y : Bool) (a : Int) (old new : Item),
    GetPutOperands s rest i y a old new → SyncAllowed s y → old.length ≠ new.length →
    exec i s = .next (s.throw ⟨.sizeMismatch, [some old.length, some new.length]⟩)) ∧
  (∀ (s : State) (rest : List Item) (p q : Item) (b0 b1 b2 b3 : Bit), Pulled s [p, q] rest → p.length ≠ q.length →
    exec (.sbO b0 b1 b2 b3) s = .next (s.throw ⟨.sizeMismatch, [some p.length, some q.length]⟩))

/-- `NullDistance` (60_exceptions.md R255): a null distance throws in SC_SR0, SC_SR1 and SC_RR, and no embedded form
raises it: their null pattern selects these register forms. -/
def Obligations.NullDistanceThrown : Prop :=
  (∀ (s : State) (rest : List Item) (v x1 : Item), Pulled s [v, x1] rest → ReadsNull s x1 →
    Throws (exec .scSR0 s) .nullDistance ∧ Throws (exec .scSR1 s) .nullDistance ∧ Throws (exec .scRR s) .nullDistance) ∧
  (∀ (s : State) (s9 : Int) (i : Instr), i ∈ [Instr.scSE0 s9, .scSE1 s9, .scRE s9] → s.thrown = none →
    ¬ Throws (exec i s) .nullDistance) ∧
  decode (nullBits 9 ++ [true, false, true, true, false, true, false, true]) = .ok .scSR0 ∧
  decode (nullBits 9 ++ [false, false, true, true, false, true, false, true]) = .ok .scSR1 ∧
  decode (nullBits 9 ++ [false, true, true, true, false, true, false, true]) = .ok .scRR

/-- `NoFit`, `LocationRange` and `ExtractRange` (60_exceptions.md R257 to R259): every Overwrite throws where its substring
does not fit, SO_S and SO_R where the location is outside −255…+255, these and SO_0Q, SO_0R, SO_1Q, SO_1R where it is
null (the spec's decision D16), every Extract where a requested bit is outside, SE_S and SE_R where the start is null
(D16); a zero-bit extract that starts outside `0 … S` is refused (decision D15). Nothing but the mark changes (D6). -/
def Obligations.OverwriteAndExtractExceptions : Prop :=
  (∀ (s : State) (rest : List Item) (i : Instr) (sup sub : Item) (n : Int),
    OverwriteOperands s rest i sup sub n → ¬ (0 ≤ n ∧ n + sub.length ≤ sup.length) →
    exec i s = .next (s.throw ⟨.noFit, [some n, some sub.length, some sup.length]⟩)) ∧
  (∀ (s : State) (rest : List Item) (x0 x1 x2 b9 : Item) (u8 : BitVec 8),
    (∀ n : Int, n < -255 ∨ 255 < n →
      (Pulled s [x0, x1] rest → ReadsAs s x1 n → exec (.soS b9) s = .next (s.throw ⟨.locationRange, [some n]⟩)) ∧
      (Pulled s [x0, x1, x2] rest → ReadsAs s x2 n → exec .soR s = .next (s.throw ⟨.locationRange, [some n]⟩))) ∧
    (∀ i ∈ [Instr.soS b9, .so0Q u8, .so1Q u8], Pulled s [x0, x1] rest → ReadsNull s x1 →
      exec i s = .next (s.throw ⟨.locationRange, [none]⟩)) ∧
    (∀ i ∈ [Instr.so0R, .so1R], Pulled s [x0, x1, x2] rest → ReadsNull s x1 →
      exec i s = .next (s.throw ⟨.locationRange, [none]⟩)) ∧
    (Pulled s [x0, x1, x2] rest → ReadsNull s x2 → exec .soR s = .next (s.throw ⟨.locationRange, [none]⟩)) ∧
    (Pulled s [x0, x1] rest → ReadsNull s x1 → exec (.seS u8) s = .next (s.throw ⟨.extractRange, [none]⟩)) ∧
    (Pulled s [x0, x1, x2] rest → ReadsNull s x1 → exec .seR s = .next (s.throw ⟨.extractRange, [none]⟩))) ∧
  (∀ (s : State) (rest : List Item) (i : Instr) (sup : Item) (a : Int) (q : Nat),
    ExtractOperands s rest i sup a q → ¬ (0 ≤ a ∧ a + q ≤ sup.length) →
    (1 ≤ q → exec i s = .next (s.throw ⟨.extractRange, [some a, some q, some sup.length]⟩)) ∧
    (q = 0 → exec i s = .refused .undecidedExtract))

/-! ## Refusals -/

/-- A null absolute address or register offset is refused (20_memory.md R44, the spec's decision D9), and so is an operand
in the undecided band where the pseudocode reads it as an integer (10_state.md R26, decision D3; 60_exceptions.md R263). -/
def Obligations.NullAddressAndUndecidedRefused : Prop :=
  ∀ (i : Instr) (s : State) (xs rest : List Item), Pulled s xs rest → xs.length = pulls i → s.config.agents = .one →
    (∀ x0, hasAddressOperand i = true → xs[0]? = some x0 → ReadsNull s x0 → exec i s = .refused .nullAddress) ∧
    (∀ j v, (intOperands i).head? = some j → xs[j]? = some v → Undecided s v → exec i s = .refused .undecidedInteger) ∧
    (∀ j k u v z, intOperands i = [j, k] → xs[j]? = some u → ReadsAs s u z → xs[k]? = some v → Undecided s v →
      exec i s = .refused .undecidedInteger)

/-- An access of at least one bit that is not wholly inside valid genspace, or reads a bit without a value, is refused
(20_memory.md R41, 70_reset_and_hazards.md R281; the spec's decision D9). -/
def Obligations.AccessOutsideRefused : Prop :=
  (∀ (s : State) (rest : List Item) (i : Instr) (y : Bool) (a : Int) (n : Nat),
    GetOperands s rest i y a n → SyncAllowed s y → (∀ v : Item, v.length = n → ¬ Holds s a v) →
    exec i s = .refused (.accessOutside a n)) ∧
  (∀ (s : State) (rest : List Item) (i : Instr) (y : Bool) (a : Int) (d : Item),
    PutOperands s rest i y a d → SyncAllowed s y → s.genspaceValid a d.length = false →
    exec i s = .refused (.accessOutside a d.length)) ∧
  (∀ (s : State) (rest : List Item) (i : Instr) (y : Bool) (a : Int) (old new : Item),
    GetPutOperands s rest i y a old new → SyncAllowed s y → old.length = new.length →
    (∀ v : Item, v.length = old.length → ¬ Holds s a v) → exec i s = .refused (.accessOutside a old.length))

/-- Under the cautious setting a Find whose superstring holds two instances less than `L` apart is refused
(48_find.md R220; decision D13, log entry 23). -/
def Obligations.OverlapRefused : Prop :=
  ∀ (s : State) (rest : List Item) (k : Instr) (sup sub : Item) (p q : Nat), s.config.overlap = .refuse →
    standsAt sup sub p = true → standsAt sup sub q = true → p < q → q < p + sub.length →
    (CountOperands s rest k sup sub → exec k s = .refused .overlapUndecided) ∧
    (∀ dir i b, FindOperands s rest k dir sup sub i b → FindArgsGood s sup i b → exec k s = .refused .overlapUndecided)

/-! ## Which addresses exist -/

/-- `GenspaceValid(a, n)` is true when every bit `a … a+n−1` exists, so for no bit always (20_memory.md R41, R46; the spec's
decision D9). Which addresses exist is a union of regions in the configuration (the form is the model's, log entry 3):
all of them, the non-negative ones, a bounded range, and the uninterpreted set are settings. -/
def Obligations.GenspaceValidBitByBit : Prop :=
  (∀ (s : State) (a : Int) (n : Nat),
    s.genspaceValid a n = true ↔ ∀ k : Nat, k < n → s.genspaceValid (a + k) 1 = true) ∧
  (∀ (s : State) (a : Int), s.config.extent = [.everywhere] → s.genspaceValid a 1 = true) ∧
  (∀ (s : State) (a b : Int), s.config.extent = [.atLeast b] → (s.genspaceValid a 1 = true ↔ b ≤ a)) ∧
  (∀ (s : State) (a b : Int), s.config.extent = [.atMost b] → (s.genspaceValid a 1 = true ↔ a ≤ b)) ∧
  (∀ (s : State) (a b : Int) (m : Nat), s.config.extent = [.range b m] → (s.genspaceValid a 1 = true ↔ b ≤ a ∧ a < b + m)) ∧
  (∀ (s : State) (a : Int), s.config.extent = [.uninterpreted] → s.genspaceValid a 1 = Config.openExtent a) ∧
  ∀ (s t u : State) (a : Int), s.config.extent = t.config.extent ++ u.config.extent →
    (s.genspaceValid a 1 = true ↔ t.genspaceValid a 1 = true ∨ u.genspaceValid a 1 = true)

/-! ## Runs that threw -/

/-- A run that throws is not complete (70_reset_and_hazards.md R284; the spec's decision D19), now or later: an exception
is put on record, every step keeps the record, one by a set `ThrowEffect` too, and no state with it is complete. At the end
of the run such a state fetches (that the record is a field, and the fetch there, are the model's choice, log entry 37). -/
def Obligations.ThrownRunIsNeverComplete : Prop :=
  (∀ (i : Instr) (s t : State), s.thrown = none → exec i s = .next t → t.thrown ≠ none → t.threw = true) ∧
  (∀ s t : State, Threw s → step s = .next t → Threw t) ∧
  (∀ s : State, Threw s → ¬ Complete s) ∧
  ∀ s : State, s.threw = true → s.thrown = none →
    (∃ i, s.fetchInstr = .ok i ∧ step s = exec i s) ∨ ∃ r, s.fetchInstr = .error r ∧ step s = .refused r
end

