-- ==== Sys2Proof/Laws/State.lean ====
section
/-! SUPPORT. One lemma per field per update of State, and the two rules of the pseudocode's sequencing. -/

namespace Sys2Proof.Machine

/-! ### State.throw -/

@[simp] theorem State.throw_stack (s : State) (t : Thrown) : (s.throw t).stack = s.stack := rfl
@[simp] theorem State.throw_pc (s : State) (t : Thrown) : (s.throw t).pc = s.pc := rfl
@[simp] theorem State.throw_genspace (s : State) (t : Thrown) : (s.throw t).genspace = s.genspace := rfl
@[simp] theorem State.throw_log (s : State) (t : Thrown) : (s.throw t).log = s.log := rfl
@[simp] theorem State.throw_thrown (s : State) (t : Thrown) : (s.throw t).thrown = some t := rfl
@[simp] theorem State.throw_threw (s : State) (t : Thrown) : (s.throw t).threw = true := rfl
@[simp] theorem State.throw_config (s : State) (t : Thrown) : (s.throw t).config = s.config := rfl

/-! ### State.sync -/

@[simp] theorem State.sync_stack (s : State) (k : SyncKind) (a : Int) (n : Nat) : (s.sync k a n).stack = s.stack := rfl
@[simp] theorem State.sync_pc (s : State) (k : SyncKind) (a : Int) (n : Nat) : (s.sync k a n).pc = s.pc := rfl
@[simp] theorem State.sync_genspace (s : State) (k : SyncKind) (a : Int) (n : Nat) : (s.sync k a n).genspace = s.genspace := rfl
@[simp] theorem State.sync_log (s : State) (k : SyncKind) (a : Int) (n : Nat) : (s.sync k a n).log = s.log ++ [⟨k, a, n⟩] := rfl
@[simp] theorem State.sync_thrown (s : State) (k : SyncKind) (a : Int) (n : Nat) : (s.sync k a n).thrown = s.thrown := rfl
@[simp] theorem State.sync_threw (s : State) (k : SyncKind) (a : Int) (n : Nat) : (s.sync k a n).threw = s.threw := rfl
@[simp] theorem State.sync_config (s : State) (k : SyncKind) (a : Int) (n : Nat) : (s.sync k a n).config = s.config := rfl

/-! ### State.retire -/

@[simp] theorem State.retire_stack (s : State) (st : List Item) : (s.retire st).stack = st := rfl
@[simp] theorem State.retire_pc (s : State) (st : List Item) : (s.retire st).pc = s.pc + 17 := rfl
@[simp] theorem State.retire_genspace (s : State) (st : List Item) : (s.retire st).genspace = s.genspace := rfl
@[simp] theorem State.retire_log (s : State) (st : List Item) : (s.retire st).log = s.log := rfl
@[simp] theorem State.retire_thrown (s : State) (st : List Item) : (s.retire st).thrown = s.thrown := rfl
@[simp] theorem State.retire_threw (s : State) (st : List Item) : (s.retire st).threw = s.threw := rfl
@[simp] theorem State.retire_config (s : State) (st : List Item) : (s.retire st).config = s.config := rfl

/-! ### State.withBits -/

@[simp] theorem State.withBits_stack (s : State) (a : Int) (v : Item) : (s.withBits a v).stack = s.stack := rfl
@[simp] theorem State.withBits_pc (s : State) (a : Int) (v : Item) : (s.withBits a v).pc = s.pc := rfl
@[simp] theorem State.withBits_genspace (s : State) (a : Int) (v : Item) : (s.withBits a v).genspace = s.genspace.write a v := rfl
@[simp] theorem State.withBits_log (s : State) (a : Int) (v : Item) : (s.withBits a v).log = s.log := rfl
@[simp] theorem State.withBits_thrown (s : State) (a : Int) (v : Item) : (s.withBits a v).thrown = s.thrown := rfl
@[simp] theorem State.withBits_threw (s : State) (a : Int) (v : Item) : (s.withBits a v).threw = s.threw := rfl
@[simp] theorem State.withBits_config (s : State) (a : Int) (v : Item) : (s.withBits a v).config = s.config := rfl

/-! ### State.storeValid, State.resume -/

@[simp] theorem State.storeValid_stack (s : State) (a : Int) (v : Item) : (s.storeValid a v).stack = s.stack := by
  unfold State.storeValid; split <;> rfl
@[simp] theorem State.storeValid_pc (s : State) (a : Int) (v : Item) : (s.storeValid a v).pc = s.pc := by
  unfold State.storeValid; split <;> rfl
@[simp] theorem State.storeValid_log (s : State) (a : Int) (v : Item) : (s.storeValid a v).log = s.log := by
  unfold State.storeValid; split <;> rfl
@[simp] theorem State.storeValid_thrown (s : State) (a : Int) (v : Item) : (s.storeValid a v).thrown = s.thrown := by
  unfold State.storeValid; split <;> rfl
@[simp] theorem State.storeValid_threw (s : State) (a : Int) (v : Item) : (s.storeValid a v).threw = s.threw := by
  unfold State.storeValid; split <;> rfl
@[simp] theorem State.storeValid_config (s : State) (a : Int) (v : Item) : (s.storeValid a v).config = s.config := by
  unfold State.storeValid; split <;> rfl

@[simp] theorem State.resume_stack (s : State) (r : Resumption) : (s.resume r).stack = s.boundStack r.stack := rfl
@[simp] theorem State.resume_pc (s : State) (r : Resumption) : (s.resume r).pc = r.pc := rfl
@[simp] theorem State.resume_thrown (s : State) (r : Resumption) : (s.resume r).thrown = none := rfl
@[simp] theorem State.resume_threw (s : State) (r : Resumption) : (s.resume r).threw = true := rfl

/-- A fold over states that keeps a field at every step keeps it. -/
theorem foldl_field {α β : Type} {f : State → α → State} (field : State → β) (h : ∀ t c, field (f t c) = field t)
    (l : List α) (s : State) : field (l.foldl f s) = field s := by
  induction l generalizing s with
  | nil => rfl
  | cons c l ih => rw [List.foldl_cons, ih, h]

@[simp] theorem State.resume_log (s : State) (r : Resumption) : (s.resume r).log = s.log := by
  show (r.stores.foldl (fun t c => t.storeValid c.1 c.2) s).log = s.log
  exact foldl_field State.log (fun t c => State.storeValid_log t c.1 c.2) r.stores s
@[simp] theorem State.resume_config (s : State) (r : Resumption) : (s.resume r).config = s.config := by
  show (r.stores.foldl (fun t c => t.storeValid c.1 c.2) s).config = s.config
  exact foldl_field State.config (fun t c => State.storeValid_config t c.1 c.2) r.stores s

/-! ### State.syncIf -/

@[simp] theorem State.syncIf_false (s : State) (k : SyncKind) (a : Int) (n : Nat) : s.syncIf false k a n = s := rfl
@[simp] theorem State.syncIf_true (s : State) (k : SyncKind) (a : Int) (n : Nat) : s.syncIf true k a n = s.sync k a n := rfl
@[simp] theorem State.syncIf_stack (s : State) (y : Bool) (k : SyncKind) (a : Int) (n : Nat) :
    (s.syncIf y k a n).stack = s.stack := by cases y <;> rfl
@[simp] theorem State.syncIf_pc (s : State) (y : Bool) (k : SyncKind) (a : Int) (n : Nat) :
    (s.syncIf y k a n).pc = s.pc := by cases y <;> rfl
@[simp] theorem State.syncIf_genspace (s : State) (y : Bool) (k : SyncKind) (a : Int) (n : Nat) :
    (s.syncIf y k a n).genspace = s.genspace := by cases y <;> rfl
@[simp] theorem State.syncIf_thrown (s : State) (y : Bool) (k : SyncKind) (a : Int) (n : Nat) :
    (s.syncIf y k a n).thrown = s.thrown := by cases y <;> rfl
@[simp] theorem State.syncIf_threw (s : State) (y : Bool) (k : SyncKind) (a : Int) (n : Nat) :
    (s.syncIf y k a n).threw = s.threw := by cases y <;> rfl
@[simp] theorem State.syncIf_config (s : State) (y : Bool) (k : SyncKind) (a : Int) (n : Nat) :
    (s.syncIf y k a n).config = s.config := by cases y <;> rfl

/-! ### State.withFetchWord -/

@[simp] theorem State.withFetchWord_stack (s : State) (nbits w : Nat) :
    (s.withFetchWord nbits w).stack = s.stack := by simp only [State.withFetchWord]
@[simp] theorem State.withFetchWord_pc (s : State) (nbits w : Nat) :
    (s.withFetchWord nbits w).pc = s.pc := by simp only [State.withFetchWord]
@[simp] theorem State.withFetchWord_genspace (s : State) (nbits w : Nat) :
    (s.withFetchWord nbits w).genspace = s.genspace.write s.pc (tableBits nbits w) := by simp only [State.withFetchWord]
@[simp] theorem State.withFetchWord_log (s : State) (nbits w : Nat) :
    (s.withFetchWord nbits w).log = s.log := by simp only [State.withFetchWord]
@[simp] theorem State.withFetchWord_thrown (s : State) (nbits w : Nat) :
    (s.withFetchWord nbits w).thrown = none := by simp only [State.withFetchWord]
@[simp] theorem State.withFetchWord_threw (s : State) (nbits w : Nat) :
    (s.withFetchWord nbits w).threw = s.threw := by simp only [State.withFetchWord]

/-! ### Sequencing -/

@[simp] theorem ok_bind {ε α β : Type} (a : α) (f : α → Except ε β) : (Except.ok a >>= f) = f a := rfl
@[simp] theorem error_bind {ε α β : Type} (e : ε) (f : α → Except ε β) : ((Except.error e : Except ε α) >>= f) = .error e := rfl

/-- A sequence completes when its first part does and its second part does on that result. -/
theorem bind_eq_ok {ε α β : Type} {m : Except ε α} {f : α → Except ε β} {b : β} :
    (m >>= f) = .ok b ↔ ∃ a, m = .ok a ∧ f a = .ok b := by
  cases m <;> simp

/-- A sequence ends early in its first part, or in its second after the first completed. -/
theorem bind_eq_error {ε α β : Type} {m : Except ε α} {f : α → Except ε β} {e : ε} :
    (m >>= f) = .error e ↔ m = .error e ∨ ∃ a, m = .ok a ∧ f a = .error e := by
  cases m <;> simp

@[simp] theorem conclude_ok (s t : State) : s.conclude (.ok t) = .next t := rfl
@[simp] theorem conclude_raise (s : State) (name : ExceptionName) (info : List (Option Int)) :
    s.conclude (raise name info) = .next (s.throw ⟨name, info⟩) := rfl
@[simp] theorem conclude_refuse (s : State) (r : Refusal) : s.conclude (refuse r) = .refused r := rfl

/-- An instruction answers a next state when its pseudocode completed there or raised (60_exceptions.md R250, R251). -/
theorem conclude_eq_next {s t : State} {m : Except Stop State} :
    s.conclude m = .next t ↔ m = .ok t ∨ ∃ e, m = .error (.raise e) ∧ t = s.throw e := by
  rcases m with (e | r) | u <;> simp [State.conclude, eq_comm]

/-- An instruction is refused when its pseudocode refused. -/
theorem conclude_eq_refused {s : State} {m : Except Stop State} {r : Refusal} :
    s.conclude m = .refused r ↔ m = .error (.refuse r) := by
  rcases m with (e | r) | u <;> simp [State.conclude]

/-- A thrown state is left only under a `ThrowEffect` that is set, by a resumption (60_exceptions.md R251). -/
theorem leaveThrown_eq_next {s t : State} {e : Thrown} :
    s.leaveThrown e = .next t ↔ s.config.throwEffect = .uninterpreted ∧
      ∃ r, Config.openThrowEffect e s.stack s.pc s.genspace = some r ∧ t = s.resume r := by
  unfold State.leaveThrown
  cases s.config.throwEffect
  · simp
  · cases Config.openThrowEffect e s.stack s.pc s.genspace <;> simp [eq_comm]

/-- No meaning ends in a fault: only a step from a thrown state does. -/
theorem conclude_ne_fault (s : State) (m : Except Stop State) (f : Fault) : s.conclude m ≠ .fault f := by
  rcases m with (e | r) | u <;> simp [State.conclude]

end Sys2Proof.Machine
end

