-- ==== Sys2Proof/Laws/Memory.lean ====
section
/-! SUPPORT. Genspace: what a read gives after a write, and that every operation keeps the canonical form. -/

namespace Sys2Proof.Machine

/-! ### One bit -/

@[simp] theorem readBit_nil (a : Int) : Memory.readBit [] a = none := rfl

theorem readBit_cons (c : Cell) (m : Memory) (a : Int) :
    Memory.readBit (c :: m) a = if a = c.1 then some c.2 else m.readBit a := rfl

/-- A read after a write to the same address gives the value written. -/
theorem readBit_writeBit_same (m : Memory) (a : Int) (v : Bit) : (m.writeBit a v).readBit a = some v := by
  induction m with
  | nil => simp [Memory.writeBit, readBit_cons]
  | cons c m ih =>
    obtain ⟨b, w⟩ := c
    unfold Memory.writeBit
    split_ifs with h1 h2 <;> simp [readBit_cons, *]

/-- A write leaves every other address alone. -/
theorem readBit_writeBit_other (m : Memory) {a b : Int} (v : Bit) (h : b ≠ a) :
    (m.writeBit a v).readBit b = m.readBit b := by
  induction m with
  | nil => simp [Memory.writeBit, readBit_cons, h]
  | cons c m ih =>
    obtain ⟨k, w⟩ := c
    unfold Memory.writeBit
    split_ifs with h1 h2
    · simp [readBit_cons, h]
    · subst h2; simp [readBit_cons, h]
    · simp [readBit_cons, ih]

theorem readBit_writeBit (m : Memory) (a b : Int) (v : Bit) :
    (m.writeBit a v).readBit b = if b = a then some v else m.readBit b := by
  split_ifs with h
  · subst h; exact readBit_writeBit_same m b v
  · exact readBit_writeBit_other m v h

/-- Every address of a list after a write is the address written or an address before. -/
theorem mem_writeBit {m : Memory} {a : Int} {v : Bit} {c : Cell} (h : c ∈ m.writeBit a v) : c.1 = a ∨ c ∈ m := by
  induction m with
  | nil => simp [Memory.writeBit] at h; simp [h]
  | cons k m ih =>
    obtain ⟨b, w⟩ := k
    unfold Memory.writeBit at h
    split_ifs at h with h1 h2
    · rcases List.mem_cons.1 h with rfl | h
      · exact .inl rfl
      · exact .inr h
    · rcases List.mem_cons.1 h with rfl | h
      · exact .inl rfl
      · exact .inr (List.mem_cons_of_mem _ h)
    · rcases List.mem_cons.1 h with rfl | h
      · exact .inr (List.mem_cons_self ..)
      · exact (ih h).imp id (List.mem_cons_of_mem _)

/-- Writing one bit keeps the canonical form. -/
theorem wf_writeBit {m : Memory} (a : Int) (v : Bit) (h : m.wf) : (m.writeBit a v).wf := by
  induction m with
  | nil => simp [Memory.writeBit, Memory.wf]
  | cons c m ih =>
    obtain ⟨b, w⟩ := c
    obtain ⟨hb, hm⟩ := List.pairwise_cons.1 h
    unfold Memory.writeBit
    split_ifs with h1 h2
    · refine List.pairwise_cons.2 ⟨fun c hc => ?_, h⟩
      rcases List.mem_cons.1 hc with rfl | hc
      · exact h1
      · exact lt_trans h1 (hb c hc)
    · subst h2
      exact List.pairwise_cons.2 ⟨fun c hc => hb c hc, hm⟩
    · refine List.pairwise_cons.2 ⟨fun c hc => ?_, ih hm⟩
      rcases mem_writeBit hc with hc | hc
      · rw [hc]; exact lt_of_le_of_ne (not_lt.1 h1) (Ne.symm h2)
      · exact hb c hc

/-! ### A string of bits -/

@[simp] theorem write_nil (m : Memory) (a : Int) : m.write a [] = m := rfl

/-- Writing a string keeps the canonical form. -/
theorem wf_write {m : Memory} (a : Int) (v : Item) (h : m.wf) : (m.write a v).wf := by
  induction v generalizing m a with
  | nil => exact h
  | cons b v ih => exact ih (a + 1) (wf_writeBit a b h)

/-- A write leaves the addresses outside its string alone. -/
theorem readBit_write_outside (m : Memory) {a b : Int} (v : Item) (h : b < a ∨ a + v.length ≤ b) :
    (m.write a v).readBit b = m.readBit b := by
  induction v generalizing m a with
  | nil => rfl
  | cons x v ih =>
    rw [Memory.write, ih, readBit_writeBit_other]
    · simp at h; omega
    · simp at h ⊢; omega

/-- A write stores string bit `k` at address `a + k` (20_memory.md R43). -/
theorem readBit_write_inside (m : Memory) (a : Int) (v : Item) (k : Nat) (h : k < v.length) :
    (m.write a v).readBit (a + k) = some v[k] := by
  induction v generalizing m a k with
  | nil => simp at h
  | cons x v ih =>
    rw [Memory.write]
    cases k with
    | zero => rw [readBit_write_outside _ _ (by simp), show a + ((0 : Nat) : Int) = a by simp, readBit_writeBit_same]; rfl
    | succ k =>
      have := ih (m.writeBit a x) (a + 1) k (by simpa using h)
      rw [show a + ((k + 1 : Nat) : Int) = a + 1 + k by push_cast; ring, this]; rfl

/-- A read gives `v` when string bit `k` is the value at address `a + k` for every `k` below the size (R42). -/
theorem read_eq_some {m : Memory} {a : Int} {n : Nat} {v : Item} :
    m.read a n = some v ↔ v.length = n ∧ ∀ k, (h : k < v.length) → m.readBit (a + k) = some v[k] := by
  induction n generalizing a v with
  | zero => rw [Memory.read]; simp only [Option.some.injEq]; constructor
            · rintro rfl; simp
            · rintro ⟨h, -⟩; exact (List.length_eq_zero_iff.1 h).symm
  | succ n ih =>
    rw [Memory.read]
    constructor
    · intro h
      split at h
      · rename_i b w hb hw
        obtain rfl := Option.some.inj h
        obtain ⟨hl, hk⟩ := ih.1 hw
        refine ⟨by simp [hl], fun k hk' => ?_⟩
        cases k with
        | zero => simpa using hb
        | succ k =>
          have := hk k (by simpa using hk')
          rw [show a + ((k + 1 : Nat) : Int) = a + 1 + k by push_cast; ring, this]; rfl
      · cases h
    · rintro ⟨hl, hk⟩
      cases v with
      | nil => simp at hl
      | cons b w =>
        have h0 : m.readBit a = some b := by have := hk 0 (by simp); rw [show a + ((0 : Nat) : Int) = a by simp] at this; exact this
        have h1 : m.read (a + 1) n = some w := by
          refine ih.2 ⟨by simpa using hl, fun k hk' => ?_⟩
          have := hk (k + 1) (by simpa using hk')
          rw [show a + ((k + 1 : Nat) : Int) = a + 1 + k by push_cast; ring] at this
          exact this
        rw [h0, h1]

/-- Every value of a write is one it stored or one from before. -/
theorem isSome_readBit_write {m : Memory} {a b : Int} {v : Item} (h : ((m.write a v).readBit b).isSome) :
    (a ≤ b ∧ b < a + v.length) ∨ (m.readBit b).isSome := by
  by_cases hb : b < a ∨ a + v.length ≤ b
  · rw [readBit_write_outside m v hb] at h; exact .inr h
  · exact .inl (by omega)

/-! ### Validity and the two accesses -/

/-- `GenspaceValid(a, n)` bit by bit (R41). -/
theorem genspaceValid_iff {s : State} {a : Int} {n : Nat} :
    s.genspaceValid a n = true ↔ ∀ k < n, extentHas s.config.extent (a + (k : Nat)) = true := by
  simp [State.genspaceValid]

@[simp] theorem genspaceValid_zero (s : State) (a : Int) : s.genspaceValid a 0 = true := rfl
@[simp] theorem genspaceValid_sync (s : State) (k : SyncKind) (b : Int) (m : Nat) (a : Int) (n : Nat) :
    (s.sync k b m).genspaceValid a n = s.genspaceValid a n := rfl
@[simp] theorem genspaceValid_syncIf (s : State) (y : Bool) (k : SyncKind) (b : Int) (m : Nat) (a : Int) (n : Nat) :
    (s.syncIf y k b m).genspaceValid a n = s.genspaceValid a n := by cases y <;> rfl

/-- A read completes exactly when its bits are valid and have values, and gives those values (R41, R42). -/
theorem memRead_eq_ok {s : State} {a : Int} {n : Nat} {v : Item} :
    s.memRead a n = .ok v ↔ s.genspaceValid a n = true ∧ s.genspace.read a n = some v := by
  unfold State.memRead
  split_ifs with h
  · cases hr : s.genspace.read a n <;> simp [h]
  · simp [h]

/-- A read that does not complete refuses `AccessOutside` (R41). -/
theorem memRead_eq_error {s : State} {a : Int} {n : Nat} {e : Stop} (h : s.memRead a n = .error e) :
    e = .refuse (.accessOutside a n) := by
  unfold State.memRead at h
  split at h
  · split at h <;> cases h; rfl
  · cases h; rfl

/-- A write completes exactly when its addresses are valid (R41, R43). -/
theorem memWrite_eq_ok {s t : State} {a : Int} {v : Item} :
    s.memWrite a v = .ok t ↔ s.genspaceValid a v.length = true ∧ t = s.withBits a v := by
  unfold State.memWrite
  split_ifs with h <;> simp [h, eq_comm]

/-- A write that does not complete refuses `AccessOutside` (R41). -/
theorem memWrite_eq_error {s : State} {a : Int} {v : Item} {e : Stop} (h : s.memWrite a v = .error e) :
    e = .refuse (.accessOutside a v.length) := by
  unfold State.memWrite at h
  split at h <;> cases h; rfl

@[simp] theorem memRead_syncIf (s : State) (y : Bool) (k : SyncKind) (b : Int) (m : Nat) (a : Int) (n : Nat) :
    (s.syncIf y k b m).memRead a n = s.memRead a n := by cases y <;> rfl

/-! ### The stores of a resumption -/

/-- A store of a resumption keeps the canonical form. -/
theorem wf_storeValid {s : State} (a : Int) (v : Item) (h : s.genspace.wf) : (s.storeValid a v).genspace.wf := by
  unfold State.storeValid
  split
  · exact wf_write a v h
  · exact h

/-- A resumption keeps the canonical form. -/
theorem wf_resume {s : State} (r : Resumption) (h : s.genspace.wf) : (s.resume r).genspace.wf := by
  show (r.stores.foldl (fun t c => t.storeValid c.1 c.2) s).genspace.wf
  induction r.stores generalizing s with
  | nil => exact h
  | cons c l ih => exact ih (wf_storeValid c.1 c.2 h)

/-- A value after a store of a resumption is one from before, or stands at a valid address. -/
theorem isSome_readBit_storeValid {s : State} {a b : Int} {v : Item}
    (h : ((s.storeValid a v).genspace.readBit b).isSome) :
    (s.genspace.readBit b).isSome ∨ extentHas s.config.extent b = true := by
  unfold State.storeValid at h
  split at h
  · rename_i hv
    rcases isSome_readBit_write h with ⟨h1, h2⟩ | h
    · have := genspaceValid_iff.1 hv (b - a).toNat (by omega)
      rw [show a + ((b - a).toNat : Int) = b by omega] at this
      exact .inr this
    · exact .inl h
  · exact .inl h

/-! ### Reset -/

/-- Genspace after reset is in canonical form. -/
theorem wf_reset : State.reset.genspace.wf := by decide

end Sys2Proof.Machine
end

