-- ==== Sys2Proof/Laws/Operands.lean ====
section
/-! SUPPORT. The shared operations on the stack and on operands: for each, once, everything it can answer. -/

namespace Sys2Proof.Machine

@[simp] theorem refuse_bind {α β : Type} (r : Refusal) (f : α → Except Stop β) : (refuse r >>= f) = refuse r := rfl
@[simp] theorem raise_bind {α β : Type} (n : ExceptionName) (l : List (Option Int)) (f : α → Except Stop β) :
    (raise n l >>= f) = raise n l := rfl

/-! ### Pulls -/

/-- Pulling one item completes exactly when there is one and it is a string of at most 255 bits (10_state.md R24, R28). -/
theorem pull1_eq_ok {s : State} {x0 : Item} {rest : List Item} :
    s.pull1 = .ok (x0, rest) ↔ s.stack = x0 :: rest ∧ fits x0 := by
  unfold State.pull1
  rcases s.stack with _ | ⟨a, l⟩
  · simp [refuse]
  · by_cases h : fits a <;> simp [h, refuse] <;> grind

theorem pull2_eq_ok {s : State} {x0 x1 : Item} {rest : List Item} :
    s.pull2 = .ok (x0, x1, rest) ↔ s.stack = x0 :: x1 :: rest ∧ fits x0 ∧ fits x1 := by
  unfold State.pull2
  rcases s.stack with _ | ⟨a, _ | ⟨b, l⟩⟩
  · simp [refuse]
  · simp [refuse]
  · by_cases h : fits a ∧ fits b <;> simp [h, refuse] <;> grind

theorem pull3_eq_ok {s : State} {x0 x1 x2 : Item} {rest : List Item} :
    s.pull3 = .ok (x0, x1, x2, rest) ↔ s.stack = x0 :: x1 :: x2 :: rest ∧ fits x0 ∧ fits x1 ∧ fits x2 := by
  unfold State.pull3
  rcases s.stack with _ | ⟨a, _ | ⟨b, _ | ⟨c, l⟩⟩⟩
  · simp [refuse]
  · simp [refuse]
  · simp [refuse]
  · by_cases h : fits a ∧ fits b ∧ fits c <;> simp [h, refuse] <;> grind

theorem pull4_eq_ok {s : State} {x0 x1 x2 x3 : Item} {rest : List Item} :
    s.pull4 = .ok (x0, x1, x2, x3, rest) ↔
      s.stack = x0 :: x1 :: x2 :: x3 :: rest ∧ fits x0 ∧ fits x1 ∧ fits x2 ∧ fits x3 := by
  unfold State.pull4
  rcases s.stack with _ | ⟨a, _ | ⟨b, _ | ⟨c, _ | ⟨d, l⟩⟩⟩⟩
  · simp [refuse]
  · simp [refuse]
  · simp [refuse]
  · simp [refuse]
  · by_cases h : fits a ∧ fits b ∧ fits c ∧ fits d <;> simp [h, refuse] <;> grind

/-- A pull that does not complete refuses: underflow when there are too few items, else an oversize item. -/
theorem pull1_eq_error {s : State} {e : Stop} (h : s.pull1 = .error e) :
    (e = .refuse .stackUnderflow ∧ s.stack.length < 1) ∨ (e = .refuse .oversizeItem ∧ 1 ≤ s.stack.length) := by
  unfold State.pull1 at h
  rcases hs : s.stack with _ | ⟨a, l⟩ <;> simp only [hs, refuse] at h
  · cases h; simp
  · split at h <;> cases h; simp

theorem pull2_eq_error {s : State} {e : Stop} (h : s.pull2 = .error e) :
    (e = .refuse .stackUnderflow ∧ s.stack.length < 2) ∨ (e = .refuse .oversizeItem ∧ 2 ≤ s.stack.length) := by
  unfold State.pull2 at h
  rcases hs : s.stack with _ | ⟨a, _ | ⟨b, l⟩⟩ <;> simp only [hs, refuse] at h
  · cases h; simp
  · cases h; simp
  · split at h <;> cases h; simp

theorem pull3_eq_error {s : State} {e : Stop} (h : s.pull3 = .error e) :
    (e = .refuse .stackUnderflow ∧ s.stack.length < 3) ∨ (e = .refuse .oversizeItem ∧ 3 ≤ s.stack.length) := by
  unfold State.pull3 at h
  rcases hs : s.stack with _ | ⟨a, _ | ⟨b, _ | ⟨c, l⟩⟩⟩ <;> simp only [hs, refuse] at h
  · cases h; simp
  · cases h; simp
  · cases h; simp
  · split at h <;> cases h; simp

theorem pull4_eq_error {s : State} {e : Stop} (h : s.pull4 = .error e) :
    (e = .refuse .stackUnderflow ∧ s.stack.length < 4) ∨ (e = .refuse .oversizeItem ∧ 4 ≤ s.stack.length) := by
  unfold State.pull4 at h
  rcases hs : s.stack with _ | ⟨a, _ | ⟨b, _ | ⟨c, _ | ⟨d, l⟩⟩⟩⟩ <;> simp only [hs, refuse] at h
  · cases h; simp
  · cases h; simp
  · cases h; simp
  · cases h; simp
  · split at h <;> cases h; simp

/-! ### The push -/

/-- A push completes exactly when the stack has room, with the stack and `pc` written (10_state.md R22, R23, R29). -/
theorem pushAdvance_eq_ok {s t : State} {rest : List Item} {v : Item} :
    s.pushAdvance rest v = .ok t ↔ s.roomFor (rest.length + 1) = true ∧ t = s.retire (v :: rest) := by
  unfold State.pushAdvance
  split_ifs with h <;> simp [h, eq_comm]

theorem pushAdvance_eq_error {s : State} {rest : List Item} {v : Item} {e : Stop}
    (h : s.pushAdvance rest v = .error e) : e = .refuse .stackOverflow ∧ s.roomFor (rest.length + 1) = false := by
  unfold State.pushAdvance at h
  split at h
  · cases h
  · cases h; simp_all

/-- Whether there is room depends on the configuration alone. -/
theorem roomFor_congr {s t : State} (h : s.config = t.config) (d : Nat) : s.roomFor d = t.roomFor d := by
  simp [State.roomFor, h]

@[simp] theorem roomFor_syncIf (s : State) (y : Bool) (k : SyncKind) (a : Int) (n d : Nat) :
    (s.syncIf y k a n).roomFor d = s.roomFor d := by cases y <;> rfl
@[simp] theorem roomFor_withBits (s : State) (a : Int) (v : Item) (d : Nat) :
    (s.withBits a v).roomFor d = s.roomFor d := rfl

/-! ### The synchronization gate -/

@[simp] theorem allowSync_false (s : State) : s.allowSync false = .ok () := rfl

theorem allowSync_eq_ok {s : State} {y : Bool} {u : Unit} :
    s.allowSync y = .ok u ↔ y = false ∨ s.config.agents ≠ .several := by
  unfold State.allowSync
  cases y <;> simp

theorem allowSync_eq_error {s : State} {y : Bool} {e : Stop} (h : s.allowSync y = .error e) :
    y = true ∧ s.config.agents = .several ∧ e = .refuse .synchronized := by
  unfold State.allowSync at h
  split at h
  · cases h; simp_all
  · cases h

/-! ### Integer operands -/

/-- The undecided band: zeros and a last 1 (10_state.md R26). -/
theorem undecidedBand_iff {v : Item} : undecidedBand v = true ↔ ∃ k, v = List.replicate k false ++ [true] := by
  unfold undecidedBand
  rcases List.eq_nil_or_concat v with rfl | ⟨w, b, rfl⟩
  · simp
  · simp only [List.concat_eq_append, List.getLast?_append, List.getLast?_singleton, List.dropLast_concat]
    constructor
    · intro h
      simp only [Bool.and_eq_true, List.all_eq_true, Bool.not_eq_true'] at h
      refine ⟨w.length, ?_⟩
      have hb : b = true := by simpa using h.1
      rw [hb, List.eq_replicate_iff.2 ⟨rfl, h.2⟩, List.length_replicate]
    · rintro ⟨k, h⟩
      obtain ⟨rfl, h⟩ := List.append_inj' h rfl
      simp_all

/-- Reading an integer operand: a number, null (none), or the refusal of an undecided reading (10_state.md R26). -/
theorem intArg_eq_ok {s : State} {v : Item} {n : Option Int} :
    s.intArg v = .ok n ↔
      (n = none ∧ intOf s.config.intFormat v = .null) ∨ ∃ z, n = some z ∧ intOf s.config.intFormat v = .int z := by
  unfold State.intArg
  cases h : intOf s.config.intFormat v <;> simp [refuse, eq_comm]

theorem intArg_eq_error {s : State} {v : Item} {e : Stop} (h : s.intArg v = .error e) :
    e = .refuse .undecidedInteger ∧ intOf s.config.intFormat v = .undecided := by
  unfold State.intArg at h
  split at h <;> cases h; exact ⟨rfl, ‹_›⟩

/-- An address operand is a number (20_memory.md R44). -/
theorem addressArg_eq_ok {s : State} {v : Item} {a : Int} :
    s.addressArg v = .ok a ↔ intOf s.config.intFormat v = .int a := by
  unfold State.addressArg State.intArg
  cases h : intOf s.config.intFormat v <;> simp [refuse]

/-- An address operand never raises. -/
theorem addressArg_eq_error {s : State} {v : Item} {e : Stop} (h : s.addressArg v = .error e) :
    (e = .refuse .undecidedInteger ∧ intOf s.config.intFormat v = .undecided) ∨
      (e = .refuse .nullAddress ∧ intOf s.config.intFormat v = .null) := by
  unfold State.addressArg State.intArg at h
  cases hi : intOf s.config.intFormat v <;> simp [hi, refuse] at h <;> subst h <;> simp

/-- A size operand is a number in 0…255 (00_scope.md R11). -/
theorem sizeArg_eq_ok {s : State} {v : Item} {n : Nat} :
    s.sizeArg v = .ok n ↔ n ≤ 255 ∧ intOf s.config.intFormat v = .int n := by
  unfold State.sizeArg State.intArg
  cases h : intOf s.config.intFormat v <;> simp [refuse, raise]
  split_ifs <;> simp <;> omega

theorem sizeArg_eq_error {s : State} {v : Item} {e : Stop} (h : s.sizeArg v = .error e) :
    (e = .refuse .undecidedInteger ∧ intOf s.config.intFormat v = .undecided) ∨
      (e = .raise ⟨.sizeRange, [none]⟩ ∧ intOf s.config.intFormat v = .null) ∨
      ∃ z, e = .raise ⟨.sizeRange, [some z]⟩ ∧ intOf s.config.intFormat v = .int z ∧ (z < 0 ∨ 255 < z) := by
  unfold State.sizeArg State.intArg at h
  cases hi : intOf s.config.intFormat v with
  | undecided => simp [hi, refuse] at h; simp [h]
  | null => simp [hi, raise] at h; simp [h]
  | int z =>
    simp only [hi, ok_bind] at h
    split at h
    · simp [raise] at h; exact .inr (.inr ⟨z, h.symm, rfl, ‹_›⟩)
    · cases h

theorem distanceArg_eq_ok {s : State} {v : Item} {d : Int} :
    s.distanceArg v = .ok d ↔ intOf s.config.intFormat v = .int d := by
  unfold State.distanceArg State.intArg
  cases h : intOf s.config.intFormat v <;> simp [refuse, raise]

theorem distanceArg_eq_error {s : State} {v : Item} {e : Stop} (h : s.distanceArg v = .error e) :
    (e = .refuse .undecidedInteger ∧ intOf s.config.intFormat v = .undecided) ∨
      (e = .raise ⟨.nullDistance, []⟩ ∧ intOf s.config.intFormat v = .null) := by
  unfold State.distanceArg State.intArg at h
  cases hi : intOf s.config.intFormat v <;> simp [hi, refuse, raise] at h <;> subst h <;> simp

theorem locationArg_eq_ok {s : State} {v : Item} {n : Int} :
    s.locationArg v = .ok n ↔ intOf s.config.intFormat v = .int n := by
  unfold State.locationArg State.intArg
  cases h : intOf s.config.intFormat v <;> simp [refuse, raise]

theorem locationArg_eq_error {s : State} {v : Item} {e : Stop} (h : s.locationArg v = .error e) :
    (e = .refuse .undecidedInteger ∧ intOf s.config.intFormat v = .undecided) ∨
      (e = .raise ⟨.locationRange, [none]⟩ ∧ intOf s.config.intFormat v = .null) := by
  unfold State.locationArg State.intArg at h
  cases hi : intOf s.config.intFormat v <;> simp [hi, refuse, raise] at h <;> subst h <;> simp

theorem rangedLocationArg_eq_ok {s : State} {v : Item} {n : Int} :
    s.rangedLocationArg v = .ok n ↔ (-255 ≤ n ∧ n ≤ 255) ∧ intOf s.config.intFormat v = .int n := by
  unfold State.rangedLocationArg
  simp only [bind_eq_ok, locationArg_eq_ok]
  constructor
  · rintro ⟨a, ha, h⟩
    split at h
    · cases h
    · cases h; exact ⟨by omega, ha⟩
  · rintro ⟨hn, h⟩
    exact ⟨n, h, by rw [if_neg (by omega)]⟩

theorem rangedLocationArg_eq_error {s : State} {v : Item} {e : Stop} (h : s.rangedLocationArg v = .error e) :
    (e = .refuse .undecidedInteger ∧ intOf s.config.intFormat v = .undecided) ∨
      (e = .raise ⟨.locationRange, [none]⟩ ∧ intOf s.config.intFormat v = .null) ∨
      ∃ z, e = .raise ⟨.locationRange, [some z]⟩ ∧ intOf s.config.intFormat v = .int z ∧ (z < -255 ∨ 255 < z) := by
  unfold State.rangedLocationArg at h
  rcases bind_eq_error.1 h with h | ⟨z, hz, h⟩
  · rcases locationArg_eq_error h with h | h
    · exact .inl h
    · exact .inr (.inl h)
  · split at h
    · simp [raise] at h; exact .inr (.inr ⟨z, h.symm, locationArg_eq_ok.1 hz, ‹_›⟩)
    · cases h

theorem startArg_eq_ok {s : State} {v : Item} {a : Int} :
    s.startArg v = .ok a ↔ intOf s.config.intFormat v = .int a := by
  unfold State.startArg State.intArg
  cases h : intOf s.config.intFormat v <;> simp [refuse, raise]

theorem startArg_eq_error {s : State} {v : Item} {e : Stop} (h : s.startArg v = .error e) :
    (e = .refuse .undecidedInteger ∧ intOf s.config.intFormat v = .undecided) ∨
      (e = .raise ⟨.extractRange, [none]⟩ ∧ intOf s.config.intFormat v = .null) := by
  unfold State.startArg State.intArg at h
  cases hi : intOf s.config.intFormat v <;> simp [hi, refuse, raise] at h <;> subst h <;> simp

end Sys2Proof.Machine
end

