-- ==== Sys2Proof/Laws/Families.lean ====
section
/-! SUPPORT. The shared operations of the families: for each, once, everything it can answer. -/

namespace Sys2Proof.Machine

/-! ### Get, Put, Get and conditional put -/

/-- The access of a Get completes exactly when its bits can be read and the stack has room: they are pushed (40_get.md R100). -/
theorem getStored_eq_ok {y : Bool} {a : Int} {n : Nat} {rest : List Item} {s t : State} :
    getStored y a n rest s = .ok t ↔
      ∃ v, s.memRead a n = .ok v ∧ s.roomFor (rest.length + 1) = true ∧ t = (s.syncIf y .get a n).retire (v :: rest) := by
  simp [getStored, bind_eq_ok, pushAdvance_eq_ok]

/-- The access of a Get that does not complete is refused. -/
theorem getStored_eq_error {y : Bool} {a : Int} {n : Nat} {rest : List Item} {s : State} {e : Stop}
    (h : getStored y a n rest s = .error e) : e = .refuse (.accessOutside a n) ∨ e = .refuse .stackOverflow := by
  rcases bind_eq_error.1 h with h | ⟨v, -, h⟩
  · exact .inl (memRead_eq_error h)
  · exact .inr (pushAdvance_eq_error h).1

/-- The access of a Put completes exactly when its addresses are valid: its data is stored and nothing pushed (41_put.md R120). -/
theorem putStored_eq_ok {y : Bool} {a : Int} {d : Item} {rest : List Item} {s t : State} :
    putStored y a d rest s = .ok t ↔
      s.genspaceValid a d.length = true ∧ t = ((s.syncIf y .put a d.length).withBits a d).retire rest := by
  simp only [putStored, bind_eq_ok, memWrite_eq_ok, genspaceValid_syncIf, Except.ok.injEq]
  constructor
  · rintro ⟨u, ⟨hv, rfl⟩, rfl⟩; exact ⟨hv, rfl⟩
  · rintro ⟨hv, rfl⟩; exact ⟨_, ⟨hv, rfl⟩, rfl⟩

theorem putStored_eq_error {y : Bool} {a : Int} {d : Item} {rest : List Item} {s : State} {e : Stop}
    (h : putStored y a d rest s = .error e) : e = .refuse (.accessOutside a d.length) := by
  rcases bind_eq_error.1 h with h | ⟨v, -, h⟩
  · exact memWrite_eq_error h
  · cases h

/-- A Get and conditional put completes exactly when its two strings have one size, its bits can be read, the write, if the
bits equal the old value, is valid, and the stack has room (42_get_and_put.md R130). -/
theorem getPutStored_eq_ok {y : Bool} {a : Int} {old new : Item} {rest : List Item} {s t : State} :
    getPutStored y a old new rest s = .ok t ↔
      old.length = new.length ∧ ∃ cur u, s.memRead a old.length = .ok cur ∧ s.roomFor (rest.length + 1) = true ∧
        (cur = old ∧ s.genspaceValid a new.length = true ∧ u = (s.syncIf y .getPut a old.length).withBits a new ∨
          cur ≠ old ∧ u = s.syncIf y .getPut a old.length) ∧
        t = u.retire (getPutItem s.config.getPutResult cur old new :: rest) := by
  unfold getPutStored
  by_cases hl : old.length = new.length
  · simp only [hl, ne_eq, not_true_eq_false, if_false, memRead_syncIf, bind_eq_ok, pushAdvance_eq_ok, true_and]
    refine exists_congr fun cur => ?_
    by_cases hc : cur = old
    · simp only [hc, if_true, memWrite_eq_ok, genspaceValid_syncIf, not_true_eq_false, false_and, or_false, true_and]
      constructor
      · rintro ⟨hm, u, ⟨hv, rfl⟩, hr, rfl⟩
        exact ⟨_, hm, by simpa using hr, ⟨hv, rfl⟩, rfl⟩
      · rintro ⟨u, hm, hr, ⟨hv, rfl⟩, rfl⟩
        exact ⟨hm, _, ⟨hv, rfl⟩, by simpa using hr, rfl⟩
    · simp only [hc, if_false, Except.ok.injEq, not_false_eq_true, false_and, false_or, true_and]
      constructor
      · rintro ⟨hm, u, rfl, hr, rfl⟩
        exact ⟨_, hm, by simpa using hr, rfl, rfl⟩
      · rintro ⟨u, hm, hr, rfl, rfl⟩
        exact ⟨hm, _, rfl, by simpa using hr, rfl⟩
  · simp [hl, raise]

theorem getPutStored_eq_error {y : Bool} {a : Int} {old new : Item} {rest : List Item} {s : State} {e : Stop}
    (h : getPutStored y a old new rest s = .error e) :
    (e = .raise ⟨.sizeMismatch, [some old.length, some new.length]⟩ ∧ old.length ≠ new.length) ∨
      e = .refuse (.accessOutside a old.length) ∨ e = .refuse .stackOverflow := by
  unfold getPutStored at h
  split at h
  · simp [raise] at h; exact .inl ⟨h.symm, ‹_›⟩
  · have hl : old.length = new.length := not_not.1 ‹_›
    rcases bind_eq_error.1 h with h | ⟨cur, -, h⟩
    · exact .inr (.inl (memRead_eq_error h))
    · rcases bind_eq_error.1 h with h | ⟨u, -, h⟩
      · split at h
        · exact .inr (.inl (hl ▸ memWrite_eq_error h))
        · cases h
      · exact .inr (.inr (pushAdvance_eq_error h).1)

/-! ### Circulate, Overwrite, Extract -/

@[simp] theorem length_fill (f : Bit) (n : Nat) : (fill f n).length = n := by simp [fill]

@[simp] theorem length_shift (v : Item) (d : Int) (f : Bit) : (shift v d f).length = v.length := by simp [shift]

@[simp] theorem length_rotate (v : Item) (d : Int) : (rotate v d).length = v.length := by simp [rotate]

@[simp] theorem length_resize (v : Item) (n : Nat) (f : Bit) : (resize v n f).length = n := by
  simp [resize]; omega

@[simp] theorem length_cmp6 (p q : Item) : (cmp6 p q).length = 6 := rfl

/-- A rotation completes exactly for a string that is not empty, with room on the stack (45_circulate.md R171). -/
theorem rotateOnto_eq_ok {rest : List Item} {v : Item} {d : Int} {s t : State} :
    rotateOnto rest v d s = .ok t ↔
      v ≠ [] ∧ s.roomFor (rest.length + 1) = true ∧ t = s.retire (rotate v d :: rest) := by
  unfold rotateOnto
  by_cases h : v = [] <;> simp [h, raise, pushAdvance_eq_ok]

theorem rotateOnto_eq_error {rest : List Item} {v : Item} {d : Int} {s : State} {e : Stop}
    (h : rotateOnto rest v d s = .error e) :
    (e = .raise ⟨.rotateEmpty, []⟩ ∧ v = []) ∨ e = .refuse .stackOverflow := by
  unfold rotateOnto at h
  split at h
  · simp [raise] at h; exact .inl ⟨h.symm, List.length_eq_zero_iff.1 ‹_›⟩
  · exact .inr (pushAdvance_eq_error h).1

/-- An overwrite completes exactly where the substring fits (46_overwrite.md R190). -/
theorem overwrite_eq_ok {sup sub r : Item} {n : Int} :
    overwrite sup sub n = .ok r ↔ (0 ≤ n ∧ n + sub.length ≤ sup.length) ∧ r = overwriteBits sup sub n.toNat := by
  unfold overwrite
  split_ifs with h <;> simp [h, raise, eq_comm]

theorem overwrite_eq_error {sup sub : Item} {n : Int} {e : Stop} (h : overwrite sup sub n = .error e) :
    e = .raise ⟨.noFit, [some n, some sub.length, some sup.length]⟩ ∧ ¬ (0 ≤ n ∧ n + sub.length ≤ sup.length) := by
  unfold overwrite at h
  split at h
  · cases h
  · simp [raise] at h; exact ⟨h.symm, ‹_›⟩

/-- An overwrite that fits keeps the size of the superstring. -/
theorem length_overwriteBits {sup sub : Item} {n : Nat} (h : n + sub.length ≤ sup.length) :
    (overwriteBits sup sub n).length = sup.length := by
  simp [overwriteBits]; omega

/-- An extract completes exactly where every requested bit is in the superstring (47_extract.md R210). -/
theorem extract_eq_ok {sup r : Item} {a : Int} {q : Nat} :
    extract sup a q = .ok r ↔ (0 ≤ a ∧ a + q ≤ sup.length) ∧ r = (sup.drop a.toNat).take q := by
  unfold extract
  split_ifs with h h' <;> simp [h, raise, refuse, eq_comm]

theorem extract_eq_error {sup : Item} {a : Int} {q : Nat} {e : Stop} (h : extract sup a q = .error e) :
    ¬ (0 ≤ a ∧ a + q ≤ sup.length) ∧
      ((q = 0 ∧ e = .refuse .undecidedExtract) ∨
        (q ≠ 0 ∧ e = .raise ⟨.extractRange, [some a, some q, some sup.length]⟩)) := by
  unfold extract at h
  split_ifs at h with h1 h2
  · simp [refuse] at h; exact ⟨h1, .inl ⟨h2, h.symm⟩⟩
  · simp [raise] at h; exact ⟨h1, .inr ⟨h2, h.symm⟩⟩

/-! ### Find -/

/-- The list of instances is answered unless overlapping ones are refused (48_find.md R220). -/
theorem occurrences_eq_ok {s : State} {sup sub : Item} {ps : List Nat} :
    s.occurrences sup sub = .ok ps ↔ (s.config.overlap = .refuse → overlapping sup sub = false) ∧ ps = occ sup sub := by
  unfold State.occurrences
  split_ifs with h
  · simp [refuse, h]
  · simp only [not_and, Bool.not_eq_true] at h
    simp only [Except.ok.injEq, eq_comm (a := occ sup sub)]
    exact ⟨fun e => ⟨h, e⟩, fun e => e.2⟩

theorem occurrences_eq_error {s : State} {sup sub : Item} {e : Stop} (h : s.occurrences sup sub = .error e) :
    e = .refuse .overlapUndecided ∧ s.config.overlap = .refuse ∧ overlapping sup sub = true := by
  unfold State.occurrences at h
  split_ifs at h with hc
  simp [refuse] at h; exact ⟨h.symm, hc⟩

/-- A bad `i` or `b` is refused or, under the setting `raise`, throws (48_find.md R221). -/
theorem badArgument_eq_error {c : FindBadArg} {sup sub : Item} {i b : Option Int} {e : Stop}
    (h : badArgument c sup sub i b = .error e) :
    (c = .refuse ∧ e = .refuse .findArgument) ∨ ∃ name, c = .raise name ∧ e = .raise ⟨name, [i, b]⟩ := by
  cases c with
  | refuse => cases h; exact .inl ⟨rfl, rfl⟩
  | raise name => cases h; exact .inr ⟨name, rfl, rfl⟩
  | uninterpreted => cases h

/-- A search that does not complete is refused, or throws where `FindBadArg` says so (48_find.md R221, 60_exceptions.md R260). -/
theorem locate_eq_error {s : State} {dir : Direction} {sup sub : Item} {i b : Option Int} {e : Stop}
    (h : s.locate dir sup sub i b = .error e) :
    e = .refuse .overlapUndecided ∨ (s.config.findBadArg = .refuse ∧ e = .refuse .findArgument) ∨
      ∃ name, s.config.findBadArg = .raise name ∧ e = .raise ⟨name, [i, b]⟩ := by
  unfold State.locate at h
  split at h
  · split at h
    · rcases bind_eq_error.1 h with h | ⟨ps, -, h⟩
      · exact .inl (occurrences_eq_error h).1
      · simp only at h
        split at h <;> cases h
    · exact .inr (badArgument_eq_error h)
  · exact .inr (badArgument_eq_error h)

@[simp] theorem length_clip (v : Item) : (clip v).length ≤ maxSize := by simp [clip]

/-- The item found at `p` is an instance: the bitwise reading of `occursAt` (R220). -/
theorem occursAt_iff {sup sub : Item} {p : Nat} :
    occursAt sup sub p = true ↔ p + sub.length ≤ sup.length ∧ ∀ k, k < sub.length → sup[p + k]? = sub[k]? := by
  unfold occursAt
  simp only [Bool.and_eq_true, decide_eq_true_eq, beq_iff_eq]
  refine and_congr_right fun hl => ⟨fun h k hk => ?_, fun h => List.ext_getElem? fun k => ?_⟩
  · have : ((sup.drop p).take sub.length)[k]? = sub[k]? := by rw [h]
    simpa [List.getElem?_take, hk] using this
  · by_cases hk : k < sub.length
    · simpa [List.getElem?_take, hk] using h k hk
    · simp [hk]

end Sys2Proof.Machine
end

