-- ==== Sys2Proof/Laws/PerInstr.lean ====
section
/-! SUPPORT. The statements made once per instruction. -/

namespace Sys2Proof.Laws

/-! ### Lengths of the encoded fields -/

@[simp] theorem length_bitsOfNat (k n : Nat) : (bitsOfNat k n).length = k := by
  induction k generalizing n with
  | zero => rfl
  | succ k ih => simp [bitsOfNat, ih]

@[simp] theorem length_u8Bits (u8 : BitVec 8) : (u8Bits u8).length = 8 := by simp [u8Bits]

@[simp] theorem length_signedBits (k : Nat) (z : Int) : (signedBits k z).length = k := by simp [signedBits]

@[simp] theorem length_zeros (k : Nat) : (zeros k).length = k := by simp [zeros]

@[simp] theorem length_nullBits (k : Nat) : (nullBits (k + 1)).length = k + 1 := by simp [nullBits]

/-- An embedded string shorter than its field fills the field (spec 30_encoding.md R66, R67). -/
theorem length_embeddedBits {k : Nat} {b : Item} (h : b.length < k) : (embeddedBits k b).length = k := by
  simp [embeddedBits]; omega

/-- Every instruction is encoded in 17 bits (R60). -/
def EncodesToSeventeenBits.Statement (i : Instr) : Prop := i.wf = true → (encode i).length = instrSize

theorem EncodesToSeventeenBits.sgE (b12 : Option Item) : EncodesToSeventeenBits.Statement (.sgE b12) := fun h => by
  cases b12 with
  | none => rfl
  | some b =>
    have : b.length < 12 := Nat.lt_succ_of_le (of_decide_eq_true h)
    simp [encode, length_embeddedBits this]

theorem EncodesToSeventeenBits.sgAE (u8 : BitVec 8) : EncodesToSeventeenBits.Statement (.sgAE u8) := fun _ => by
  simp [encode]

theorem EncodesToSeventeenBits.sgAR : EncodesToSeventeenBits.Statement .sgAR := fun _ => rfl

theorem EncodesToSeventeenBits.sgAEY (u8 : BitVec 8) : EncodesToSeventeenBits.Statement (.sgAEY u8) := fun _ => by
  simp [encode]

theorem EncodesToSeventeenBits.sgARY : EncodesToSeventeenBits.Statement .sgARY := fun _ => rfl

theorem EncodesToSeventeenBits.sgRO (s9 : Int) : EncodesToSeventeenBits.Statement (.sgRO s9) := fun _ => by
  simp [encode]

theorem EncodesToSeventeenBits.sgRS (u8 : BitVec 8) : EncodesToSeventeenBits.Statement (.sgRS u8) := fun _ => by
  simp [encode]

theorem EncodesToSeventeenBits.sgRR : EncodesToSeventeenBits.Statement .sgRR := fun _ => rfl

theorem EncodesToSeventeenBits.sgROY (s9 : Int) : EncodesToSeventeenBits.Statement (.sgROY s9) := fun _ => by
  simp [encode]

theorem EncodesToSeventeenBits.sgRSY (u8 : BitVec 8) : EncodesToSeventeenBits.Statement (.sgRSY u8) := fun _ => by
  simp [encode]

theorem EncodesToSeventeenBits.sgRRY : EncodesToSeventeenBits.Statement .sgRRY := fun _ => rfl

theorem EncodesToSeventeenBits.spA : EncodesToSeventeenBits.Statement .spA := fun _ => rfl

theorem EncodesToSeventeenBits.spAY : EncodesToSeventeenBits.Statement .spAY := fun _ => rfl

theorem EncodesToSeventeenBits.spRO (s9 : Int) : EncodesToSeventeenBits.Statement (.spRO s9) := fun _ => by
  simp [encode]

theorem EncodesToSeventeenBits.spRR : EncodesToSeventeenBits.Statement .spRR := fun _ => rfl

theorem EncodesToSeventeenBits.spROY (s9 : Int) : EncodesToSeventeenBits.Statement (.spROY s9) := fun _ => by
  simp [encode]

theorem EncodesToSeventeenBits.spRRY : EncodesToSeventeenBits.Statement .spRRY := fun _ => rfl

theorem EncodesToSeventeenBits.sgpA : EncodesToSeventeenBits.Statement .sgpA := fun _ => rfl

theorem EncodesToSeventeenBits.sgpAY : EncodesToSeventeenBits.Statement .sgpAY := fun _ => rfl

theorem EncodesToSeventeenBits.sgpRO (s9 : Int) : EncodesToSeventeenBits.Statement (.sgpRO s9) := fun _ => by
  simp [encode]

theorem EncodesToSeventeenBits.sgpRR : EncodesToSeventeenBits.Statement .sgpRR := fun _ => rfl

theorem EncodesToSeventeenBits.sgpROY (s9 : Int) : EncodesToSeventeenBits.Statement (.sgpROY s9) := fun _ => by
  simp [encode]

theorem EncodesToSeventeenBits.sgpRRY : EncodesToSeventeenBits.Statement .sgpRRY := fun _ => rfl

theorem EncodesToSeventeenBits.svE (b9 : Item) : EncodesToSeventeenBits.Statement (.svE b9) := fun h => by
  have : b9.length < 9 := Nat.lt_succ_of_le (of_decide_eq_true h)
  simp [encode, length_embeddedBits this]

theorem EncodesToSeventeenBits.svR : EncodesToSeventeenBits.Statement .svR := fun _ => rfl

theorem EncodesToSeventeenBits.smE0 (u8 : BitVec 8) : EncodesToSeventeenBits.Statement (.smE0 u8) := fun _ => by
  simp [encode]

theorem EncodesToSeventeenBits.smR0 : EncodesToSeventeenBits.Statement .smR0 := fun _ => rfl

theorem EncodesToSeventeenBits.smE1 (u8 : BitVec 8) : EncodesToSeventeenBits.Statement (.smE1 u8) := fun _ => by
  simp [encode]

theorem EncodesToSeventeenBits.smR1 : EncodesToSeventeenBits.Statement .smR1 := fun _ => rfl

theorem EncodesToSeventeenBits.smZ : EncodesToSeventeenBits.Statement .smZ := fun _ => rfl

theorem EncodesToSeventeenBits.igE (s12 : Int) : EncodesToSeventeenBits.Statement (.igE s12) := fun _ => by
  simp [encode]

theorem EncodesToSeventeenBits.srE0 (u8 : BitVec 8) : EncodesToSeventeenBits.Statement (.srE0 u8) := fun _ => by
  simp [encode]

theorem EncodesToSeventeenBits.srR0 : EncodesToSeventeenBits.Statement .srR0 := fun _ => rfl

theorem EncodesToSeventeenBits.srE1 (u8 : BitVec 8) : EncodesToSeventeenBits.Statement (.srE1 u8) := fun _ => by
  simp [encode]

theorem EncodesToSeventeenBits.srR1 : EncodesToSeventeenBits.Statement .srR1 := fun _ => rfl

theorem EncodesToSeventeenBits.scSE0 (s9 : Int) : EncodesToSeventeenBits.Statement (.scSE0 s9) := fun _ => by
  simp [encode]

theorem EncodesToSeventeenBits.scSR0 : EncodesToSeventeenBits.Statement .scSR0 := fun _ => rfl

theorem EncodesToSeventeenBits.scSE1 (s9 : Int) : EncodesToSeventeenBits.Statement (.scSE1 s9) := fun _ => by
  simp [encode]

theorem EncodesToSeventeenBits.scSR1 : EncodesToSeventeenBits.Statement .scSR1 := fun _ => rfl

theorem EncodesToSeventeenBits.scRE (s9 : Int) : EncodesToSeventeenBits.Statement (.scRE s9) := fun _ => by
  simp [encode]

theorem EncodesToSeventeenBits.scRR : EncodesToSeventeenBits.Statement .scRR := fun _ => rfl

theorem EncodesToSeventeenBits.scB : EncodesToSeventeenBits.Statement .scB := fun _ => rfl

theorem EncodesToSeventeenBits.soL (u8 : BitVec 8) : EncodesToSeventeenBits.Statement (.soL u8) := fun _ => by
  simp [encode]

theorem EncodesToSeventeenBits.soS (b9 : Item) : EncodesToSeventeenBits.Statement (.soS b9) := fun h => by
  have : b9.length < 9 := Nat.lt_succ_of_le (of_decide_eq_true h)
  simp [encode, length_embeddedBits this]

theorem EncodesToSeventeenBits.soR : EncodesToSeventeenBits.Statement .soR := fun _ => rfl

theorem EncodesToSeventeenBits.so0L (u8 : BitVec 8) : EncodesToSeventeenBits.Statement (.so0L u8) := fun _ => by
  simp [encode]

theorem EncodesToSeventeenBits.so0Q (u8 : BitVec 8) : EncodesToSeventeenBits.Statement (.so0Q u8) := fun _ => by
  simp [encode]

theorem EncodesToSeventeenBits.so0R : EncodesToSeventeenBits.Statement .so0R := fun _ => rfl

theorem EncodesToSeventeenBits.so1L (u8 : BitVec 8) : EncodesToSeventeenBits.Statement (.so1L u8) := fun _ => by
  simp [encode]

theorem EncodesToSeventeenBits.so1Q (u8 : BitVec 8) : EncodesToSeventeenBits.Statement (.so1Q u8) := fun _ => by
  simp [encode]

theorem EncodesToSeventeenBits.so1R : EncodesToSeventeenBits.Statement .so1R := fun _ => rfl

theorem EncodesToSeventeenBits.seA (u8 : BitVec 8) : EncodesToSeventeenBits.Statement (.seA u8) := fun _ => by
  simp [encode]

theorem EncodesToSeventeenBits.seS (u8 : BitVec 8) : EncodesToSeventeenBits.Statement (.seS u8) := fun _ => by
  simp [encode]

theorem EncodesToSeventeenBits.seR : EncodesToSeventeenBits.Statement .seR := fun _ => rfl

theorem EncodesToSeventeenBits.sfIR (u8 : BitVec 8) : EncodesToSeventeenBits.Statement (.sfIR u8) := fun _ => by
  simp [encode]

theorem EncodesToSeventeenBits.sfBR (u8 : BitVec 8) : EncodesToSeventeenBits.Statement (.sfBR u8) := fun _ => by
  simp [encode]

theorem EncodesToSeventeenBits.sfSR (b9 : Item) : EncodesToSeventeenBits.Statement (.sfSR b9) := fun h => by
  have : b9.length < 9 := Nat.lt_succ_of_le (of_decide_eq_true h)
  simp [encode, length_embeddedBits this]

theorem EncodesToSeventeenBits.sfRR : EncodesToSeventeenBits.Statement .sfRR := fun _ => rfl

theorem EncodesToSeventeenBits.sfIL (u8 : BitVec 8) : EncodesToSeventeenBits.Statement (.sfIL u8) := fun _ => by
  simp [encode]

theorem EncodesToSeventeenBits.sfBL (u8 : BitVec 8) : EncodesToSeventeenBits.Statement (.sfBL u8) := fun _ => by
  simp [encode]

theorem EncodesToSeventeenBits.sfSL (b9 : Item) : EncodesToSeventeenBits.Statement (.sfSL b9) := fun h => by
  have : b9.length < 9 := Nat.lt_succ_of_le (of_decide_eq_true h)
  simp [encode, length_embeddedBits this]

theorem EncodesToSeventeenBits.sfRL : EncodesToSeventeenBits.Statement .sfRL := fun _ => rfl

theorem EncodesToSeventeenBits.sfQE (b9 : Item) : EncodesToSeventeenBits.Statement (.sfQE b9) := fun h => by
  have : b9.length < 9 := Nat.lt_succ_of_le (of_decide_eq_true h)
  simp [encode, length_embeddedBits this]

theorem EncodesToSeventeenBits.sfQR : EncodesToSeventeenBits.Statement .sfQR := fun _ => rfl

theorem EncodesToSeventeenBits.sj : EncodesToSeventeenBits.Statement .sj := fun _ => rfl

theorem EncodesToSeventeenBits.sbN : EncodesToSeventeenBits.Statement .sbN := fun _ => rfl

theorem EncodesToSeventeenBits.sbO (b0 b1 b2 b3 : Bit) : EncodesToSeventeenBits.Statement (.sbO b0 b1 b2 b3) := fun _ => by
  simp [encode]

end Sys2Proof.Laws
end

