-- ==== Sys2Proof/Tests/Slice0.lean ====
section
/-! SUPPORT. Tests: expected words, states and outcomes are the vectors of spec 95_test_vectors.md (the V numbers are its
own) and the examples of the families' rules; and one witness for each statement with hypotheses. -/

namespace Sys2Proof.Tests

open Machine

/-! ## Helpers -/

/-- The `n` decimal digits of `d`, the leftmost first, as bits: `bits 4 1011` is the string `"1011"`. -/
def bits : Nat → Nat → Item
  | 0, _ => []
  | n + 1, d => bits n (d / 10) ++ [d % 10 == 1]

/-- A start state: `pc`, the stack, and `v` in genspace from `a` up. -/
def launch (pc : Int) (stack : List Item) (a : Int) (v : Item) : State :=
  { State.reset with pc := pc, stack := stack, genspace := Memory.write [] a v }

/-- The instruction completed with this stack and `pc`. -/
def completes (o : Host.Outcome State Fault Refusal) (stack : List Item) (pc : Int) : Bool :=
  match o with
  | .next t => t.thrown == none && t.stack == stack && t.pc == pc
  | _ => false

/-- It completed, and genspace holds `v` at `a`. -/
def completesStoring (o : Host.Outcome State Fault Refusal) (stack : List Item) (pc a : Int) (v : Item) : Bool :=
  match o with
  | .next t => completes o stack pc && t.genspace.read a v.length == some v
  | _ => false

/-- It threw this, and nothing else changed. -/
def throwsOnly (o : Host.Outcome State Fault Refusal) (s : State) (e : Thrown) : Bool :=
  match o with
  | .next t => t == s.throw e
  | _ => false

/-- It was refused so. -/
def refuses (o : Host.Outcome State Fault Refusal) (r : Refusal) : Bool :=
  match o with
  | .refused q => q == r
  | _ => false

/-! ## WellFormed: each check refuses what its field cannot hold -/

theorem wf_refuses_escape_size :
    [Instr.sgAE 0, .sgAEY 0, .sgRS 0, .sgRSY 0, .smE0 0, .smE1 0, .srE0 0, .srE1 0, .so0Q 0, .so1Q 0, .seS 0].all
      (fun i => !i.wf) = true := by decide

theorem wf_refuses_s9_above :
    [Instr.sgRO 256, .sgROY 256, .spRO 256, .spROY 256, .sgpRO 256, .sgpROY 256, .scSE0 256, .scSE1 256, .scRE 256].all
      (fun i => !i.wf) = true := by decide

theorem wf_refuses_s9_below : (Instr.scRE (-256)).wf = false := by decide

theorem wf_refuses_s12 : (Instr.igE 2048).wf = false ∧ (Instr.igE (-2048)).wf = false := by decide

theorem wf_refuses_nine_bits :
    [Instr.svE (bits 9 0), .soS (bits 9 0), .sfSR (bits 9 0), .sfSL (bits 9 0), .sfQE (bits 9 0)].all
      (fun i => !i.wf) = true := by decide

theorem wf_refuses_twelve_bits : (Instr.sgE (some (bits 12 0))).wf = false := by decide

theorem wf_accepts_bounds :
    [Instr.sgAE 1, .smE0 255, .sgRO (-255), .scRE 255, .igE (-2047), .svE [], .sfQE (bits 8 0), .sgE none,
      .sgE (some (bits 11 0)), .sfIR 0].all (fun i => i.wf) = true := by decide

/-! ## Decoding: a word of the spec for every instruction, `w[0]` first -/

theorem decodes_sgE : decode (bits 17 10110000000010001) = .ok (.sgE (some (bits 3 101))) := by decide

theorem decodes_sgAE : decode (bits 17 00010000000101101) = .ok (.sgAE 8) := by decide

theorem decodes_sgAR : decode (bits 17 00000000000101101) = .ok .sgAR := by decide

theorem decodes_sgAEY : decode (bits 17 00010000100101101) = .ok (.sgAEY 8) := by decide

theorem decodes_sgARY : decode (bits 17 00000000100101101) = .ok .sgARY := by decide

theorem decodes_sgRO : decode (bits 17 11110111101101101) = .ok (.sgRO (-17)) := by decide

theorem decodes_sgRS : decode (bits 17 00100000010101101) = .ok (.sgRS 4) := by decide

theorem decodes_sgRR : decode (bits 17 00000000010101101) = .ok .sgRR := by decide

theorem decodes_sgROY : decode (bits 17 11110000011101101) = .ok (.sgROY 15) := by decide

theorem decodes_sgRSY : decode (bits 17 00100000110101101) = .ok (.sgRSY 4) := by decide

theorem decodes_sgRRY : decode (bits 17 00000000110101101) = .ok .sgRRY := by decide

theorem decodes_spA : decode (bits 17 00000000000011101) = .ok .spA := by decide

theorem decodes_spAY : decode (bits 17 00000000100011101) = .ok .spAY := by decide

theorem decodes_spRO : decode (bits 17 01000010001011101) = .ok (.spRO 66) := by decide

theorem decodes_spRR : decode (bits 17 00000000010011101) = .ok .spRR := by decide

theorem decodes_spROY : decode (bits 17 01000010011011101) = .ok (.spROY 66) := by decide

theorem decodes_spRRY : decode (bits 17 00000000110011101) = .ok .spRRY := by decide

theorem decodes_sgpA : decode (bits 17 00000000000111101) = .ok .sgpA := by decide

theorem decodes_sgpAY : decode (bits 17 00000000100111101) = .ok .sgpAY := by decide

theorem decodes_sgpRO : decode (bits 17 10101001001111101) = .ok (.sgpRO 149) := by decide

theorem decodes_sgpRR : decode (bits 17 00000000010111101) = .ok .sgpRR := by decide

theorem decodes_sgpROY : decode (bits 17 10101001011111101) = .ok (.sgpROY 149) := by decide

theorem decodes_sgpRRY : decode (bits 17 00000000110111101) = .ok .sgpRRY := by decide

theorem decodes_svE : decode (bits 17 10110100011110101) = .ok (.svE (bits 5 10110)) := by decide

theorem decodes_svR : decode (bits 17 00000000011110101) = .ok .svR := by decide

theorem decodes_smE0 : decode (bits 17 11100000000000101) = .ok (.smE0 7) := by decide

theorem decodes_smR0 : decode (bits 17 00000000000000101) = .ok .smR0 := by decide

theorem decodes_smE1 : decode (bits 17 00010000100000101) = .ok (.smE1 8) := by decide

theorem decodes_smR1 : decode (bits 17 00000000100000101) = .ok .smR1 := by decide

theorem decodes_smZ : decode (bits 17 00000000000101001) = .ok .smZ := by decide

theorem decodes_srE0 : decode (bits 17 01100000010000101) = .ok (.srE0 6) := by decide

theorem decodes_srR0 : decode (bits 17 00000000010000101) = .ok .srR0 := by decide

theorem decodes_srE1 : decode (bits 17 01100000110000101) = .ok (.srE1 6) := by decide

theorem decodes_srR1 : decode (bits 17 00000000110000101) = .ok .srR1 := by decide

theorem decodes_scSE0 : decode (bits 17 10000000110110101) = .ok (.scSE0 (-255)) := by decide

theorem decodes_scSR0 : decode (bits 17 00000000110110101) = .ok .scSR0 := by decide

theorem decodes_scSE1 : decode (bits 17 10111111100110101) = .ok (.scSE1 (-3)) := by decide

theorem decodes_scSR1 : decode (bits 17 00000000100110101) = .ok .scSR1 := by decide

theorem decodes_scRE : decode (bits 17 10111111101110101) = .ok (.scRE (-3)) := by decide

theorem decodes_scRR : decode (bits 17 00000000101110101) = .ok .scRR := by decide

theorem decodes_scB : decode (bits 17 00000011000100101) = .ok .scB := by decide

theorem decodes_soL : decode (bits 17 01000000100100101) = .ok (.soL 2) := by decide

theorem decodes_soS : decode (bits 17 11110000010010101) = .ok (.soS (bits 3 111)) := by decide

theorem decodes_soR : decode (bits 17 00000000010010101) = .ok .soR := by decide

theorem decodes_so0L : decode (bits 17 01000000001100101) = .ok (.so0L 2) := by decide

theorem decodes_so0Q : decode (bits 17 11000000101100101) = .ok (.so0Q 3) := by decide

theorem decodes_so0R : decode (bits 17 00000000101100101) = .ok .so0R := by decide

theorem decodes_so1L : decode (bits 17 01000000011100101) = .ok (.so1L 2) := by decide

theorem decodes_so1Q : decode (bits 17 11000000111100101) = .ok (.so1Q 3) := by decide

theorem decodes_so1R : decode (bits 17 00000000111100101) = .ok .so1R := by decide

theorem decodes_seA : decode (bits 17 01000000010100101) = .ok (.seA 2) := by decide

theorem decodes_seS : decode (bits 17 00100000110100101) = .ok (.seS 4) := by decide

theorem decodes_seR : decode (bits 17 00000000110100101) = .ok .seR := by decide

theorem decodes_sfIR : decode (bits 17 10000000111000101) = .ok (.sfIR 1) := by decide

theorem decodes_sfBR : decode (bits 17 11000000011000101) = .ok (.sfBR 3) := by decide

theorem decodes_sfSR : decode (bits 17 01010000011010101) = .ok (.sfSR (bits 3 010)) := by decide

theorem decodes_sfRR : decode (bits 17 00000000011010101) = .ok .sfRR := by decide

theorem decodes_sfIL : decode (bits 17 00000000101000101) = .ok (.sfIL 0) := by decide

theorem decodes_sfBL : decode (bits 17 01100000001000101) = .ok (.sfBL 6) := by decide

theorem decodes_sfSL : decode (bits 17 01010000001010101) = .ok (.sfSL (bits 3 010)) := by decide

theorem decodes_sfRL : decode (bits 17 00000000001010101) = .ok .sfRL := by decide

theorem decodes_sfQE : decode (bits 17 10000000000010101) = .ok (.sfQE []) := by decide

theorem decodes_sfQR : decode (bits 17 00000000000010101) = .ok .sfQR := by decide

theorem decodes_sj : decode (bits 17 00000001000100101) = .ok .sj := by decide

theorem decodes_sbN : decode (bits 17 00000010000100101) = .ok .sbN := by decide

theorem decodes_sbO : decode (bits 17 01100000000100101) = .ok (.sbO false true true false) := by decide

theorem decodes_igE : decode (bits 17 11100000000101001) = .ok (.igE (-2041)) := by decide

/-- The zero offset and the zero distance are values, not escapes. -/
theorem decodes_zero_values :
    decode (bits 17 00000000001101101) = .ok (.sgRO 0) ∧ decode (bits 17 00000000010110101) = .ok (.scSE0 0) := by decide

/-- The second patterns of the register forms, and `?` bits that are 1. -/
theorem decodes_second_words :
    decode (bits 17 00000000101011101) = .ok .spRR ∧ decode (bits 17 00000000111011101) = .ok .spRRY ∧
    decode (bits 17 00000000101111101) = .ok .sgpRR ∧ decode (bits 17 00000000111111101) = .ok .sgpRRY ∧
    decode (bits 17 11111101000100101) = .ok .sj ∧ decode (bits 17 01101100000100101) = .ok (.sbO false true true false) := by
  decide

theorem decode_refuses :
    decode (bits 17 00000000000011001) = .error .notAStringInstruction ∧
    decode (bits 17 00000000000000001) = .error .notAStringInstruction ∧
    decode (bits 17 00000000000000100) = .error .notAStringInstruction ∧
    decode (bits 17 00000000000001101) = .error .notAStringInstruction ∧
    decode (bits 17 00000000101101101) = .error .unassignedEncoding ∧
    decode (bits 17 10000000000011101) = .error .unassignedEncoding ∧
    decode (bits 17 10000000000111101) = .error .unassignedEncoding := by
  decide

/-- The table's number of a word has `w[0]` as bit 0. -/
theorem decodes_table_word : decodeTableWord 24 0x11FFF = some (.sgE (some (bits 11 11111111111))) := by decide

/-! ## Instructions: the vectors of the spec, at most two each -/

/-- SG_E with `b12` all zeros (40_get.md R101). -/
theorem test_sgE_throws : throwsOnly (exec (.sgE none) State.reset) State.reset ⟨.emptyEmbedded, []⟩ = true := by decide

/-- IG_E pushes `enc(100)` (30_encoding.md R77; the encoding is the one the spec tabulates). -/
theorem test_igE : completes (exec (.igE 100) State.reset) [bits 8 00100110] 17 = true := by decide

theorem test_sgE_V1 :
    completes (exec (.sgE (some (bits 3 101))) (launch 0 [] 0 [])) [bits 3 101] 17 = true := by decide

theorem test_sgAE_V2 :
    completes (exec (.sgAE 8)
      (launch 0 [bits 8 00100110] 100 (bits 8 11111111))) [bits 8 11111111] 17
      = true := by decide

theorem test_sgAR_V4 :
    completes (exec .sgAR (launch 0 [bits 8 00100110, bits 3 110] 100 (bits 3 011))) [bits 3 011] 17
      = true := by decide

theorem test_sgAR_V6 :
    throwsOnly (exec .sgAR (launch 0 [bits 8 00100110, bits 10 0000000010] 100 (bits 3 011)))
      (launch 0 [bits 8 00100110, bits 10 0000000010] 100 (bits 3 011)) ⟨.sizeRange, [some 256]⟩
      = true := by decide

theorem test_sgAEY_V10 :
    completes (exec (.sgAEY 8)
      (launch 0 [bits 8 00100110] 100 (bits 8 11111111))) [bits 8 11111111] 17
      = true := by decide

theorem test_sgARY_V11 :
    completes (exec .sgARY (launch 0 [bits 8 00100110, bits 3 110] 100 (bits 3 011))) [bits 3 011] 17
      = true := by decide

theorem test_sgRO_V12 :
    completes (exec (.sgRO 15)
      (launch 68 [bits 5 00010] 100 (bits 8 10110001))) [bits 8 10110001] 85
      = true := by decide

theorem test_sgRS_V16 :
    completes (exec (.sgRS 4) (launch 0 [bits 9 111011010] 200 (bits 4 1001))) [bits 4 1001] 17 = true := by decide

theorem test_sgRS_V17 :
    completes (exec (.sgRS 4) (launch 100 [bits 8 11010001] 0 (bits 4 0110))) [bits 4 0110] 117 = true := by decide

theorem test_sgRR_V18 :
    completes (exec .sgRR (launch 0 [bits 9 111011010, bits 4 0010] 200 (bits 4 1001))) [bits 4 1001] 17
      = true := by decide

theorem test_sgROY_V19 :
    completes (exec (.sgROY 15)
      (launch 68 [bits 5 00010] 100 (bits 8 10110001))) [bits 8 10110001] 85
      = true := by decide

theorem test_sgRSY_V20 :
    completes (exec (.sgRSY 4) (launch 0 [bits 9 111011010] 200 (bits 4 1001))) [bits 4 1001] 17 = true := by decide

theorem test_sgRRY_V21 :
    completes (exec .sgRRY (launch 0 [bits 9 111011010, bits 4 0010] 200 (bits 4 1001))) [bits 4 1001] 17
      = true := by decide

theorem test_spA_V22 :
    completesStoring (exec .spA (launch 0 [bits 9 000100110, bits 4 1011] 200 (bits 4 0000))) [] 17 200 (bits 4 1011)
      = true := by decide

theorem test_spAY_V26 :
    completesStoring (exec .spAY (launch 0 [bits 9 000100110, bits 4 1011] 200 (bits 4 0000))) [] 17 200 (bits 4 1011)
      = true := by decide

theorem test_spRO_V27 :
    completesStoring (exec (.spRO 66)
      (launch 17 [bits 8 11111111] 100 (bits 8 00000000))) [] 34 100 (bits 8 11111111)
      = true := by decide

theorem test_spRR_V28 :
    completesStoring (exec .spRR (launch 0 [bits 9 111011010, bits 4 1011] 200 (bits 4 0000))) [] 17 200 (bits 4 1011)
      = true := by decide

theorem test_spROY_V30 :
    completesStoring (exec (.spROY 66)
      (launch 17 [bits 8 11111111] 100 (bits 8 00000000))) [] 34 100 (bits 8 11111111)
      = true := by decide

theorem test_spRRY_V31 :
    completesStoring (exec .spRRY (launch 0 [bits 9 111011010, bits 4 1011] 200 (bits 4 0000))) [] 17 200 (bits 4 1011)
      = true := by decide

theorem test_sgpA_V32 :
    completesStoring (exec .sgpA (launch 0 [bits 9 000100110, bits 4 0000, bits 4 1111] 200 (bits 4 0000))) [bits 4 0000] 17 200 (bits 4 1111)
      = true := by decide

theorem test_sgpA_V33 :
    completesStoring (exec .sgpA (launch 0 [bits 9 000100110, bits 4 0000, bits 4 1111] 200 (bits 4 1010))) [bits 4 1010] 17 200 (bits 4 1010)
      = true := by decide

theorem test_sgpAY_V36 :
    completesStoring (exec .sgpAY (launch 0 [bits 9 000100110, bits 4 0000, bits 4 1111] 200 (bits 4 0000))) [bits 4 0000] 17 200 (bits 4 1111)
      = true := by decide

theorem test_sgpRO_V37 :
    completesStoring (exec (.sgpRO 149)
      (launch 34 [bits 4 0000, bits 4 1111] 200 (bits 4 0000))) [bits 4 0000] 51 200 (bits 4 1111)
      = true := by decide

theorem test_sgpRO_V38 :
    completesStoring (exec (.sgpRO 149)
      (launch 34 [bits 4 0000, bits 4 1111] 200 (bits 4 1010))) [bits 4 1010] 51 200 (bits 4 1010)
      = true := by decide

theorem test_sgpRR_V41 :
    completesStoring (exec .sgpRR (launch 0 [bits 9 111011010, bits 4 0000, bits 4 1111] 200 (bits 4 0000))) [bits 4 0000] 17 200 (bits 4 1111)
      = true := by decide

theorem test_sgpROY_V43 :
    completesStoring (exec (.sgpROY 149)
      (launch 34 [bits 4 0000, bits 4 1111] 200 (bits 4 0000))) [bits 4 0000] 51 200 (bits 4 1111)
      = true := by decide

theorem test_sgpRRY_V44 :
    completesStoring (exec .sgpRRY (launch 0 [bits 9 111011010, bits 4 0000, bits 4 1111] 200 (bits 4 0000))) [bits 4 0000] 17 200 (bits 4 1111)
      = true := by decide

theorem test_svE_V46 :
    completes (exec (.svE (bits 5 10110)) (launch 0 [bits 4 1011] 0 [])) [bits 6 011010] 17 = true := by decide

theorem test_svE_V47 :
    completes (exec (.svE (bits 5 10110)) (launch 0 [bits 2 11] 0 [])) [bits 6 101001] 17 = true := by decide

theorem test_svR_V49 :
    completes (exec .svR (launch 0 [bits 2 10, bits 3 101] 0 [])) [bits 6 011010] 17 = true := by decide

theorem test_svR_V52 :
    completes (exec .svR (launch 0 [bits 1 1, bits 4 0111] 0 [])) [bits 6 101001] 17 = true := by decide

theorem test_smE0_V53 : completes (exec (.smE0 7) (launch 0 [] 0 [])) [bits 7 0000000] 17 = true := by decide

theorem test_smR0_V55 : completes (exec .smR0 (launch 0 [bits 3 110] 0 [])) [bits 3 000] 17 = true := by decide

theorem test_smR0_V57 :
    throwsOnly (exec .smR0 (launch 0 [bits 10 0000000010] 0 []))
      (launch 0 [bits 10 0000000010] 0 []) ⟨.sizeRange, [some 256]⟩
      = true := by decide

theorem test_smE1_V62 : completes (exec (.smE1 8) (launch 0 [] 0 [])) [bits 8 11111111] 17 = true := by decide

theorem test_smR1_V63 : completes (exec .smR1 (launch 0 [bits 3 110] 0 [])) [bits 3 111] 17 = true := by decide

theorem test_smZ_V65 : completes (exec .smZ (launch 0 [bits 1 1] 0 [])) [[], bits 1 1] 17 = true := by decide

theorem test_srE0_V66 :
    completes (exec (.srE0 6) (launch 0 [bits 4 1011] 0 [])) [bits 6 101100] 17 = true := by decide

theorem test_srE0_V67 : completes (exec (.srE0 2) (launch 0 [bits 4 1011] 0 [])) [bits 2 10] 17 = true := by decide

theorem test_srR0_V70 :
    completes (exec .srR0 (launch 0 [bits 4 1011, bits 3 010] 0 [])) [bits 2 10] 17 = true := by decide

theorem test_srR0_V72 :
    throwsOnly (exec .srR0 (launch 0 [bits 4 1011, bits 10 0000000010] 0 []))
      (launch 0 [bits 4 1011, bits 10 0000000010] 0 []) ⟨.sizeRange, [some 256]⟩
      = true := by decide

theorem test_srE1_V73 :
    completes (exec (.srE1 6) (launch 0 [bits 4 1011] 0 [])) [bits 6 101111] 17 = true := by decide

theorem test_srE1_V74 : completes (exec (.srE1 2) (launch 0 [bits 4 1011] 0 [])) [bits 2 10] 17 = true := by decide

theorem test_srR1_V75 : completes (exec .srR1 (launch 0 [[], bits 3 110] 0 [])) [bits 3 111] 17 = true := by decide

theorem test_scSE0_V77 :
    completes (exec (.scSE0 (-3)) (launch 0 [bits 8 11001010] 0 [])) [bits 8 01010000] 17 = true := by decide

theorem test_scSR0_V82 :
    completes (exec .scSR0 (launch 0 [bits 4 1011, bits 4 0010] 0 [])) [bits 4 0000] 17 = true := by decide

theorem test_scSR0_V83 :
    throwsOnly (exec .scSR0 (launch 0 [bits 4 1011, []] 0 []))
      (launch 0 [bits 4 1011, []] 0 []) ⟨.nullDistance, []⟩
      = true := by decide

theorem test_scSE1_V88 :
    completes (exec (.scSE1 1) (launch 0 [bits 4 0000] 0 [])) [bits 4 1000] 17 = true := by decide

theorem test_scSE1_V89 :
    completes (exec (.scSE1 (-3)) (launch 0 [bits 8 11001010] 0 [])) [bits 8 01010111] 17 = true := by decide

theorem test_scSR1_V90 :
    completes (exec .scSR1 (launch 0 [bits 4 1011, bits 5 11101] 0 [])) [bits 4 1111] 17 = true := by decide

theorem test_scSR1_V91 :
    completes (exec .scSR1 (launch 0 [bits 4 0000, bits 2 11] 0 [])) [bits 4 0001] 17 = true := by decide

theorem test_scRE_V92 :
    completes (exec (.scRE 3) (launch 0 [bits 8 11001010] 0 [])) [bits 8 01011001] 17 = true := by decide

theorem test_scRE_V96 :
    throwsOnly (exec (.scRE 1) (launch 0 [[]] 0 [])) (launch 0 [[]] 0 []) ⟨.rotateEmpty, []⟩ = true := by decide

theorem test_scRR_V98 :
    completes (exec .scRR (launch 0 [bits 4 1000, bits 4 1010] 0 [])) [bits 4 0100] 17 = true := by decide

theorem test_scRR_V101 :
    throwsOnly (exec .scRR (launch 0 [[], []] 0 [])) (launch 0 [[], []] 0 []) ⟨.nullDistance, []⟩ = true := by decide

theorem test_scB_V103 : completes (exec .scB (launch 0 [bits 5 01101] 0 [])) [bits 5 10110] 17 = true := by decide

theorem test_soL_V105 :
    completes (exec (.soL 2) (launch 0 [bits 8 00000000, bits 3 111] 0 [])) [bits 8 00111000] 17 = true := by decide

theorem test_soL_V106 :
    throwsOnly (exec (.soL 6)
      (launch 0 [bits 8 00000000, bits 3 111] 0 []))
      (launch 0 [bits 8 00000000, bits 3 111] 0 []) ⟨.noFit, [some 6, some 3, some 8]⟩
      = true := by decide

theorem test_soS_V111 :
    completes (exec (.soS (bits 3 111))
      (launch 0 [bits 8 00000000, bits 4 1010] 0 [])) [bits 8 00000111] 17
      = true := by decide

theorem test_soS_V115 :
    throwsOnly (exec (.soS (bits 3 111))
      (launch 0 [bits 8 00000000, []] 0 []))
      (launch 0 [bits 8 00000000, []] 0 []) ⟨.locationRange, [none]⟩
      = true := by decide

theorem test_soR_V116 :
    completes (exec .soR (launch 0 [bits 8 11111111, bits 3 000, bits 1 0] 0 [])) [bits 8 00011111] 17
      = true := by decide

theorem test_soR_V117 :
    throwsOnly (exec .soR (launch 0 [bits 8 11111111, bits 3 000, bits 10 0000000011] 0 []))
      (launch 0 [bits 8 11111111, bits 3 000, bits 10 0000000011] 0 []) ⟨.locationRange, [some (-256)]⟩
      = true := by decide

theorem test_so0L_V118 :
    completes (exec (.so0L 2) (launch 0 [bits 8 11111111, bits 3 110] 0 [])) [bits 8 11000111] 17 = true := by decide

theorem test_so0L_V119 :
    throwsOnly (exec (.so0L 2)
      (launch 0 [bits 8 11111111, bits 4 1110] 0 []))
      (launch 0 [bits 8 11111111, bits 4 1110] 0 []) ⟨.noFit, [some 2, some 7, some 8]⟩
      = true := by decide

theorem test_so0Q_V122 :
    completes (exec (.so0Q 3) (launch 0 [bits 8 11111111, bits 3 010] 0 [])) [bits 8 11000111] 17 = true := by decide

theorem test_so0Q_V123 :
    throwsOnly (exec (.so0Q 3)
      (launch 0 [bits 8 11111111, bits 10 0011010010] 0 []))
      (launch 0 [bits 8 11111111, bits 10 0011010010] 0 []) ⟨.noFit, [some 300, some 3, some 8]⟩
      = true := by decide

theorem test_so0R_V125 :
    completes (exec .so0R (launch 0 [bits 8 11111111, bits 3 010, bits 3 110] 0 [])) [bits 8 11000111] 17
      = true := by decide

theorem test_so1L_V127 :
    completes (exec (.so1L 2) (launch 0 [bits 8 00000000, bits 3 110] 0 [])) [bits 8 00111000] 17 = true := by decide

theorem test_so1Q_V128 :
    completes (exec (.so1Q 3) (launch 0 [bits 8 00000000, bits 4 1010] 0 [])) [bits 8 00000111] 17 = true := by decide

theorem test_so1R_V130 :
    completes (exec .so1R (launch 0 [bits 8 00000000, bits 3 010, bits 3 110] 0 [])) [bits 8 00111000] 17
      = true := by decide

theorem test_seA_V131 :
    completes (exec (.seA 2) (launch 0 [bits 8 11001010, bits 4 0010] 0 [])) [bits 4 0010] 17 = true := by decide

theorem test_seA_V132 :
    throwsOnly (exec (.seA 2)
      (launch 0 [bits 8 11001010, bits 4 1110] 0 []))
      (launch 0 [bits 8 11001010, bits 4 1110] 0 []) ⟨.extractRange, [some 2, some 7, some 8]⟩
      = true := by decide

theorem test_seS_V137 :
    completes (exec (.seS 4) (launch 0 [bits 8 11001010, bits 3 010] 0 [])) [bits 4 0010] 17 = true := by decide

theorem test_seS_V140 :
    throwsOnly (exec (.seS 4)
      (launch 0 [bits 8 11001010, []] 0 []))
      (launch 0 [bits 8 11001010, []] 0 []) ⟨.extractRange, [none]⟩
      = true := by decide

theorem test_seR_V142 :
    completes (exec .seR (launch 0 [bits 8 11001010, bits 4 0110, bits 3 010] 0 [])) [bits 2 10] 17
      = true := by decide

theorem test_seR_V143 :
    throwsOnly (exec .seR (launch 0 [bits 8 11001010, bits 4 0110, bits 3 110] 0 []))
      (launch 0 [bits 8 11001010, bits 4 0110, bits 3 110] 0 []) ⟨.extractRange, [some 6, some 3, some 8]⟩
      = true := by decide

theorem test_sfIR_V146 :
    completes (exec (.sfIR 1)
      (launch 0 [bits 7 0101010, bits 3 010, bits 1 0] 0 [])) [bits 3 010] 17
      = true := by decide

theorem test_sfBR_V147 :
    completes (exec (.sfBR 3)
      (launch 0 [bits 7 0101010, bits 3 010, bits 1 0] 0 [])) [bits 4 0010] 17
      = true := by decide

theorem test_sfSR_V148 :
    completes (exec (.sfSR (bits 3 010))
      (launch 0 [bits 7 0101010, bits 1 0, bits 2 10] 0 [])) [bits 3 010] 17
      = true := by decide

theorem test_sfRR_V149 :
    completes (exec .sfRR (launch 0 [bits 2 10, bits 3 101, bits 1 0, bits 1 0] 0 [])) [[]] 17 = true := by decide

theorem test_sfIL_V150 :
    completes (exec (.sfIL 0)
      (launch 0 [bits 7 0101010, bits 3 010, bits 4 0110] 0 [])) [bits 4 0010] 17
      = true := by decide

theorem test_sfBL_V151 :
    completes (exec (.sfBL 6)
      (launch 0 [bits 7 0101010, bits 3 010, bits 2 10] 0 [])) [bits 3 010] 17
      = true := by decide

theorem test_sfSL_V152 :
    completes (exec (.sfSL (bits 3 010))
      (launch 0 [bits 7 0101010, bits 1 0, bits 3 110] 0 [])) [bits 3 010] 17
      = true := by decide

theorem test_sfRL_V153 :
    completes (exec .sfRL (launch 0 [bits 3 111, bits 2 11, bits 1 0, bits 3 010] 0 [])) [bits 2 10] 17
      = true := by decide

theorem test_sfQE_V154 :
    completes (exec (.sfQE []) (launch 0 [bits 7 0000000] 0 [])) [bits 5 00010] 17 = true := by decide

theorem test_sfQE_V155 :
    completes (exec (.sfQE (bits 3 010)) (launch 0 [bits 7 0101010] 0 [])) [bits 3 110] 17 = true := by decide

theorem test_sfQR_V158 : completes (exec .sfQR (launch 0 [bits 4 1101, []] 0 [])) [bits 4 1010] 17 = true := by decide

theorem test_sfQR_V160 :
    completes (exec .sfQR (launch 0 [bits 4 1111, bits 2 11] 0 [])) [bits 3 110] 17 = true := by decide

theorem test_sj_V162 :
    completes (exec .sj (launch 0 [bits 2 01, bits 3 101] 0 [])) [bits 5 01101] 17 = true := by decide

theorem test_sj_V165 :
    throwsOnly (exec .sj (launch 0 [List.replicate 200 true, List.replicate 56 false] 0 []))
      (launch 0 [List.replicate 200 true, List.replicate 56 false] 0 []) ⟨.sizeRange, [some 256]⟩
      = true := by decide +kernel

theorem test_sbN_V166 : completes (exec .sbN (launch 0 [bits 4 1011] 0 [])) [bits 4 0100] 17 = true := by decide

theorem test_sbO_V168 :
    completes (exec (.sbO false true true false)
      (launch 0 [bits 4 0011, bits 4 0101] 0 [])) [bits 4 0110] 17
      = true := by decide

theorem test_sbO_V173 :
    throwsOnly (exec (.sbO false true true false)
      (launch 0 [bits 4 0011, bits 3 010] 0 []))
      (launch 0 [bits 4 0011, bits 3 010] 0 []) ⟨.sizeMismatch, [some 4, some 3]⟩
      = true := by decide

/-! ## The step -/

/-- A synchronized form logs its event (20_memory.md R47). -/
theorem test_sync_event : ∃ t, exec (.sgAEY 8) (launch 0 [bits 8 00100110] 100 (bits 8 11111111)) = .next t ∧
    t.log = [⟨.get, 100, 8⟩] := ⟨_, rfl, rfl⟩

/-- The instruction at `pc` is fetched and run; the word is V1's. -/
theorem test_step : completes (step (launch 0 [] 0 (bits 17 10110000000010001))) [bits 3 101] 17 = true := by decide

/-- The table word of V1 is the first instruction after reset. -/
theorem test_withFetchWord : completes (step (State.reset.withFetchWord 24 0x1100D)) [bits 3 101] 17 = true := by decide

/-- With nothing placed, the first fetch after reset is refused. -/
theorem test_reset_step : refuses (step State.reset) (.fetchOutside 0) = true := by decide

/-! ## Witnesses: a state and operands that meet the hypotheses of each statement -/

/-- `"00010"`, the integer 8. -/
abbrev eight : Item := bits 5 00010

/-- The same state under another configuration. -/
def under (c : Config) (s : State) : State := { s with config := c }

/-- Several agents. -/
def several : Config := { Config.recommended with agents := .several }

/-- A stack of at most `n` items. -/
def depth (n : Nat) : Config := { Config.recommended with stackDepth := some n }

theorem allowed (y : Bool) (pc : Int) (st : List Item) (a : Int) (v : Item) : SyncAllowed (launch pc st a v) y := fun _ => rfl

/-- Nothing can be read where genspace holds no value. -/
theorem not_holds {s : State} {a : Int} {n : Nat} (hn : 0 < n) (h : s.genspace.readBit a = none) (v : Item)
    (hv : v.length = n) : ¬ Holds s a v := by
  intro hh
  have := hh.2 0 (by omega)
  simp [h] at this

theorem witness_DecodeEncodeAgree :
    (Instr.sgRO (-255)).wf = true ∧ (Instr.igE 2047).wf = true ∧ (Instr.sgE (some (bits 11 11111111111))).wf = true ∧
    (Instr.smE0 255).wf = true ∧ (Instr.sfQE []).wf = true := by decide

theorem witness_DecodedInstructionsAreWellFormed : decode (bits 17 10000000110110101) = .ok (.scSE0 (-255)) := by decide

theorem witness_EncodeDecodeGivesTheWord :
    (bits 17 10000000110110101).length = instrSize ∧ decode (bits 17 10000000110110101) = .ok (.scSE0 (-255)) ∧
    hasSeveralWords (.scSE0 (-255)) = false := by decide

/-- One word for each clause of R74. -/
theorem witness_UnassignedWordsRefused :
    (let w := bits 17 00000000000000100
     ¬ (wbit w 14 = false ∧ wbit w 15 = false ∧ wbit w 16 = true) ∧
       ¬ (wbit w 14 = true ∧ wbit w 15 = false ∧ wbit w 16 = true)) ∧
    (let w := bits 17 00000000000011001
     wbit w 14 = false ∧ wbit w 15 = false ∧ wbit w 16 = true ∧ wbit w 12 = wbit w 13) ∧
    (let w := bits 17 00000000000001101
     wbit w 13 = true ∧ wbit w 14 = true ∧ wbit w 15 = false ∧ wbit w 16 = true ∧ wbit w 11 = false ∧ wbit w 12 = false) ∧
    (let w := bits 17 00000000101101101
     wbit w 13 = true ∧ wbit w 14 = true ∧ wbit w 15 = false ∧ wbit w 16 = true ∧ wbit w 11 = true ∧ wbit w 12 = false ∧
       wbit w 10 = true ∧ s9Of w = none) ∧
    (let w := bits 17 10000000000011101
     wbit w 13 = true ∧ wbit w 14 = true ∧ wbit w 15 = false ∧ wbit w 16 = true ∧ wbit w 12 = true ∧ wbit w 10 = false ∧
       u8Of w ≠ 0) ∧
    (let w := bits 17 00000000000000101
     wbit w 13 = false ∧ wbit w 14 = true ∧ wbit w 15 = false ∧ wbit w 16 = true) := by decide

/-- The shortest and the longest embedded string, and a field that is not all zeros. -/
theorem witness_EmbeddedStringFields :
    ([] : Item).length < 1 ∧ (bits 8 11111111).length < 9 ∧ bits 9 000000001 ≠ List.replicate (bits 9 000000001).length false ∧
    (bits 11 00000000000).length ≤ 11 ∧ (bits 8 11111111).length ≤ 8 ∧
    bits 9 111111111 = bits 8 11111111 ++ true :: List.replicate (8 - (bits 8 11111111).length) false := by decide

theorem witness_NumericFields :
    bits 8 10000000 ≠ List.replicate (bits 8 10000000).length false ∧ bits 9 100000001 ≠ [] ∧
    signedOf (bits 9 100000001) = some (-255) ∧ signedOf (bits 9 111111110) = some 255 := by decide

/-- The state of `witness_StepRunsDecodedInstruction`. -/
def fetching (w : Item) : State := launch (-5) [] (-5) w

theorem witness_StepRunsDecodedInstruction :
    (fetching (bits 17 00000000000101001)).thrown = none ∧
    ¬ Complete (fetching (bits 17 00000000000101001)) ∧
    Holds (fetching (bits 17 00000000000101001)) (-5) (bits 17 00000000000101001) ∧
    decode (bits 17 00000000000101001) = .ok .smZ :=
  ⟨rfl, by simp [Complete, fetching, launch, State.reset, Config.recommended], ⟨by decide, by decide⟩, by decide⟩

theorem witness_FetchWordRunsNext : decodeTableWord 24 0x12800 = some .smZ := by decide

/-- No value at `pc`; a word outside the chapter at `pc`; an unassigned one. -/
theorem witness_StepRefusesFetch :
    (State.reset.thrown = none ∧ ¬ Complete State.reset ∧
      ∀ w : Item, w.length = instrSize → ¬ Holds State.reset State.reset.pc w) ∧
    (Holds (fetching (bits 17 00000000000000001)) (-5) (bits 17 00000000000000001) ∧
      decode (bits 17 00000000000000001) = .error .notAStringInstruction) ∧
    (Holds (fetching (bits 17 00000000101101101)) (-5) (bits 17 00000000101101101) ∧
      decode (bits 17 00000000101101101) = .error .unassignedEncoding) :=
  ⟨⟨rfl, by simp [Complete, State.reset, Config.recommended], not_holds (by decide) rfl⟩, ⟨⟨by decide, by decide⟩, by decide⟩, ⟨by decide, by decide⟩, by decide⟩

/-- A thrown state under each setting of `ThrowEffect`, and a complete one. -/
theorem witness_ThrownStopsAndCompleteStays :
    (State.reset.throw ⟨.sizeRange, [none]⟩).thrown = some ⟨.sizeRange, [none]⟩ ∧
    (State.reset.throw ⟨.sizeRange, [none]⟩).config.throwEffect = .unset ∧
    (under { Config.recommended with throwEffect := .uninterpreted } (State.reset.throw ⟨.sizeRange, [none]⟩)).thrown
      = some ⟨.sizeRange, [none]⟩ ∧
    (under { Config.recommended with throwEffect := .uninterpreted } (State.reset.throw ⟨.sizeRange, [none]⟩)).config.throwEffect
      = .uninterpreted ∧
    Complete (under { Config.recommended with endOfRun := some 0 } State.reset) := ⟨rfl, rfl, rfl, rfl, rfl, rfl, rfl⟩

/-- A word with values is at `pc`, and the stack is at its depth after the step. -/
theorem witness_StepKeepsInv :
    Inv (under (depth 1) (fetching (bits 17 00000000000101001))) ∧
    ∃ t, step (under (depth 1) (fetching (bits 17 00000000000101001))) = .next t :=
  ⟨⟨by simp [StackSized, under, fetching, launch], by rfl, by decide, fun _ _ => rfl, by
    intro v h; simp only [under, depth, Config.recommended, FindNotFound.item.injEq] at h; subst h; decide,
    fun h => absurd rfl h⟩, ⟨_, rfl⟩⟩

/-- An instruction that completes and one that throws. -/
theorem witness_ExecCompletesOrThrows :
    (∃ t, exec .sj (launch 0 [bits 2 01, bits 3 101] 0 []) = .next t) ∧
    ∃ t, exec .smR0 (launch 0 [[]] 0 []) = .next t := ⟨⟨_, rfl⟩, ⟨_, rfl⟩⟩

/-- A `FindBadArg` set to throw. -/
def throwing : Config := { Config.recommended with findBadArg := .raise .sizeRange }

/-- An instruction of the table, and a search with a null start under a `FindBadArg` set to throw. -/
theorem witness_OnlyListedExceptions :
    ((launch 0 [[]] 0 []).thrown = none ∧
      ∃ t e, exec .smR0 (launch 0 [[]] 0 []) = .next t ∧ t.thrown = some e) ∧
    (under throwing (launch 0 [[], [], []] 0 [])).thrown = none ∧
      ∃ t e, exec (.sfIR 0) (under throwing (launch 0 [[], [], []] 0 [])) = .next t ∧ t.thrown = some e :=
  ⟨⟨rfl, _, _, rfl, rfl⟩, rfl, _, _, rfl, rfl⟩

theorem witness_OnlyPutsWriteGenspace :
    isPut .smZ = false ∧ isGetPut .smZ = false ∧ ∃ t, exec .smZ (launch 0 [] 0 eight) = .next t := ⟨rfl, rfl, _, rfl⟩

theorem witness_SynchronizedFormIsPlainTwin :
    plainTwin .sgpRRY = some .sgpRR ∧ State.reset.config.agents = .one := ⟨rfl, rfl⟩

/-- A plain instruction, and a synchronized one that completes. -/
theorem witness_OnlySynchronizedFormsLog :
    (plainTwin .smZ = none ∧ ∃ t, exec .smZ State.reset = .next t) ∧
    (plainTwin (.spROY 0) = some (.spRO 0) ∧ ∃ t, exec (.spROY 0) (launch 0 [eight] 0 []) = .next t) :=
  ⟨⟨rfl, _, rfl⟩, rfl, _, rfl⟩

theorem witness_SeveralAgentsRefuseSynchronized :
    plainTwin (.sgROY 0) = some (.sgRO 0) ∧ (under several (launch 0 [eight] 0 [])).config.agents = .several ∧
    Pulled (under several (launch 0 [eight] 0 [])) [eight] [] ∧ [eight].length = pulls (.sgROY 0) :=
  ⟨rfl, rfl, ⟨rfl, by decide⟩, rfl⟩

/-- One item too few for the instruction that pulls most. -/
theorem witness_UnderflowComesFirst : (launch 0 [[], [], []] 0 []).stack.length < pulls .sfRR := by decide

/-- An item of 256 bits, the largest a register has, below another operand. -/
theorem witness_OversizeOperandRefused :
    pulls .sj ≤ (launch 0 [[], List.replicate 256 true] 0 []).stack.length ∧
    List.replicate 256 true ∈ (launch 0 [[], List.replicate 256 true] 0 []).stack.take (pulls .sj) ∧
    ¬ fits (List.replicate 256 true) := ⟨by decide, List.mem_cons_of_mem _ (List.mem_cons_self ..), by
    rw [fits, List.length_replicate]; decide⟩

theorem witness_FullStackRefusesPush :
    pulls .smZ = 0 ∧ Instr.smZ ≠ .sgE none ∧ ¬ CanPush (under (depth 0) State.reset) (under (depth 0) State.reset).stack :=
  ⟨rfl, by decide, by simp [CanPush, under, depth, State.roomFor, State.reset]⟩

/-- The non-negative addresses as a setting: 0 is one, −1 is not. -/
theorem witness_GenspaceValidBitByBit :
    (∀ r ∈ [Region.everywhere, .atLeast 0, .atMost 0, .range 0 5, .uninterpreted],
      (under { Config.recommended with extent := [r] } State.reset).config.extent = [r]) ∧
    (under { Config.recommended with extent := [.atLeast 0] } State.reset).genspaceValid 0 1 = true ∧
    (under { Config.recommended with extent := [.atLeast 0] } State.reset).genspaceValid (-1) 1 = false ∧
    (under { Config.recommended with extent := [.atLeast 5, .atMost 3] } State.reset).config.extent =
      (under { Config.recommended with extent := [.atLeast 5] } State.reset).config.extent ++
        (under { Config.recommended with extent := [.atMost 3] } State.reset).config.extent :=
  ⟨fun _ _ => rfl, by decide, by decide, rfl⟩

/-- Bits that hold values, and bits that do not. -/
theorem witness_MemReadGivesTheBits :
    Holds (launch 0 [] (-3) eight) (-3) eight ∧ ∀ v : Item, v.length = 1 → ¬ Holds (launch 0 [] (-3) eight) 2 v :=
  ⟨⟨by decide, by decide⟩, not_holds (by decide) rfl⟩

/-- A valid range in canonical genspace, and a range one bit too long. -/
theorem witness_MemWriteStoresTheBits :
    (under { Config.recommended with extent := [.range 0 5] } State.reset).genspaceValid 0 eight.length = true ∧
    (under { Config.recommended with extent := [.range 0 5] } State.reset).genspace.wf ∧
    (under { Config.recommended with extent := [.range 0 5] } State.reset).genspaceValid 1 eight.length = false := by decide

theorem witness_PutThenGetReturnsTheData :
    Pulled (launch 0 [eight, bits 2 10, eight, bits 3 010] 0 []) [eight, bits 2 10, eight, bits 3 010] [] ∧
    ReadsAs (launch 0 [eight, bits 2 10, eight, bits 3 010] 0 []) eight 8 ∧
    ReadsAs (launch 0 [eight, bits 2 10, eight, bits 3 010] 0 []) (bits 3 010) (bits 2 10).length ∧
    (launch 0 [eight, bits 2 10, eight, bits 3 010] 0 []).genspaceValid 8 (bits 2 10).length = true ∧
    CanPush (launch 0 [eight, bits 2 10, eight, bits 3 010] 0 []) [] :=
  ⟨⟨rfl, by decide⟩, rfl, rfl, rfl, rfl⟩

theorem witness_IntegerReading :
    bits 2 10 ≠ List.replicate (bits 2 10).length false ∧ IntFormat.freeEncode ≠ .uninterpreted := by decide

/-- A negative number whose shortest form is one bit longer than the undecided band's, and the bounds of the pushed integers. -/
theorem witness_IntegerEncoding :
    intOf .recommended (bits 3 011) = .int (-2) ∧ (-2047 : Int) ≤ -2047 ∧ (2047 : Int) ≤ 2047 := by decide

/-- Shorter, of one size and longer; an address in both and one only in the new string. -/
theorem witness_ResizeRule :
    (255 ≤ 255) ∧ (4 < (bits 5 10110).length ∧ 4 < 255) ∧ ((bits 5 10110).length ≤ 254 ∧ 254 < 255) ∧
    (5 = (bits 5 10110).length) ∧ 0 < (bits 5 10110).length := by decide

/-- An address whose bit comes from the string, one that is filled, and the distances the rule names. -/
theorem witness_ShiftRule :
    (2 < (bits 3 110).length ∧ 0 ≤ ((2 : Nat) : Int) - 2 ∧ ((2 : Nat) : Int) - 2 < (bits 3 110).length) ∧
    (1 < (bits 3 110).length ∧ ¬ (0 ≤ ((1 : Nat) : Int) - 2 ∧ ((1 : Nat) : Int) - 2 < (bits 3 110).length)) ∧
    (0 < (bits 3 110).length ∧ 0 ≤ ((0 : Nat) : Int) + 2 ∧ ((0 : Nat) : Int) + 2 < (bits 3 110).length) ∧
    (bits 3 110).length ≤ (-3 : Int).natAbs := by decide

theorem witness_RotateRule :
    bits 1 1 ≠ [] ∧ 0 < (bits 1 1).length ∧ Pulled (launch 0 [[]] 0 []) [[]] [] ∧
    Pulled (launch 0 [[], eight] 0 []) [[], eight] [] ∧ ReadsAs (launch 0 [[], eight] 0 []) eight 8 :=
  ⟨by decide, by decide, ⟨rfl, by decide⟩, ⟨rfl, by decide⟩, rfl⟩

/-- A string of several bits, and the empty one. -/
theorem witness_ReverseCompletes :
    Pulled (launch 0 [bits 5 01101] 0 []) [bits 5 01101] [] ∧ CanPush (launch 0 [bits 5 01101] 0 []) [] ∧
    Pulled (launch 0 [[]] 0 []) [[]] [] ∧ 4 < (bits 5 01101).length := ⟨⟨rfl, by decide⟩, rfl, ⟨rfl, by decide⟩, by decide⟩

theorem witness_CirculateKeepsSize :
    isCirculate .scB = true ∧ (launch 0 [bits 5 01101] 0 []).stack = bits 5 01101 :: [] ∧
    ∃ t, exec .scB (launch 0 [bits 5 01101] 0 []) = .next t ∧ t.pc = (launch 0 [bits 5 01101] 0 []).pc + 17 :=
  ⟨rfl, rfl, _, rfl, rfl⟩

/-- The last location that fits, and the first that does not. -/
theorem witness_OverwriteRule :
    ((0 : Int) ≤ 5 ∧ (5 : Int) + (bits 3 111).length ≤ (bits 8 00000000).length) ∧
    ¬ ((0 : Int) ≤ 6 ∧ (6 : Int) + (bits 3 111).length ≤ (bits 8 00000000).length) ∧
    ¬ ((0 : Int) ≤ -1 ∧ (-1 : Int) + (bits 3 111).length ≤ (bits 8 00000000).length) := by decide

/-- The last start that fits, the first that does not, and a zero-bit extract beyond the end. -/
theorem witness_ExtractRule :
    ((0 : Int) ≤ 6 ∧ (6 : Int) + (2 : Nat) ≤ (bits 8 11001010).length) ∧
    ¬ ((0 : Int) ≤ 6 ∧ (6 : Int) + (3 : Nat) ≤ (bits 8 11001010).length) ∧
    ¬ ((0 : Int) ≤ 9 ∧ (9 : Int) + (0 : Nat) ≤ (bits 8 11001010).length) := by decide

/-- A difference at the first and at the last common address, either way, and a prefix either way. -/
theorem witness_ComparisonRule :
    ((∀ j, j < 0 → (bits 2 11)[j]? = (bits 5 01110)[j]?) ∧ (bits 2 11)[0]? = some true ∧ (bits 5 01110)[0]? = some false) ∧
    ((∀ j, j < 1 → (bits 2 10)[j]? = (bits 2 11)[j]?) ∧ (bits 2 10)[1]? = some false ∧ (bits 2 11)[1]? = some true) ∧
    ((∀ j, j < min (bits 3 101).length (bits 2 10).length → (bits 3 101)[j]? = (bits 2 10)[j]?) ∧
      (bits 2 10).length < (bits 3 101).length) ∧
    ((∀ j, j < min ([] : Item).length (bits 1 0).length → ([] : Item)[j]? = (bits 1 0)[j]?) ∧
      ([] : Item).length < (bits 1 0).length) := by decide

/-- Room for exactly one more item. -/
theorem witness_ManufacturedStringsPushed :
    CanPush (under (depth 2) (launch 0 [eight] 0 [])) (under (depth 2) (launch 0 [eight] 0 [])).stack := rfl

/-! ### Get, Put, Get and conditional put: one state for all forms -/

/-- `pc + 17` is 0, so that the offset 8 and the address 8 name the same bits, and those hold eight values. -/
def memoryState (stack : List Item) : State := launch (-17) stack 8 (bits 8 10110001)

theorem memoryState_holds (stack : List Item) : Holds (memoryState stack) 8 (bits 8 10110001) :=
  ⟨rfl, (by decide : ∀ k, (h : k < (bits 8 10110001).length) →
    Memory.readBit (Memory.write [] 8 (bits 8 10110001)) (8 + (k : Nat)) = some (bits 8 10110001)[k])⟩

theorem memoryState_valid (stack : List Item) (n : Nat) : (memoryState stack).genspaceValid 8 n = true :=
  genspaceValid_iff.2 fun _ _ => rfl

theorem memoryState_pulled (xs rest : List Item) (h : ∀ v ∈ xs, fits v) : Pulled (memoryState (xs ++ rest)) xs rest := ⟨rfl, h⟩

theorem memoryState_reads (stack : List Item) : ReadsAs (memoryState stack) eight 8 :=
  (by decide : intOf .recommended eight = .int 8)

/-- All ten forms read the same eight bits; `CanPush`, `SyncAllowed` and `Holds` are met. -/
theorem witness_GetReadsGenspace :
    (∀ stack rest y, Holds (memoryState stack) 8 (bits 8 10110001) ∧ CanPush (memoryState stack) rest ∧
      SyncAllowed (memoryState stack) y) ∧
    GetOperands (memoryState [eight]) [] (.sgAE 8) false 8 (bits 8 10110001).length ∧
    GetOperands (memoryState [eight]) [] (.sgAEY 8) true 8 (bits 8 10110001).length ∧
    GetOperands (memoryState [eight, eight]) [] .sgAR false 8 (bits 8 10110001).length ∧
    GetOperands (memoryState [eight, eight]) [] .sgARY true 8 (bits 8 10110001).length ∧
    GetOperands (memoryState [eight]) [] (.sgRO 8) false 8 (bits 8 10110001).length ∧
    GetOperands (memoryState [eight]) [] (.sgROY 8) true 8 (bits 8 10110001).length ∧
    GetOperands (memoryState [eight]) [] (.sgRS 8) false 8 (bits 8 10110001).length ∧
    GetOperands (memoryState [eight]) [] (.sgRSY 8) true 8 (bits 8 10110001).length ∧
    GetOperands (memoryState [eight, eight]) [] .sgRR false 8 (bits 8 10110001).length ∧
    GetOperands (memoryState [eight, eight]) [] .sgRRY true 8 (bits 8 10110001).length :=
  have p1 : Pulled (memoryState [eight]) [eight] [] := memoryState_pulled [eight] [] (by decide)
  have p2 : Pulled (memoryState [eight, eight]) [eight, eight] [] := memoryState_pulled [eight, eight] [] (by decide)
  ⟨fun stack _ _ => ⟨memoryState_holds stack, rfl, fun _ => rfl⟩,
    .sgAE (u8 := 8) p1 (memoryState_reads _), .sgAEY (u8 := 8) p1 (memoryState_reads _),
    .sgAR (n := 8) p2 (memoryState_reads _) (memoryState_reads _) (by decide),
    .sgARY (n := 8) p2 (memoryState_reads _) (memoryState_reads _) (by decide),
    .sgRO (s9 := 8) (n := 8) p1 (memoryState_reads _) (by decide),
    .sgROY (s9 := 8) (n := 8) p1 (memoryState_reads _) (by decide),
    .sgRS (u8 := 8) (o := 8) p1 (memoryState_reads _), .sgRSY (u8 := 8) (o := 8) p1 (memoryState_reads _),
    .sgRR (o := 8) (n := 8) p2 (memoryState_reads _) (memoryState_reads _) (by decide),
    .sgRRY (o := 8) (n := 8) p2 (memoryState_reads _) (memoryState_reads _) (by decide)⟩

/-- The bounds of a requested size, 0 and 255. -/
theorem witness_GetOperands_bounds :
    GetOperands (memoryState [eight, bits 1 0]) [] .sgAR false 8 0 ∧
    GetOperands (memoryState [eight, bits 9 111111110]) [] .sgAR false 8 255 :=
  ⟨.sgAR (n := 0) (memoryState_pulled [eight, bits 1 0] [] (by decide)) (memoryState_reads _)
      (by decide : intOf .recommended (bits 1 0) = .int 0) (by decide),
    .sgAR (n := 255) (memoryState_pulled [eight, bits 9 111111110] [] (by decide)) (memoryState_reads _)
      (by decide : intOf .recommended (bits 9 111111110) = .int 255) (by decide)⟩

/-- All six forms store the string `"01"` at 8. -/
theorem witness_PutWritesGenspace :
    (∀ stack y, (memoryState stack).genspaceValid 8 (bits 2 01).length = true ∧ SyncAllowed (memoryState stack) y) ∧
    PutOperands (memoryState [eight, bits 2 01]) [] .spA false 8 (bits 2 01) ∧
    PutOperands (memoryState [eight, bits 2 01]) [] .spAY true 8 (bits 2 01) ∧
    PutOperands (memoryState [bits 2 01]) [] (.spRO 8) false 8 (bits 2 01) ∧
    PutOperands (memoryState [bits 2 01]) [] (.spROY 8) true 8 (bits 2 01) ∧
    PutOperands (memoryState [eight, bits 2 01]) [] .spRR false 8 (bits 2 01) ∧
    PutOperands (memoryState [eight, bits 2 01]) [] .spRRY true 8 (bits 2 01) :=
  have p1 : Pulled (memoryState [bits 2 01]) [bits 2 01] [] := memoryState_pulled [bits 2 01] [] (by decide)
  have p2 : Pulled (memoryState [eight, bits 2 01]) [eight, bits 2 01] [] :=
    memoryState_pulled [eight, bits 2 01] [] (by decide)
  ⟨fun stack _ => ⟨memoryState_valid stack _, fun _ => rfl⟩,
    .spA p2 (memoryState_reads _), .spAY p2 (memoryState_reads _), .spRO (s9 := 8) p1, .spROY (s9 := 8) p1,
    .spRR (o := 8) p2 (memoryState_reads _), .spRRY (o := 8) p2 (memoryState_reads _)⟩

/-- All six forms, once with the old value that genspace holds and once with another. -/
theorem witness_GetPutComparesAndWrites :
    (∀ stack rest y, Holds (memoryState stack) 8 (bits 8 10110001) ∧ CanPush (memoryState stack) rest ∧
      SyncAllowed (memoryState stack) y) ∧
    ∀ old ∈ [bits 8 10110001, bits 8 00000000], old.length = (bits 8 11111111).length ∧ (bits 8 10110001).length = old.length ∧
      GetPutOperands (memoryState [eight, old, bits 8 11111111]) [] .sgpA false 8 old (bits 8 11111111) ∧
      GetPutOperands (memoryState [eight, old, bits 8 11111111]) [] .sgpAY true 8 old (bits 8 11111111) ∧
      GetPutOperands (memoryState [old, bits 8 11111111]) [] (.sgpRO 8) false 8 old (bits 8 11111111) ∧
      GetPutOperands (memoryState [old, bits 8 11111111]) [] (.sgpROY 8) true 8 old (bits 8 11111111) ∧
      GetPutOperands (memoryState [eight, old, bits 8 11111111]) [] .sgpRR false 8 old (bits 8 11111111) ∧
      GetPutOperands (memoryState [eight, old, bits 8 11111111]) [] .sgpRRY true 8 old (bits 8 11111111) := by
  refine ⟨fun stack _ _ => ⟨memoryState_holds stack, rfl, fun _ => rfl⟩, fun old ho => ?_⟩
  have hl : old.length = 8 := by
    simp only [List.mem_cons, List.not_mem_nil, or_false] at ho
    rcases ho with rfl | rfl <;> rfl
  have hf : fits old := by rw [fits, hl]; decide
  have p2 : Pulled (memoryState [old, bits 8 11111111]) [old, bits 8 11111111] [] :=
    memoryState_pulled [old, bits 8 11111111] [] (by
      intro v hv
      simp only [List.mem_cons, List.not_mem_nil, or_false] at hv
      rcases hv with rfl | rfl
      · exact hf
      · decide)
  have p3 : Pulled (memoryState [eight, old, bits 8 11111111]) [eight, old, bits 8 11111111] [] :=
    memoryState_pulled [eight, old, bits 8 11111111] [] (by
      intro v hv
      simp only [List.mem_cons, List.not_mem_nil, or_false] at hv
      rcases hv with rfl | rfl | rfl
      · decide
      · exact hf
      · decide)
  exact ⟨hl, hl.symm, .sgpA p3 (memoryState_reads _), .sgpAY p3 (memoryState_reads _), .sgpRO (s9 := 8) p2,
    .sgpROY (s9 := 8) p2, .sgpRR (o := 8) p3 (memoryState_reads _), .sgpRRY (o := 8) p3 (memoryState_reads _)⟩

/-! ### The register-to-register families -/

/-- `"00000000"`. -/
abbrev z8 : Item := bits 8 00000000

/-- `"101"`, the integer −3 and a string of three bits. -/
abbrev minus3 : Item := bits 3 101

/-- A stack with these items and nothing else. -/
abbrev stacked (xs : List Item) : State := launch 0 xs 0 []

theorem stacked_pulled (xs : List Item) (h : ∀ v ∈ xs, fits v) : Pulled (stacked xs) xs [] := ⟨by simp [launch], h⟩

theorem stacked_canPush (xs rest : List Item) : CanPush (stacked xs) rest := rfl

theorem witness_VersusPushesTheComparison :
    CanPush (stacked [z8, minus3]) [] ∧ Pulled (stacked [z8]) [z8] [] ∧ CanPush (stacked [z8]) [] ∧
    Pulled (stacked [z8, minus3]) [z8, minus3] [] :=
  ⟨rfl, stacked_pulled _ (by decide), rfl, stacked_pulled _ (by decide)⟩

/-- The sizes 0 and 255. -/
theorem witness_ManufactureAndResizeComplete :
    CanPush (stacked [bits 1 0]) [] ∧ Pulled (stacked [bits 1 0]) [bits 1 0] [] ∧ ReadsAs (stacked [bits 1 0]) (bits 1 0) (0 : Nat) ∧
    CanPush (stacked [bits 9 111111110]) [] ∧ Pulled (stacked [bits 9 111111110]) [bits 9 111111110] [] ∧
    ReadsAs (stacked [bits 9 111111110]) (bits 9 111111110) (255 : Nat) ∧
    CanPush (stacked [z8, bits 9 111111110]) [] ∧ Pulled (stacked [z8, bits 9 111111110]) [z8, bits 9 111111110] [] ∧
    ReadsAs (stacked [z8, bits 9 111111110]) (bits 9 111111110) (255 : Nat) :=
  ⟨rfl, stacked_pulled _ (by decide), by unfold ReadsAs; decide, rfl, stacked_pulled _ (by decide), by unfold ReadsAs; decide, rfl,
    stacked_pulled _ (by decide), by unfold ReadsAs; decide⟩

/-- A negative distance, and a string that is not empty. -/
theorem witness_ShiftsAndRotationsComplete :
    CanPush (stacked [z8]) [] ∧ Pulled (stacked [z8]) [z8] [] ∧ z8 ≠ [] ∧ CanPush (stacked [z8, minus3]) [] ∧
    Pulled (stacked [z8, minus3]) [z8, minus3] [] ∧ ReadsAs (stacked [z8, minus3]) minus3 (-3) :=
  ⟨rfl, stacked_pulled _ (by decide), by decide, rfl, stacked_pulled _ (by decide), by unfold ReadsAs; decide⟩

/-- All nine forms write eight bits over `"00000000"`, or three at its end. -/
theorem witness_OverwriteCompletes :
    (∀ xs, CanPush (stacked xs) []) ∧ 5 + minus3.length ≤ z8.length ∧ 0 + (List.replicate 8 true).length ≤ z8.length ∧
    OverwriteOperands (stacked [z8, minus3]) [] (.soL 5) z8 minus3 (5 : Nat) ∧
    OverwriteOperands (stacked [z8, bits 4 1010]) [] (.soS minus3) z8 minus3 (5 : Nat) ∧
    OverwriteOperands (stacked [z8, minus3, bits 4 1010]) [] .soR z8 minus3 (5 : Nat) ∧
    OverwriteOperands (stacked [z8, eight]) [] (.so0L 0) z8 (List.replicate 8 false) (0 : Nat) ∧
    OverwriteOperands (stacked [z8, bits 1 0]) [] (.so0Q 8) z8 (List.replicate 8 false) (0 : Nat) ∧
    OverwriteOperands (stacked [z8, bits 1 0, eight]) [] .so0R z8 (List.replicate 8 false) (0 : Nat) ∧
    OverwriteOperands (stacked [z8, eight]) [] (.so1L 0) z8 (List.replicate 8 true) (0 : Nat) ∧
    OverwriteOperands (stacked [z8, bits 1 0]) [] (.so1Q 8) z8 (List.replicate 8 true) (0 : Nat) ∧
    OverwriteOperands (stacked [z8, bits 1 0, eight]) [] .so1R z8 (List.replicate 8 true) (0 : Nat) :=
  have five : ∀ xs, ReadsAs (stacked xs) (bits 4 1010) (5 : Nat) := fun _ => (by decide : intOf .recommended (bits 4 1010) = .int 5)
  have zero : ∀ xs, ReadsAs (stacked xs) (bits 1 0) (0 : Nat) := fun _ => (by decide : intOf .recommended (bits 1 0) = .int 0)
  have eightN : ∀ xs, ReadsAs (stacked xs) eight (8 : Nat) := fun _ => (by decide : intOf .recommended eight = .int 8)
  ⟨fun _ => rfl, by decide, by decide, .soL (u8 := 5) (stacked_pulled _ (by decide)),
    .soS (stacked_pulled _ (by decide)) (five _) (by decide), .soR (stacked_pulled _ (by decide)) (five _) (by decide),
    .so0L (u8 := 0) (q := 8) (stacked_pulled _ (by decide)) (eightN _) (by decide),
    .so0Q (u8 := 8) (stacked_pulled _ (by decide)) (zero _),
    .so0R (q := 8) (stacked_pulled _ (by decide)) (zero _) (eightN _) (by decide),
    .so1L (u8 := 0) (q := 8) (stacked_pulled _ (by decide)) (eightN _) (by decide),
    .so1Q (u8 := 8) (stacked_pulled _ (by decide)) (zero _),
    .so1R (q := 8) (stacked_pulled _ (by decide)) (zero _) (eightN _) (by decide)⟩

/-- The three forms, up to the last bit. -/
theorem witness_ExtractCompletes :
    (∀ xs, CanPush (stacked xs) []) ∧ 0 + 8 ≤ z8.length ∧ 5 + 3 ≤ z8.length ∧
    ExtractOperands (stacked [z8, eight]) [] (.seA 0) z8 (0 : Nat) 8 ∧
    ExtractOperands (stacked [z8, bits 4 1010]) [] (.seS 3) z8 (5 : Nat) 3 ∧
    ExtractOperands (stacked [z8, bits 4 1010, bits 3 110]) [] .seR z8 (5 : Nat) 3 :=
  have five : ∀ xs, ReadsAs (stacked xs) (bits 4 1010) (5 : Nat) := fun _ => (by decide : intOf .recommended (bits 4 1010) = .int 5)
  have three : ∀ xs, ReadsAs (stacked xs) (bits 3 110) (3 : Nat) := fun _ => (by decide : intOf .recommended (bits 3 110) = .int 3)
  have eightN : ∀ xs, ReadsAs (stacked xs) eight (8 : Nat) := fun _ => (by decide : intOf .recommended eight = .int 8)
  ⟨fun _ => rfl, by decide, by decide, .seA (u8 := 0) (q := 8) (stacked_pulled _ (by decide)) (eightN _) (by decide),
    .seS (u8 := 3) (stacked_pulled _ (by decide)) (five _),
    .seR (q := 3) (stacked_pulled _ (by decide)) (five _) (three _) (by decide)⟩

/-- Both forms; adjacent instances, which both settings of `Overlap` allow; the empty substring and a longer one. -/
theorem witness_FindCounts :
    (∀ xs, CanPush (stacked xs) []) ∧ CountOperands (stacked [bits 2 11]) [] (.sfQE (bits 1 1)) (bits 2 11) (bits 1 1) ∧
    CountOperands (stacked [bits 2 11, bits 1 1]) [] .sfQR (bits 2 11) (bits 1 1) ∧ OverlapAllowed (stacked []) (bits 2 11) (bits 1 1) ∧
    CountOperands (stacked [[]]) [] (.sfQE []) [] [] ∧ OverlapAllowed (stacked []) [] [] ∧
    CountOperands (stacked [[], bits 1 1]) [] .sfQR [] (bits 1 1) ∧ ([] : Item).length < (bits 1 1).length ∧
    OverlapAllowed (under { Config.recommended with overlap := .refuse } (stacked [])) (bits 2 11) (bits 1 1) :=
  ⟨fun _ => rfl, .sfQE (stacked_pulled _ (by decide)), .sfQR (stacked_pulled _ (by decide)), .inl rfl,
    .sfQE (stacked_pulled _ (by decide)), .inl rfl, .sfQR (stacked_pulled _ (by decide)), by decide,
    .inr fun _ _ _ _ h => h⟩

/-- All eight forms with `i = 0` and `b = 7`, the size of the superstring; one instance found and none found. -/
theorem witness_FindLocates :
    (∀ xs, CanPush (stacked xs) [] ∧ OverlapAllowed (stacked xs) (bits 7 0101010) (bits 3 010) ∧
      FindArgsGood (stacked xs) (bits 7 0101010) (some 0) (some 7)) ∧
    FindOperands (stacked [bits 7 0101010, bits 3 010, bits 4 1110]) [] (.sfIR 0) .right (bits 7 0101010) (bits 3 010) (some 0) (some 7) ∧
    FindOperands (stacked [bits 7 0101010, bits 3 010, bits 1 0]) [] (.sfBR 7) .right (bits 7 0101010) (bits 3 010) (some 0) (some 7) ∧
    FindOperands (stacked [bits 7 0101010, bits 1 0, bits 4 1110]) [] (.sfSR (bits 3 010)) .right (bits 7 0101010) (bits 3 010)
      (some 0) (some 7) ∧
    FindOperands (stacked [bits 7 0101010, bits 3 010, bits 1 0, bits 4 1110]) [] .sfRR .right (bits 7 0101010) (bits 3 010)
      (some 0) (some 7) ∧
    FindOperands (stacked [bits 7 0101010, bits 3 010, bits 4 1110]) [] (.sfIL 0) .left (bits 7 0101010) (bits 3 010) (some 0) (some 7) ∧
    FindOperands (stacked [bits 7 0101010, bits 3 010, bits 1 0]) [] (.sfBL 7) .left (bits 7 0101010) (bits 3 010) (some 0) (some 7) ∧
    FindOperands (stacked [bits 7 0101010, bits 1 0, bits 4 1110]) [] (.sfSL (bits 3 010)) .left (bits 7 0101010) (bits 3 010)
      (some 0) (some 7) ∧
    FindOperands (stacked [bits 7 0101010, bits 3 010, bits 1 0, bits 4 1110]) [] .sfRL .left (bits 7 0101010) (bits 3 010)
      (some 0) (some 7) :=
  have seven : ∀ xs, Reads (stacked xs) (bits 4 1110) (some 7) := fun _ => (by decide : intOf .recommended (bits 4 1110) = .int 7)
  have zero : ∀ xs, Reads (stacked xs) (bits 1 0) (some 0) := fun _ => (by decide : intOf .recommended (bits 1 0) = .int 0)
  ⟨fun _ => ⟨rfl, .inl rfl, (by decide : (0 : Int) ≤ 0 ∧ (0 : Int) ≤ 7 ∧ (7 : Int) ≤ (bits 7 0101010).length)⟩,
    .sfIR (u8 := 0) (stacked_pulled _ (by decide)) (seven _), .sfBR (u8 := 7) (stacked_pulled _ (by decide)) (zero _),
    .sfSR (stacked_pulled _ (by decide)) (zero _) (seven _), .sfRR (stacked_pulled _ (by decide)) (zero _) (seven _),
    .sfIL (u8 := 0) (stacked_pulled _ (by decide)) (seven _), .sfBL (u8 := 7) (stacked_pulled _ (by decide)) (zero _),
    .sfSL (stacked_pulled _ (by decide)) (zero _) (seven _), .sfRL (stacked_pulled _ (by decide)) (zero _) (seven _)⟩

/-- A null start, a start one above the size, and an index below the first; all settings. -/
theorem witness_FindBadArguments :
    FindOperands (stacked [z8, minus3, []]) [] (.sfIR 0) .right z8 minus3 (some 0) none ∧
    ¬ FindArgsGood (stacked [z8, minus3, []]) z8 (some 0) none ∧
    FindOperands (stacked [z8, minus3, bits 1 0]) [] (.sfBL 9) .left z8 minus3 (some 0) (some 9) ∧
    ¬ FindArgsGood (stacked [z8, minus3, bits 1 0]) z8 (some 0) (some 9) ∧
    FindOperands (stacked [z8, minus3, bits 2 11]) [] (.sfBR 8) .right z8 minus3 (some (-1)) (some 8) ∧
    ¬ FindArgsGood (stacked [z8, minus3, bits 2 11]) z8 (some (-1)) (some 8) ∧
    (stacked [z8, minus3, []]).config.findBadArg = .refuse ∧
    (under throwing (stacked [z8, minus3, []])).config.findBadArg = .raise .sizeRange ∧
    (under { Config.recommended with findBadArg := .uninterpreted } (stacked [z8, minus3, []])).config.findBadArg = .uninterpreted ∧
    CanPush (under { Config.recommended with findBadArg := .uninterpreted } (stacked [z8, minus3, []])) [] :=
  ⟨.sfIR (u8 := 0) (b := none) (stacked_pulled _ (by decide)) (rfl : intOf .recommended [] = .null), id,
    .sfBL (u8 := 9) (stacked_pulled _ (by decide)) (by decide : intOf .recommended (bits 1 0) = .int 0),
    by unfold FindArgsGood; decide,
    .sfBR (u8 := 8) (stacked_pulled _ (by decide)) (by decide : intOf .recommended (bits 2 11) = .int (-1)),
    by unfold FindArgsGood; decide, rfl, rfl, rfl, rfl⟩

theorem witness_JoinAndBooleanComplete :
    (∀ xs, CanPush (stacked xs) []) ∧ Pulled (stacked [z8, minus3]) [z8, minus3] [] ∧ z8.length + minus3.length ≤ 255 ∧
    Pulled (stacked [List.replicate 200 true, List.replicate 55 false]) [List.replicate 200 true, List.replicate 55 false] [] ∧
    (List.replicate 200 true).length + (List.replicate 55 false).length ≤ 255 ∧
    Pulled (stacked [z8]) [z8] [] ∧ 7 < z8.length ∧ Pulled (stacked [bits 2 01, bits 2 10]) [bits 2 01, bits 2 10] [] ∧
    (bits 2 01).length = (bits 2 10).length ∧ (bits 2 01)[1]? = some true ∧ (bits 2 10)[1]? = some false :=
  ⟨fun _ => rfl, stacked_pulled _ (by decide), by decide, stacked_pulled _ (by decide +kernel), by decide +kernel, stacked_pulled _ (by decide), by decide,
    stacked_pulled _ (by decide), rfl, rfl, rfl⟩

/-! ### Exceptions -/

/-- `"0000000010"`, the integer 256. -/
abbrev k256 : Item := bits 10 0000000010

/-- 256, −1 and null are no sizes; each list of operands; a join of 256 bits under both settings. -/
theorem witness_SizeRangeThrown :
    (Pulled (stacked [eight, k256]) [eight, k256] [] ∧ ReadsAs (stacked [eight, k256]) eight 8 ∧
      BadSize (stacked [eight, k256]) k256 (some 256) ∧ (stacked [eight, k256]).config.agents = .one) ∧
    (Pulled (stacked [bits 2 11]) [bits 2 11] [] ∧ BadSize (stacked [bits 2 11]) (bits 2 11) (some (-1))) ∧
    (Pulled (stacked [[]]) [[]] [] ∧ BadSize (stacked [[]]) [] none) ∧
    (Pulled (stacked [z8, eight, k256]) [z8, eight, k256] [] ∧ ReadsAs (stacked [z8, eight, k256]) eight 8 ∧
      BadSize (stacked [z8, eight, k256]) k256 (some 256)) ∧
    (Pulled (stacked [List.replicate 200 true, List.replicate 56 false]) [List.replicate 200 true, List.replicate 56 false] [] ∧
      255 < (List.replicate 200 true).length + (List.replicate 56 false).length ∧
      (stacked [List.replicate 200 true, List.replicate 56 false]).config.joinOverflow = .raise ∧
      (under { Config.recommended with joinOverflow := .refuse } (stacked [])).config.joinOverflow = .refuse) :=
  have bad : ∀ xs, BadSize (stacked xs) k256 (some 256) := fun _ =>
    ⟨(by decide : intOf .recommended k256 = .int 256), fun z h => by cases h; decide⟩
  have addr : ∀ xs, ReadsAs (stacked xs) eight 8 := fun _ => (by decide : intOf .recommended eight = .int 8)
  ⟨⟨stacked_pulled _ (by decide), addr _, bad _, rfl⟩,
    ⟨stacked_pulled _ (by decide), (by decide : intOf .recommended (bits 2 11) = .int (-1)), fun z h => by cases h; decide⟩,
    ⟨stacked_pulled _ (by decide), (rfl : intOf .recommended [] = .null), fun z h => by cases h⟩,
    ⟨stacked_pulled _ (by decide), addr _, bad _⟩, ⟨stacked_pulled _ (by decide +kernel), by decide +kernel, rfl, rfl⟩⟩

theorem witness_SizeMismatchThrown :
    GetPutOperands (stacked [eight, minus3, z8]) [] .sgpA false 8 minus3 z8 ∧
    SyncAllowed (stacked [eight, minus3, z8]) false ∧ minus3.length ≠ z8.length ∧
    Pulled (stacked [bits 1 0, []]) [bits 1 0, []] [] ∧ (bits 1 0).length ≠ ([] : Item).length :=
  ⟨.sgpA (stacked_pulled _ (by decide)) (by decide : intOf .recommended eight = .int 8), fun _ => rfl, by decide,
    stacked_pulled _ (by decide), by decide⟩

/-- The null distance; an embedded form on the empty string, which throws something else. -/
theorem witness_NullDistanceThrown :
    Pulled (stacked [z8, []]) [z8, []] [] ∧ ReadsNull (stacked [z8, []]) [] ∧
    Instr.scRE 1 ∈ [Instr.scSE0 1, .scSE1 1, .scRE 1] ∧ (stacked [[]]).thrown = none ∧
    Throws (exec (.scRE 1) (stacked [[]])) .rotateEmpty :=
  ⟨stacked_pulled _ (by decide), rfl, by decide, rfl, _, _, rfl, rfl⟩

/-- The first location that does not fit and −1; 256, −256 and null; the first bit outside; a zero-bit extract outside. -/
theorem witness_OverwriteAndExtractExceptions :
    (OverwriteOperands (stacked [z8, minus3]) [] (.soL 6) z8 minus3 6 ∧ ¬ ((0 : Int) ≤ 6 ∧ (6 : Int) + minus3.length ≤ z8.length)) ∧
    (OverwriteOperands (stacked [z8, bits 2 11]) [] (.soS minus3) z8 minus3 (-1) ∧
      ¬ ((0 : Int) ≤ -1 ∧ (-1 : Int) + minus3.length ≤ z8.length)) ∧
    (Pulled (stacked [z8, k256]) [z8, k256] [] ∧ ReadsAs (stacked [z8, k256]) k256 256 ∧ ((256 : Int) < -255 ∨ 255 < (256 : Int))) ∧
    (Pulled (stacked [z8, z8, bits 10 0000000011]) [z8, z8, bits 10 0000000011] [] ∧
      ReadsAs (stacked [z8, z8, bits 10 0000000011]) (bits 10 0000000011) (-256) ∧ ((-256 : Int) < -255 ∨ 255 < (-256 : Int))) ∧
    (Pulled (stacked [z8, []]) [z8, []] [] ∧ ReadsNull (stacked [z8, []]) []) ∧
    (Pulled (stacked [z8, [], []]) [z8, [], []] [] ∧ ReadsNull (stacked [z8, [], []]) []) ∧
    (ExtractOperands (stacked [z8, bits 1 0]) [] (.seA 9) z8 9 0 ∧ ¬ ((0 : Int) ≤ 9 ∧ (9 : Int) + (0 : Nat) ≤ z8.length)) ∧
    (ExtractOperands (stacked [z8, bits 2 10]) [] (.seA 8) z8 8 1 ∧ ¬ ((0 : Int) ≤ 8 ∧ (8 : Int) + (1 : Nat) ≤ z8.length)) :=
  ⟨⟨.soL (u8 := 6) (stacked_pulled _ (by decide)), by decide⟩,
    ⟨.soS (stacked_pulled _ (by decide)) (by decide : intOf .recommended (bits 2 11) = .int (-1)) (by decide), by decide⟩,
    ⟨stacked_pulled _ (by decide), (by decide : intOf .recommended k256 = .int 256), by decide⟩,
    ⟨stacked_pulled _ (by decide), (by decide : intOf .recommended (bits 10 0000000011) = .int (-256)), by decide⟩,
    ⟨stacked_pulled _ (by decide), rfl⟩, ⟨stacked_pulled _ (by decide), rfl⟩,
    ⟨.seA (u8 := 9) (q := 0) (stacked_pulled _ (by decide)) (by decide : intOf .recommended (bits 1 0) = .int 0) (by decide), by decide⟩,
    ⟨.seA (u8 := 8) (q := 1) (stacked_pulled _ (by decide)) (by decide : intOf .recommended (bits 2 10) = .int 1) (by decide), by decide⟩⟩

/-! ### Refusals -/

/-- A null address; `"1"` and `"01"` in the undecided band, in the first and in the second place. -/
theorem witness_NullAddressAndUndecidedRefused :
    (Pulled (stacked [[], eight]) [[], eight] [] ∧ [([] : Item), eight].length = pulls .sgAR ∧ (stacked [[], eight]).config.agents = .one ∧
      hasAddressOperand .sgAR = true ∧ [([] : Item), eight][0]? = some [] ∧ ReadsNull (stacked [[], eight]) []) ∧
    (Pulled (stacked [bits 1 1]) [bits 1 1] [] ∧ [bits 1 1].length = pulls .smR0 ∧ (intOperands .smR0).head? = some 0 ∧
      [bits 1 1][0]? = some (bits 1 1) ∧ Undecided (stacked [bits 1 1]) (bits 1 1)) ∧
    (Pulled (stacked [z8, eight, bits 2 01]) [z8, eight, bits 2 01] [] ∧ [z8, eight, bits 2 01].length = pulls .seR ∧
      intOperands .seR = [1, 2] ∧ [z8, eight, bits 2 01][1]? = some eight ∧ ReadsAs (stacked [z8, eight, bits 2 01]) eight 8 ∧
      [z8, eight, bits 2 01][2]? = some (bits 2 01) ∧ Undecided (stacked [z8, eight, bits 2 01]) (bits 2 01)) :=
  ⟨⟨stacked_pulled _ (by decide), rfl, rfl, rfl, rfl, rfl⟩,
    ⟨stacked_pulled _ (by decide), rfl, rfl, rfl, (by decide : intOf .recommended (bits 1 1) = .undecided)⟩,
    ⟨stacked_pulled _ (by decide), rfl, rfl, rfl, (by decide : intOf .recommended eight = .int 8), rfl,
      (by decide : intOf .recommended (bits 2 01) = .undecided)⟩⟩

/-- A read of one bit without a value; a write one bit beyond the extent; a conditional put without values. -/
theorem witness_AccessOutsideRefused :
    (GetOperands (stacked [eight]) [] (.sgAE 1) false 8 1 ∧ SyncAllowed (stacked [eight]) false ∧
      ∀ v : Item, v.length = 1 → ¬ Holds (stacked [eight]) 8 v) ∧
    (PutOperands (under { Config.recommended with extent := [.range 8 1] } (stacked [eight, bits 2 01])) [] .spA false 8 (bits 2 01) ∧
      (under { Config.recommended with extent := [.range 8 1] } (stacked [eight, bits 2 01])).genspaceValid 8 (bits 2 01).length
        = false) ∧
    (GetPutOperands (stacked [eight, z8, z8]) [] .sgpA false 8 z8 z8 ∧
      ∀ v : Item, v.length = z8.length → ¬ Holds (stacked [eight, z8, z8]) 8 v) :=
  ⟨⟨.sgAE (u8 := 1) (stacked_pulled _ (by decide)) (by decide : intOf .recommended eight = .int 8), fun _ => rfl,
      not_holds (by decide) rfl⟩,
    ⟨.spA ⟨rfl, by decide⟩ (by decide : intOf .recommended eight = .int 8), by decide⟩,
    ⟨.sgpA (stacked_pulled _ (by decide)) (by decide : intOf .recommended eight = .int 8), not_holds (by decide) rfl⟩⟩

/-- Two instances of `"11"` one apart in `"111"`. -/
theorem witness_OverlapRefused :
    (under { Config.recommended with overlap := .refuse } (stacked [bits 3 111, bits 2 11])).config.overlap = .refuse ∧
    standsAt (bits 3 111) (bits 2 11) 0 = true ∧ standsAt (bits 3 111) (bits 2 11) 1 = true ∧ 0 < 1 ∧ 1 < 0 + (bits 2 11).length ∧
    CountOperands (under { Config.recommended with overlap := .refuse } (stacked [bits 3 111, bits 2 11])) [] .sfQR (bits 3 111)
      (bits 2 11) ∧
    FindOperands (under { Config.recommended with overlap := .refuse } (stacked [bits 3 111, bits 2 11, bits 1 0])) [] (.sfIR 0) .right
      (bits 3 111) (bits 2 11) (some 0) (some 0) ∧
    FindArgsGood (under { Config.recommended with overlap := .refuse } (stacked [bits 3 111, bits 2 11, bits 1 0])) (bits 3 111)
      (some 0) (some 0) :=
  ⟨rfl, by decide, by decide, by decide, by decide, .sfQR ⟨rfl, by decide⟩,
    .sfIR (u8 := 0) (b := some 0) ⟨rfl, by decide⟩ (by decide : intOf .recommended (bits 1 0) = .int 0),
    by unfold FindArgsGood; decide⟩

/-- An instruction that throws; and a run that threw, at the end of the run, whose step answers a next state. -/
theorem witness_ThrownRunIsNeverComplete :
    (∃ t, exec .smR0 (launch 0 [[]] 0 []) = .next t ∧ t.thrown ≠ none) ∧
    (let s := under { Config.recommended with endOfRun := some (-5) } { fetching (bits 17 00000000000101001) with threw := true }
     Threw s ∧ s.thrown = none ∧ s.config.endOfRun = some s.pc ∧ ∃ t, step s = .next t ∧ t.pc = 12) :=
  ⟨⟨_, rfl, by decide⟩, .inr rfl, rfl, rfl, _, rfl, rfl⟩

end Sys2Proof.Tests
end

