-- ==== Sys2Proof/Proofs/EmbeddedStrings.lean ====
section
/-! PROOFS. The embedded-string fields `b9` and `b12` (spec 30_encoding.md R66, R67) and the words that hold one. -/

namespace Sys2Proof.EmbeddedStrings

open Machine Laws

/-! ### The field law

`embeddedOf` and `embeddedBits` are inverse to each other between the strings shorter than a field and the fields that are
not all zeros. -/

@[simp] theorem embeddedOf_zeros (k : Nat) : embeddedOf (zeros k) = none := by
  induction k with
  | zero => rfl
  | succ k ih => rw [zeros] at ih; simp [zeros, List.replicate_succ, embeddedOf, ih]

@[simp] theorem embeddedOf_embeddedBits (k : Nat) (v : Item) : embeddedOf (embeddedBits k v) = some v := by
  unfold embeddedBits
  generalize k - 1 - v.length = n
  induction v with
  | nil =>
    have hz : embeddedOf (List.replicate n false) = none := embeddedOf_zeros n
    simp [embeddedOf, hz]
  | cons b v ih => simp [embeddedOf, ih]

/-- A field holds no string only when every bit of it is 0 (R66, R67). -/
theorem eq_zeros_of_embeddedOf_eq_none {f : List Bit} (h : embeddedOf f = none) : f = zeros f.length := by
  induction f with
  | nil => rfl
  | cons b f ih =>
    cases hf : embeddedOf f with
    | some v => simp [embeddedOf, hf] at h
    | none =>
      have hb : b = false := by simpa [embeddedOf, hf] using h
      rw [hb, ih hf]
      simp [zeros, List.replicate_succ]

/-- A field that holds a string is that string, the marker 1 and zeros (R66, R67). -/
theorem eq_embeddedBits_of_embeddedOf_eq_some {f : List Bit} {v : Item} (h : embeddedOf f = some v) :
    v.length < f.length ∧ f = embeddedBits f.length v := by
  induction f generalizing v with
  | nil => simp [embeddedOf] at h
  | cons b f ih =>
    cases hf : embeddedOf f with
    | some u =>
      obtain rfl : b :: u = v := by simpa [embeddedOf, hf] using h
      obtain ⟨hlen, hfield⟩ := ih hf
      refine ⟨by simpa using hlen, ?_⟩
      have hzeros : f.length + 1 - 1 - (u.length + 1) = f.length - 1 - u.length := by omega
      simp only [embeddedBits, List.length_cons, List.cons_append, hzeros]
      exact congrArg (b :: ·) hfield
    | none =>
      obtain ⟨rfl, rfl⟩ : b = true ∧ [] = v := by simpa [embeddedOf, hf] using h
      have hzeros := eq_zeros_of_embeddedOf_eq_none hf
      refine ⟨by simp, ?_⟩
      simpa [embeddedBits, zeros] using hzeros

/-- A field that is not all zeros holds a string (R66, R67). -/
theorem exists_embeddedBits_of_ne_zeros {f : List Bit} (h : f ≠ zeros f.length) :
    ∃ v : Item, v.length < f.length ∧ f = embeddedBits f.length v := by
  cases hf : embeddedOf f with
  | none => exact absurd (eq_zeros_of_embeddedOf_eq_none hf) h
  | some v => exact ⟨v, eq_embeddedBits_of_embeddedOf_eq_some hf⟩

/-! ### The words with such a field

The bits above the field choose the instruction; what the field holds is its embedded string, and an all-zero `b9` selects
the register twin (R66, R70). -/

/-- The instructions of format T9 with a field `b9` (R72): `op3`, the register twin and the embedded form. -/
inductive B9Row : Bit → Bit → Bit → Instr → (Item → Instr) → Prop
  | sv : B9Row true true true .svR .svE
  | so : B9Row true false false .soR .soS
  | sfRight : B9Row true true false .sfRR .sfSR
  | sfLeft : B9Row false true false .sfRL .sfSL
  | sfCount : B9Row false false false .sfQR .sfQE

/-- The 17 bits of a T9 word with the field `f` (R72). -/
def t9Word (f : List Bit) (p q r : Bit) : Item := f ++ [p, q, r, true, false, true, false, true]

theorem decode_t9Word {f : List Bit} (hf : f.length = 9) (p q r : Bit) :
    decode (t9Word f p q r) = .ok (decodeT9 (t9Word f p q r)) := by
  simp [decode, decodeString, t9Word, wbit, hf]

theorem b9Of_t9Word {f : List Bit} (hf : f.length = 9) (p q r : Bit) : b9Of (t9Word f p q r) = embeddedOf f := by
  rw [b9Of, t9Word, ← hf, List.take_left]

section B9

variable {p q r : Bit} {twin : Instr} {embedded : Item → Instr} (row : B9Row p q r twin embedded)

include row

theorem decodeT9_of_op3 {w : Item} (hp : wbit w 9 = p) (hq : wbit w 10 = q) (hr : wbit w 11 = r) :
    decodeT9 w = (b9Of w).elim twin embedded := by
  cases row <;> simp only [decodeT9, hp, hq, hr] <;> cases b9Of w <;> rfl

/-- The string the field holds is embedded in the instruction; a field without one selects the twin (R66, R70). -/
theorem decode_b9_field {f : List Bit} (hf : f.length = 9) :
    decode (t9Word f p q r) = .ok ((embeddedOf f).elim twin embedded) := by
  have hop3 : ∀ i, wbit (t9Word f p q r) (9 + i) = wbit [p, q, r, true, false, true, false, true] i := fun i => by
    simp [t9Word, wbit, ← hf, List.getElem?_append_right]
  rw [decode_t9Word hf, decodeT9_of_op3 row (hop3 0) (hop3 1) (hop3 2), b9Of_t9Word hf]

theorem decode_b9_zeros : decode (t9Word (zeros 9) p q r) = .ok twin := by
  rw [decode_b9_field row (length_zeros 9), embeddedOf_zeros]
  rfl

theorem decode_b9_embeddedBits {v : Item} (hv : v.length ≤ 8) :
    decode (t9Word (embeddedBits 9 v) p q r) = .ok (embedded v) := by
  rw [decode_b9_field row (length_embeddedBits (Nat.lt_succ_of_le hv)), embeddedOf_embeddedBits]
  rfl

end B9

/-- SG_E's word holds the field `b12` (R67, R73). -/
theorem decode_sgE_field {f : List Bit} (hf : f.length = 12) :
    decode (f ++ [true, false, false, false, true]) = .ok (.sgE (embeddedOf f)) := by
  have htake : (f ++ [true, false, false, false, true]).take 12 = f := by rw [← hf, List.take_left]
  simp [decode, decodeE12, wbit, hf, htake]

/-- SG_E without a string throws in every state (R67, R251). -/
theorem exec_sgE_none (s : State) : exec (.sgE none) s = .next (s.throw ⟨.emptyEmbedded, []⟩) := rfl

/-- Settles O7: the field law, then the words whose field is all zeros, then those whose field holds a string. -/
theorem embeddedStringFields : Obligations.EmbeddedStringFields := by
  refine ⟨fun width v _ => embeddedOf_embeddedBits width v, embeddedOf_zeros,
    fun _ => exists_embeddedBits_of_ne_zeros,
    decode_b9_zeros .sv, decode_b9_zeros .so, decode_b9_zeros .sfRight, decode_b9_zeros .sfLeft, decode_b9_zeros .sfCount,
    decode_sgE_field (length_zeros 12), fun s => ⟨_, _, exec_sgE_none s, rfl⟩, fun v hv => ?_, fun v f hv hf => ?_⟩
  · have hword := decode_sgE_field (length_embeddedBits (k := 12) (Nat.lt_succ_of_le hv))
    rwa [embeddedOf_embeddedBits] at hword
  · obtain rfl : f = embeddedBits 9 v := hf
    exact ⟨decode_b9_embeddedBits .sv hv, decode_b9_embeddedBits .so hv, decode_b9_embeddedBits .sfRight hv,
      decode_b9_embeddedBits .sfLeft hv, decode_b9_embeddedBits .sfCount hv⟩

end Sys2Proof.EmbeddedStrings
end

