-- ==== Sys2Proof/Proofs/Comparison.lean ====
section
/-! PROOFS. The order of strings and its 6-bit result (spec 43_versus.md R140). -/

namespace Sys2Proof.Comparison

open Sys2Proof.Machine

/-! ### The order: a common prefix cancels, and what is left decides -/

@[simp] theorem compareStrings_cons_same (b : Bit) (p q : Item) :
    compareStrings (b :: p) (b :: q) = compareStrings p q := by
  cases b <;> rfl

theorem compareStrings_append_left (c p q : Item) : compareStrings (c ++ p) (c ++ q) = compareStrings p q := by
  induction c with
  | nil => rfl
  | cons b c ih => simpa using ih

/-- Strings that agree below `k` compare as what stands from `k` on. -/
theorem compareStrings_eq_drop {p q : Item} {k : Nat} (hagree : ∀ j, j < k → p[j]? = q[j]?) :
    compareStrings p q = compareStrings (p.drop k) (q.drop k) := by
  have htake : p.take k = q.take k := by
    ext1 j
    by_cases hj : j < k
    · simpa [hj] using hagree j hj
    · simp [hj]
  calc compareStrings p q
      = compareStrings (p.take k ++ p.drop k) (p.take k ++ q.drop k) := by
        rw [List.take_append_drop, htake, List.take_append_drop]
    _ = compareStrings (p.drop k) (q.drop k) := compareStrings_append_left ..

theorem compareStrings_gt_of_first_difference {p q : Item} {k : Nat} (hagree : ∀ j, j < k → p[j]? = q[j]?)
    (hp : p[k]? = some true) (hq : q[k]? = some false) : compareStrings p q = .gt := by
  obtain ⟨hkp, hpk⟩ := List.getElem?_eq_some_iff.1 hp
  obtain ⟨hkq, hqk⟩ := List.getElem?_eq_some_iff.1 hq
  rw [compareStrings_eq_drop hagree, List.drop_eq_getElem_cons hkp, List.drop_eq_getElem_cons hkq, hpk, hqk]
  rfl

theorem compareStrings_gt_of_longer {p q : Item} (hagree : ∀ j, j < q.length → p[j]? = q[j]?)
    (hlonger : q.length < p.length) : compareStrings p q = .gt := by
  rw [compareStrings_eq_drop hagree, List.drop_length, List.drop_eq_getElem_cons hlonger]
  rfl

/-! ### The order is total -/

theorem compareStrings_swap (p q : Item) : (compareStrings p q).swap = compareStrings q p := by
  induction p, q using compareStrings.induct with
  | case1 | case2 | case3 | case4 | case5 => rfl
  | case6 p q ih | case7 p q ih => exact ih

theorem compareStrings_gt_iff_swap_lt {p q : Item} : compareStrings p q = .gt ↔ compareStrings q p = .lt := by
  rw [← compareStrings_swap p q, Ordering.swap_eq_lt]

theorem compareStrings_eq_iff {p q : Item} : compareStrings p q = .eq ↔ p = q := by
  induction p, q using compareStrings.induct with
  | case1 | case2 | case3 | case4 | case5 => simp [compareStrings]
  | case6 p q ih | case7 p q ih => simpa [compareStrings] using ih

/-! ### The 6-bit result names the outcome of the order -/

theorem cmp6_greater_iff {p q : Item} :
    cmp6 p q = [true, false, true, false, false, true] ↔ compareStrings p q = .gt := by
  unfold cmp6
  cases compareStrings p q <;> decide

theorem cmp6_equal_iff {p q : Item} :
    cmp6 p q = [false, true, false, true, false, true] ↔ compareStrings p q = .eq := by
  unfold cmp6
  cases compareStrings p q <;> decide

theorem cmp6_less_iff {p q : Item} :
    cmp6 p q = [false, true, true, false, true, false] ↔ compareStrings p q = .lt := by
  unfold cmp6
  cases compareStrings p q <;> decide

/-- Settles O37: each result read as an outcome of the order; "less" is "greater" with the strings exchanged. -/
theorem comparisonRule : Obligations.ComparisonRule := by
  intro p q
  rw [cmp6_greater_iff, cmp6_equal_iff, cmp6_less_iff, cmp6_less_iff, ← compareStrings_gt_iff_swap_lt]
  refine ⟨fun k hagree hp hq => compareStrings_gt_of_first_difference hagree hp hq,
    fun k hagree hp hq => compareStrings_gt_of_first_difference (fun j hj => (hagree j hj).symm) hq hp,
    fun hagree => ⟨fun hlonger => ?_, fun hlonger => ?_⟩,
    compareStrings_eq_iff, compareStrings_gt_iff_swap_lt, ?_⟩
  · rw [Nat.min_eq_right hlonger.le] at hagree
    exact compareStrings_gt_of_longer hagree hlonger
  · rw [Nat.min_eq_left hlonger.le] at hagree
    exact compareStrings_gt_of_longer (fun j hj => (hagree j hj).symm) hlonger
  · rw [compareStrings_gt_iff_swap_lt (p := q)]
    cases compareStrings p q <;> simp

end Sys2Proof.Comparison
end

/-! PROOFS. `Resize(s, n, f)`: cut or filled at the right (spec 44_manufacture_resize.md R155). -/

namespace Sys2Proof.Resizing

open Sys2Proof.Machine

/-! ### What a resize gives: a cut string or a filled one

At the boundary, where the size stays the same, both hold. -/

theorem resize_eq_take {v : Item} {n : Nat} (hcut : n ≤ v.length) (f : Bit) : resize v n f = v.take n := by
  simp [resize, fill, Nat.sub_eq_zero_of_le hcut]

theorem resize_eq_append_fill {v : Item} {n : Nat} (hgrow : v.length ≤ n) (f : Bit) :
    resize v n f = v ++ fill f (n - v.length) := by
  rw [resize, List.take_of_length_le hgrow]

theorem resize_length_self (v : Item) (f : Bit) : resize v v.length f = v := by
  rw [resize_eq_take le_rfl, List.take_length]

/-! ### The bits of a resized string, by address -/

theorem getElem?_resize_of_lt_length {v : Item} {n k : Nat} (hv : k < v.length) (hn : k < n) (f : Bit) :
    (resize v n f)[k]? = v[k]? := by
  rcases le_total n v.length with hcut | hgrow
  · rw [resize_eq_take hcut, List.getElem?_take_of_lt hn]
  · rw [resize_eq_append_fill hgrow, List.getElem?_append_left hv]

theorem getElem?_resize_of_length_le {v : Item} {n k : Nat} (hv : v.length ≤ k) (hn : k < n) (f : Bit) :
    (resize v n f)[k]? = some f := by
  have hfill : k - v.length < n - v.length := by omega
  rw [resize_eq_append_fill (hv.trans hn.le), List.getElem?_append_right hv, fill, List.getElem?_replicate_of_lt hfill]

/-- Settles O30: the size, the bit at each kind of address, and the two forms a resize can take; a cut does not see the
fill bit. The bound on `n` is not used: the rule holds of every size. -/
theorem resizeRule : Obligations.ResizeRule := by
  intro v n f _
  refine ⟨length_resize v n f, fun k hv hn => getElem?_resize_of_lt_length hv hn f,
    fun k hv hn => getElem?_resize_of_length_le hv hn f, ?_, fun hcut => ⟨resize_eq_take hcut.le f, fun g => ?_⟩⟩
  · rintro rfl
    exact resize_length_self v f
  · rw [resize_eq_take hcut.le, resize_eq_take hcut.le]

end Sys2Proof.Resizing

/-! PROOFS. The Circulate family: shifts, rotations and the reversal (spec 45_circulate.md). -/

namespace Sys2Proof.Circulating

open Sys2Proof.Machine

/-! ### Shift, by address (R170) -/

theorem getElem?_shift_of_moved {v : Item} {d : Int} {j : Nat} (hj : j < v.length)
    (hsource : 0 ≤ (j : Int) - d ∧ (j : Int) - d < v.length) (f : Bit) :
    (shift v d f)[j]? = v[((j : Int) - d).toNat]? := by
  have hlt : ((j : Int) - d).toNat < v.length := by omega
  simp only [shift, List.getElem?_map, List.getElem?_range hj, Option.map_some, if_pos hsource,
    List.getD_eq_getElem v f hlt, List.getElem?_eq_getElem hlt]

theorem getElem?_shift_of_vacant {v : Item} {d : Int} {j : Nat} (hj : j < v.length)
    (hvacant : ¬ (0 ≤ (j : Int) - d ∧ (j : Int) - d < v.length)) (f : Bit) :
    (shift v d f)[j]? = some f := by
  simp only [shift, List.getElem?_map, List.getElem?_range hj, Option.map_some, if_neg hvacant]

/-- The same move, read from the address the bit had before. -/
theorem getElem?_shift_moved_to {v : Item} {d : Int} {k : Nat} (hk : k < v.length) (hlow : 0 ≤ (k : Int) + d)
    (hhigh : (k : Int) + d < v.length) (f : Bit) : (shift v d f)[((k : Int) + d).toNat]? = v[k]? := by
  have hsource : ((((k : Int) + d).toNat : Nat) : Int) - d = k := by omega
  rw [getElem?_shift_of_moved (by omega) (by omega), hsource, Int.toNat_natCast]

theorem shift_zero (v : Item) (f : Bit) : shift v 0 f = v := by
  refine List.ext_getElem?' fun j hj => ?_
  have hj : j < v.length := by simpa using hj
  rw [getElem?_shift_of_moved hj (by omega), Int.sub_zero, Int.toNat_natCast]

/-- A distance of the size or more leaves no bit inside the string. -/
theorem shift_eq_fill {v : Item} {d : Int} (hfar : v.length ≤ d.natAbs) (f : Bit) :
    shift v d f = List.replicate v.length f := by
  refine List.ext_getElem?' fun j hj => ?_
  have hj : j < v.length := by simpa using hj
  rw [getElem?_shift_of_vacant hj (by omega), List.getElem?_replicate_of_lt hj]

/-- Settles O31: the two kinds of new address; the rest follows from them. -/
theorem shiftRule : Obligations.ShiftRule := by
  intro v d f
  refine ⟨length_shift v d f,
    fun j hj => ⟨fun hsource => getElem?_shift_of_moved hj hsource f, fun hvacant => getElem?_shift_of_vacant hj hvacant f⟩,
    fun k hk hlow hhigh => getElem?_shift_moved_to hk hlow hhigh f, ?_, fun hfar => shift_eq_fill hfar f, ?_⟩
  · rintro rfl
    exact shift_zero v f
  · rintro rfl
    rfl

/-! ### Rotate, by address (R171) -/

theorem emod_toNat_lt {n : Nat} (hn : 0 < n) (z : Int) : (z % (n : Int)).toNat < n := by
  have hlow := Int.emod_nonneg z (Int.natCast_ne_zero.2 hn.ne')
  have hhigh := Int.emod_lt_of_pos z (Int.natCast_pos.2 hn)
  omega

theorem getElem?_rotate {v : Item} {j : Nat} (hj : j < v.length) (d : Int) :
    (rotate v d)[j]? = v[(((j : Int) - d) % v.length).toNat]? := by
  have hsource := emod_toNat_lt (Nat.zero_lt_of_lt hj) ((j : Int) - d)
  simp [rotate, hj, hsource]

/-- The same move, read from the address the bit had before. -/
theorem getElem?_rotate_moved_to {v : Item} {k : Nat} (hk : k < v.length) (d : Int) :
    (rotate v d)[(((k : Int) + d) % v.length).toNat]? = v[k]? := by
  have hpos : 0 < v.length := Nat.zero_lt_of_lt hk
  have haddress : (((((k : Int) + d) % v.length).toNat : Nat) : Int) = ((k : Int) + d) % v.length :=
    Int.toNat_of_nonneg (Int.emod_nonneg _ (Int.natCast_ne_zero.2 hpos.ne'))
  have hsource : (((k : Int) + d) % v.length - d) % v.length = k := by
    rw [Int.emod_sub_emod, Int.add_sub_cancel, Int.emod_eq_of_lt (by omega) (by omega)]
  rw [getElem?_rotate (emod_toNat_lt hpos _), haddress, hsource, Int.toNat_natCast]

theorem rotate_neg_rotate (v : Item) (d : Int) : rotate (rotate v d) (-d) = v := by
  refine List.ext_getElem?' fun j hj => ?_
  have hj : j < v.length := by simpa using hj
  rw [getElem?_rotate (by simpa using hj), Int.sub_neg, length_rotate, getElem?_rotate_moved_to hj]

theorem rotate_emod_length (v : Item) (d : Int) : rotate v (d % v.length) = rotate v d := by
  simp only [rotate, Int.sub_emod_emod]

/-! ### The stack of the family's instructions

Each pulls the string, some a distance below it, and pushes one string. -/

theorem pull1_of_pulled {s : State} {v : Item} {rest : List Item} (h : Pulled s [v] rest) : s.pull1 = .ok (v, rest) := by
  obtain ⟨hstack, hfits⟩ := h
  exact pull1_eq_ok.2 ⟨hstack, hfits v (by simp)⟩

theorem pull2_of_pulled {s : State} {v x1 : Item} {rest : List Item} (h : Pulled s [v, x1] rest) :
    s.pull2 = .ok (v, x1, rest) := by
  obtain ⟨hstack, hfits⟩ := h
  exact pull2_eq_ok.2 ⟨hstack, hfits v (by simp), hfits x1 (by simp)⟩

theorem exec_scRE_of_pulled {s : State} {v : Item} {rest : List Item} (h : Pulled s [v] rest) (d : Int) :
    exec (.scRE d) s = s.conclude (rotateOnto rest v d s) := by
  simp only [exec, execScRE, pull1_of_pulled h, ok_bind]

theorem exec_scRR_of_pulled {s : State} {v x1 : Item} {d : Int} {rest : List Item} (h : Pulled s [v, x1] rest)
    (hd : ReadsAs s x1 d) : exec .scRR s = s.conclude (rotateOnto rest v d s) := by
  simp only [exec, execScRR, pull2_of_pulled h, distanceArg_eq_ok.2 hd, ok_bind]

theorem exec_scB_of_pulled {s : State} {v : Item} {rest : List Item} (h : Pulled s [v] rest) :
    exec .scB s = s.conclude (s.pushAdvance rest v.reverse) := by
  simp only [exec, execScB, pull1_of_pulled h, ok_bind]

theorem rotateOnto_nil_throws (s : State) (d : Int) (rest : List Item) :
    Throws (s.conclude (rotateOnto rest [] d s)) .rotateEmpty :=
  ⟨s.throw ⟨.rotateEmpty, []⟩, [], rfl, rfl⟩

/-- Settles O32: the move by address gives the undoing rotation; both rotating instructions reach the throw after their
pulls. -/
theorem rotateRule : Obligations.RotateRule := by
  refine ⟨fun v d _ => ⟨length_rotate v d, fun k hk => getElem?_rotate_moved_to hk d, rotate_neg_rotate v d,
    rotate_emod_length v d⟩, fun s d rest h => ?_, fun s x1 d rest h hd => ?_⟩
  · rw [exec_scRE_of_pulled h]
    exact rotateOnto_nil_throws s d rest
  · rw [exec_scRR_of_pulled h hd]
    exact rotateOnto_nil_throws s d rest

/-- Settles O33, with the reversed list as the string pushed. -/
theorem reverseCompletes : Obligations.ReverseCompletes := by
  intro s v rest hpulled hroom
  have hpush : s.pushAdvance rest v.reverse = .ok (advanced s (v.reverse :: rest)) := pushAdvance_eq_ok.2 ⟨hroom, rfl⟩
  refine ⟨v.reverse, ?_, List.length_reverse, fun j hj => List.getElem?_reverse hj, ?_⟩
  · rw [exec_scB_of_pulled hpulled, hpush, conclude_ok]
  · rintro rfl
    rfl

/-! ### The size of the string (R180) -/

/-- `t` is `s` one instruction further on, with a string of the same size in place of the top item. -/
def ReplacesTop (s t : State) : Prop :=
  ∃ v below r rest, s.stack = v :: below ∧ r.length = v.length ∧ t = s.retire (r :: rest)

theorem ReplacesTop.of_pushAdvance {s t : State} {v r : Item} {below rest : List Item} (hstack : s.stack = v :: below)
    (hsize : r.length = v.length) (h : s.pushAdvance rest r = .ok t) : ReplacesTop s t :=
  ⟨v, below, r, rest, hstack, hsize, (pushAdvance_eq_ok.1 h).2⟩

theorem ReplacesTop.of_rotateOnto {s t : State} {v : Item} {d : Int} {below rest : List Item}
    (hstack : s.stack = v :: below) (h : rotateOnto rest v d s = .ok t) : ReplacesTop s t :=
  ⟨v, below, rotate v d, rest, hstack, length_rotate v d, (rotateOnto_eq_ok.1 h).2.2⟩

theorem pull1_bind_eq_ok {s t : State} {f : Item × List Item → Except Stop State} :
    (s.pull1 >>= f) = .ok t ↔ ∃ v rest, s.stack = v :: rest ∧ fits v ∧ f (v, rest) = .ok t := by
  simp [bind_eq_ok, pull1_eq_ok, and_assoc]

theorem pull2_bind_eq_ok {s t : State} {f : Item × Item × List Item → Except Stop State} :
    (s.pull2 >>= f) = .ok t ↔
      ∃ v x1 rest, s.stack = v :: x1 :: rest ∧ (fits v ∧ fits x1) ∧ f (v, x1, rest) = .ok t := by
  simp [bind_eq_ok, pull2_eq_ok, and_assoc]

theorem shiftEmbedded_replacesTop {f : Bit} {d : Int} {s t : State} (h : shiftEmbedded f d s = .ok t) :
    ReplacesTop s t := by
  obtain ⟨v, rest, hstack, -, hpush⟩ := pull1_bind_eq_ok.1 h
  exact .of_pushAdvance hstack (length_shift v d f) hpush

theorem shiftRegister_replacesTop {f : Bit} {s t : State} (h : shiftRegister f s = .ok t) : ReplacesTop s t := by
  obtain ⟨v, x1, rest, hstack, -, hdistance⟩ := pull2_bind_eq_ok.1 h
  obtain ⟨d, -, hpush⟩ := bind_eq_ok.1 hdistance
  exact .of_pushAdvance hstack (length_shift v d f) hpush

/-- An instruction whose next `pc` is 17 further on completed: a throw leaves `pc` (R250, R251). -/
theorem eq_ok_of_conclude_of_pc {s t : State} {m : Except Stop State} (h : s.conclude m = .next t)
    (hpc : t.pc = s.pc + 17) : m = .ok t := by
  rcases conclude_eq_next.1 h with hok | ⟨e, -, rfl⟩
  · exact hok
  · rw [State.throw_pc] at hpc
    omega

theorem replacesTop_of_isCirculate {i : Instr} {s t : State} (hfamily : isCirculate i = true)
    (h : exec i s = .next t) (hpc : t.pc = s.pc + 17) : ReplacesTop s t := by
  cases i with
  | scSE0 d => exact shiftEmbedded_replacesTop (eq_ok_of_conclude_of_pc h hpc)
  | scSE1 d => exact shiftEmbedded_replacesTop (eq_ok_of_conclude_of_pc h hpc)
  | scSR0 => exact shiftRegister_replacesTop (eq_ok_of_conclude_of_pc h hpc)
  | scSR1 => exact shiftRegister_replacesTop (eq_ok_of_conclude_of_pc h hpc)
  | scRE d =>
    obtain ⟨v, rest, hstack, -, hrotate⟩ := pull1_bind_eq_ok.1 (eq_ok_of_conclude_of_pc h hpc)
    exact .of_rotateOnto hstack hrotate
  | scRR =>
    obtain ⟨v, x1, rest, hstack, -, hdistance⟩ := pull2_bind_eq_ok.1 (eq_ok_of_conclude_of_pc h hpc)
    obtain ⟨d, -, hrotate⟩ := bind_eq_ok.1 hdistance
    exact .of_rotateOnto hstack hrotate
  | scB =>
    obtain ⟨v, rest, hstack, -, hpush⟩ := pull1_bind_eq_ok.1 (eq_ok_of_conclude_of_pc h hpc)
    exact .of_pushAdvance hstack List.length_reverse hpush
  | _ => cases hfamily

/-- Settles O34: every instruction of the family that completes replaces its top item by one of the same size. -/
theorem circulateKeepsSize : Obligations.CirculateKeepsSize := by
  intro i s t v below hfamily hstack h hpc
  obtain ⟨u, _, r, rest, htop, hsize, rfl⟩ := replacesTop_of_isCirculate hfamily h hpc
  obtain ⟨rfl, -⟩ := List.cons.inj (hstack.symm.trans htop)
  exact ⟨r, rest, State.retire_stack .., hsize⟩

end Sys2Proof.Circulating

/-! PROOFS. The exception `NullDistance` (spec 60_exceptions.md R255). -/

namespace Sys2Proof.NullDistances

open Sys2Proof.Machine Sys2Proof.Circulating

/-! ### The register forms raise it

Each pulls the string and its distance and reads the distance before it uses either (R174, R176, R178). -/

theorem distanceArg_of_readsNull {s : State} {x : Item} (h : ReadsNull s x) :
    s.distanceArg x = raise .nullDistance [] := by
  have hread : s.intArg x = .ok none := intArg_eq_ok.2 (.inl ⟨rfl, h⟩)
  rw [State.distanceArg, hread, ok_bind]

/-- Whatever the instruction does with a distance, a null one throws before that. -/
theorem throws_of_null_distance {s : State} {v x1 : Item} {rest : List Item} (hpulled : Pulled s [v, x1] rest)
    (hnull : ReadsNull s x1) (use : Item → Int → List Item → Except Stop State) :
    Throws (s.conclude do
      let (v, x1, rest) ← s.pull2
      let d ← s.distanceArg x1
      use v d rest) .nullDistance := by
  simp only [pull2_of_pulled hpulled, ok_bind, distanceArg_of_readsNull hnull, raise_bind, conclude_raise]
  exact ⟨_, [], rfl, State.throw_thrown ..⟩

/-! ### The embedded forms do not

From a state without a mark, a throw comes from a raise of the pseudocode: an instruction of the family that completes
leaves the mark as it was. All that an embedded form can raise is the `RotateEmpty` of a rotation. -/

theorem thrown_eq_of_replacesTop {s t : State} (h : ReplacesTop s t) : t.thrown = s.thrown := by
  obtain ⟨_, _, _, _, -, -, rfl⟩ := h
  exact State.retire_thrown ..

theorem eq_raise_of_throws {s : State} {m : Except Stop State} {name : ExceptionName} (hmark : s.thrown = none)
    (hcompletes : ∀ t, m = .ok t → ReplacesTop s t) (h : Throws (s.conclude m) name) :
    ∃ info, m = .error (.raise ⟨name, info⟩) := by
  obtain ⟨t, info, hnext, hthrown⟩ := h
  rcases conclude_eq_next.1 hnext with hok | ⟨e, hraise, rfl⟩
  · rw [thrown_eq_of_replacesTop (hcompletes t hok), hmark] at hthrown
    cases hthrown
  · rw [State.throw_thrown] at hthrown
    cases hthrown
    exact ⟨info, hraise⟩

/-- A pull never raises, so a raise comes from what follows it. -/
theorem pull1_bind_eq_raise {s : State} {use : Item × List Item → Except Stop State} {e : Thrown}
    (h : (s.pull1 >>= use) = .error (.raise e)) : ∃ v rest, use (v, rest) = .error (.raise e) := by
  rcases bind_eq_error.1 h with hpull | ⟨⟨v, rest⟩, -, huse⟩
  · rcases pull1_eq_error hpull with ⟨hrefused, -⟩ | ⟨hrefused, -⟩ <;> cases hrefused
  · exact ⟨v, rest, huse⟩

theorem shiftEmbedded_ne_raise (f : Bit) (d : Int) (s : State) (e : Thrown) :
    shiftEmbedded f d s ≠ .error (.raise e) := by
  intro h
  obtain ⟨v, rest, hpush⟩ := pull1_bind_eq_raise h
  obtain ⟨hrefused, -⟩ := pushAdvance_eq_error hpush
  cases hrefused

theorem not_throws_shiftEmbedded {s : State} (hmark : s.thrown = none) (f : Bit) (d : Int) (name : ExceptionName) :
    ¬ Throws (s.conclude (shiftEmbedded f d s)) name := by
  intro h
  obtain ⟨info, hraise⟩ := eq_raise_of_throws hmark (fun _ => shiftEmbedded_replacesTop) h
  exact shiftEmbedded_ne_raise f d s _ hraise

/-- SC_RE throws `RotateEmpty` and nothing else (R177). -/
theorem eq_rotateEmpty_of_throws_scRE {s : State} (hmark : s.thrown = none) {d : Int} {name : ExceptionName}
    (h : Throws (exec (.scRE d) s) name) : name = .rotateEmpty := by
  obtain ⟨info, hraise⟩ := eq_raise_of_throws hmark (fun t hok => by
    obtain ⟨v, rest, hstack, -, hrotate⟩ := pull1_bind_eq_ok.1 hok
    exact .of_rotateOnto hstack hrotate) h
  obtain ⟨v, rest, hrotate⟩ := pull1_bind_eq_raise hraise
  rcases rotateOnto_eq_error hrotate with ⟨hempty, -⟩ | hrefused
  · cases hempty
    rfl
  · cases hrefused

/-- Settles O53: the three register forms by their common read of the distance; the embedded shifts throw nothing and the
embedded rotation something else; the three words with a null `s9` are decoded. -/
theorem nullDistanceThrown : Obligations.NullDistanceThrown := by
  refine ⟨fun s rest v x1 hpulled hnull => ⟨?_, ?_, ?_⟩, fun s d i hform hmark => ?_, by decide, by decide, by decide⟩
  · exact throws_of_null_distance hpulled hnull fun v d rest => s.pushAdvance rest (shift v d false)
  · exact throws_of_null_distance hpulled hnull fun v d rest => s.pushAdvance rest (shift v d true)
  · exact throws_of_null_distance hpulled hnull fun v d rest => rotateOnto rest v d s
  · simp only [List.mem_cons, List.not_mem_nil, or_false] at hform
    rcases hform with rfl | rfl | rfl
    · exact not_throws_shiftEmbedded hmark false d .nullDistance
    · exact not_throws_shiftEmbedded hmark true d .nullDistance
    · intro h
      cases eq_rotateEmpty_of_throws_scRE hmark h

end Sys2Proof.NullDistances

/-! PROOFS. Reading genspace: which bits a read gives, and the fetch of an instruction (spec 20_memory.md R41, R42, R46,
R49; 70_reset_and_hazards.md R281). -/

namespace Sys2Proof.Reading

open Sys2Proof.Machine

/-! ### The bits genspace holds

`Holds` speaks of a whole string; bit by bit, the strings that lie end to end join. -/

theorem holds_iff_forall_bit {s : State} {a : Int} {v : Item} :
    Holds s a v ↔ ∀ k, (h : k < v.length) →
      extentHas s.config.extent (a + (k : Nat)) = true ∧ s.genspace.readBit (a + (k : Nat)) = some v[k] := by
  unfold Holds
  rw [genspaceValid_iff]
  exact ⟨fun ⟨hvalid, hbits⟩ k h => ⟨hvalid k h, hbits k h⟩,
    fun hall => ⟨fun k h => (hall k h).1, fun k h => (hall k h).2⟩⟩

theorem holds_nil (s : State) (a : Int) : Holds s a [] :=
  ⟨genspaceValid_zero s a, fun _ h => absurd h (Nat.not_lt_zero _)⟩

/-- Every bit of two strings end to end lies in the first, or as far in the second as it lies past the first. -/
theorem holds_append {s : State} {a : Int} {u v : Item} :
    Holds s a (u ++ v) ↔ Holds s a u ∧ Holds s (a + u.length) v := by
  simp only [holds_iff_forall_bit, List.length_append]
  constructor
  · intro hall
    refine ⟨fun k hk => ?_, fun k hk => ?_⟩
    · simpa [List.getElem_append_left hk] using hall k (by omega)
    · simpa [add_assoc] using hall (u.length + k) (by omega)
  · rintro ⟨hu, hv⟩ k hk
    by_cases hin : k < u.length
    · simpa [List.getElem_append_left hin] using hu k hin
    · obtain ⟨j, rfl⟩ := Nat.exists_eq_add_of_le (Nat.le_of_not_lt hin)
      simpa [add_assoc] using hv j (by omega)

theorem valid_and_read_iff_holds {s : State} {a : Int} {n : Nat} {v : Item} :
    s.genspaceValid a n = true ∧ s.genspace.read a n = some v ↔ v.length = n ∧ Holds s a v := by
  rw [read_eq_some]
  constructor
  · rintro ⟨hvalid, rfl, hbits⟩
    exact ⟨rfl, hvalid, hbits⟩
  · rintro ⟨rfl, hvalid, hbits⟩
    exact ⟨hvalid, rfl, hbits⟩

/-! ### `MemRead` -/

theorem memRead_eq_ok_iff_holds {s : State} {a : Int} {n : Nat} {v : Item} :
    s.memRead a n = .ok v ↔ v.length = n ∧ Holds s a v :=
  memRead_eq_ok.trans valid_and_read_iff_holds

theorem memRead_length_eq_ok {s : State} {a : Int} {v : Item} : s.memRead a v.length = .ok v ↔ Holds s a v :=
  memRead_eq_ok_iff_holds.trans (and_iff_right rfl)

theorem memRead_eq_refuse_of_not_holds {s : State} {a : Int} {n : Nat}
    (h : ∀ v : Item, v.length = n → ¬ Holds s a v) : s.memRead a n = .error (.refuse (.accessOutside a n)) := by
  cases hread : s.memRead a n with
  | ok v =>
    obtain ⟨hlength, hholds⟩ := memRead_eq_ok_iff_holds.1 hread
    exact absurd hholds (h v hlength)
  | error e => rw [memRead_eq_error hread]

/-- Settles O25: a read completes exactly where genspace holds its result, and what genspace holds splits at any bit. -/
theorem memReadGivesTheBits : Obligations.MemReadGivesTheBits := by
  intro s a
  refine ⟨fun v => memRead_length_eq_ok, fun n => memRead_eq_refuse_of_not_holds,
    memRead_length_eq_ok.2 (holds_nil s a), fun u v => ?_⟩
  rw [← List.length_append, memRead_length_eq_ok, memRead_length_eq_ok, memRead_length_eq_ok]
  exact holds_append

/-! ### The fetch -/

theorem fetchWord_eq_ok {s : State} {w : Item} :
    s.fetchWord = .ok w ↔ w.length = instrSize ∧ Holds s s.pc w := by
  rw [← valid_and_read_iff_holds]
  unfold State.fetchWord
  split_ifs with hvalid
  · cases hread : s.genspace.read s.pc instrSize <;> simp [hvalid]
  · simp [hvalid]

theorem fetchWord_eq_error {s : State} {r : Refusal} (h : s.fetchWord = .error r) : r = .fetchOutside s.pc := by
  unfold State.fetchWord at h
  split at h
  · split at h <;> cases h
    rfl
  · cases h
    rfl

theorem fetchWord_eq_fetchOutside_of_not_holds {s : State}
    (h : ∀ w : Item, w.length = instrSize → ¬ Holds s s.pc w) : s.fetchWord = .error (.fetchOutside s.pc) := by
  cases hfetch : s.fetchWord with
  | ok w =>
    obtain ⟨hlength, hholds⟩ := fetchWord_eq_ok.1 hfetch
    exact absurd hholds (h w hlength)
  | error r => rw [fetchWord_eq_error hfetch]

/-- An instruction is not fetched when its word is not, or when the word is none (R49; 30_encoding.md R74). -/
theorem fetchInstr_eq_error {s : State} {r : Refusal} :
    s.fetchInstr = .error r ↔ s.fetchWord = .error r ∨
      ∃ w d, s.fetchWord = .ok w ∧ decode w = .error d ∧ r = decodeRefusal d := by
  unfold State.fetchInstr
  cases s.fetchWord with
  | error e => simp
  | ok w => cases hdecode : decode w <;> simp [hdecode, eq_comm]

/-- Without the mark and short of completion a step is the fetch and what was fetched (60_exceptions.md R251;
70_reset_and_hazards.md R284). -/
theorem step_eq_refused_of_fetchInstr {s : State} {r : Refusal} (hmark : s.thrown = none) (hruns : ¬ Complete s)
    (hfetch : s.fetchInstr = .error r) : step s = .refused r := by
  have hnotEnd : ¬ (s.config.endOfRun = some s.pc ∧ s.threw = false) :=
    fun ⟨hend, hthrew⟩ => hruns ⟨hend, hmark, hthrew⟩
  simp only [step, hmark, if_neg hnotEnd, hfetch]

theorem step_eq_refused_of_decode {s : State} {w : Item} {d : DecodeRefusal} (hmark : s.thrown = none)
    (hruns : ¬ Complete s) (hlength : w.length = instrSize) (hholds : Holds s s.pc w) (hdecode : decode w = .error d) :
    step s = .refused (decodeRefusal d) :=
  step_eq_refused_of_fetchInstr hmark hruns
    (fetchInstr_eq_error.2 (.inr ⟨w, d, fetchWord_eq_ok.2 ⟨hlength, hholds⟩, hdecode, rfl⟩))

/-- Settles O11: the word is not fetched, or is fetched and is no instruction. -/
theorem stepRefusesFetch : Obligations.StepRefusesFetch := by
  intro s hmark hruns
  refine ⟨fun hnone => ?_, fun w hlength hholds => ⟨fun hdecode => ?_, fun hdecode => ?_⟩⟩
  · exact step_eq_refused_of_fetchInstr hmark hruns
      (fetchInstr_eq_error.2 (.inl (fetchWord_eq_fetchOutside_of_not_holds hnone)))
  · exact step_eq_refused_of_decode hmark hruns hlength hholds hdecode
  · exact step_eq_refused_of_decode hmark hruns hlength hholds hdecode

end Sys2Proof.Reading

/-! PROOFS. Numbers in strings of bits: the numeric fields (spec 30_encoding.md R60, R64, R65, R77). -/

namespace Sys2Proof.NumericField

open Sys2Proof.Laws

/-! ### `natOfBits` and `bitsOfNat`

They are inverse to each other between the strings of one length and the numbers below its power of 2. -/

theorem natOfBits_lt (bs : List Bit) : natOfBits bs < 2 ^ bs.length := by
  induction bs with
  | nil => simp [natOfBits]
  | cons b bs ih =>
    have hb : b.toNat < 2 := Bool.toNat_lt b
    rw [natOfBits, List.length_cons, pow_succ]
    omega

theorem natOfBits_append (low high : List Bit) :
    natOfBits (low ++ high) = natOfBits low + 2 ^ low.length * natOfBits high := by
  induction low with
  | nil => simp [natOfBits]
  | cons b low ih => simp only [List.cons_append, natOfBits, ih, List.length_cons, pow_succ]; ring

theorem bitsOfNat_natOfBits (bs : List Bit) : bitsOfNat bs.length (natOfBits bs) = bs := by
  induction bs with
  | nil => rfl
  | cons b bs ih =>
    have hhead : ((b.toNat + 2 * natOfBits bs) % 2 == 1) = b := by cases b <;> simp
    have htail : (b.toNat + 2 * natOfBits bs) / 2 = natOfBits bs := by
      have hb : b.toNat < 2 := Bool.toNat_lt b
      omega
    rw [List.length_cons, natOfBits, bitsOfNat, hhead, htail, ih]

theorem natOfBits_bitsOfNat (k n : Nat) : natOfBits (bitsOfNat k n) = n % 2 ^ k := by
  induction k generalizing n with
  | zero => simp [bitsOfNat, natOfBits, Nat.mod_one]
  | succ k ih =>
    have hbit : (n % 2 == 1).toNat = n % 2 := by rcases Nat.mod_two_eq_zero_or_one n with h | h <;> simp [h]
    rw [bitsOfNat, natOfBits, ih, hbit, Nat.pow_succ', Nat.mod_mul]

theorem natOfBits_injective {f g : List Bit} (hlength : f.length = g.length) (h : natOfBits f = natOfBits g) : f = g := by
  rw [← bitsOfNat_natOfBits f, ← bitsOfNat_natOfBits g, hlength, h]

@[simp] theorem natOfBits_zeros (k : Nat) : natOfBits (zeros k) = 0 := by
  induction k with
  | zero => rfl
  | succ k ih =>
    rw [zeros] at ih
    simp [zeros, List.replicate_succ, natOfBits, ih]

theorem natOfBits_eq_zero_iff {bs : List Bit} : natOfBits bs = 0 ↔ bs = zeros bs.length := by
  constructor
  · intro h
    exact natOfBits_injective (length_zeros _).symm (by rw [h, natOfBits_zeros])
  · intro h
    rw [h, natOfBits_zeros]

/-- `Σ w[i]·2^i` (R60). -/
theorem natOfBits_eq_sum (bs : List Bit) :
    (natOfBits bs : Int) = ∑ i ∈ Finset.range bs.length, if bs.getD i false then (2 : Int) ^ i else 0 := by
  induction bs with
  | nil => simp [natOfBits]
  | cons b bs ih =>
    have hhigher : ∀ i, (if (b :: bs).getD (i + 1) false then (2 : Int) ^ (i + 1) else 0) =
        2 * if bs.getD i false then (2 : Int) ^ i else 0 := fun i => by
      rw [List.getD_cons_succ]
      split <;> ring
    rw [List.length_cons, Finset.sum_range_succ', Finset.sum_congr rfl fun i _ => hhigher i, ← Finset.mul_sum, ← ih,
      natOfBits]
    cases b <;> simp [add_comm]

/-! ### The signed fields (R65, R77): the sign bit is the last one -/

theorem signedOf_append_false (low : List Bit) : signedOf (low ++ [false]) = some (natOfBits low : Int) := by
  have hlt := natOfBits_lt low
  have hvalue : natOfBits (low ++ [false]) = natOfBits low := by simp [natOfBits_append, natOfBits]
  simp [signedOf, hvalue, hlt, hlt.ne]

theorem signedOf_append_true (low : List Bit) :
    signedOf (low ++ [true]) = if natOfBits low = 0 then none else some ((natOfBits low : Int) - 2 ^ low.length) := by
  have hvalue : natOfBits (low ++ [true]) = natOfBits low + 2 ^ low.length := by simp [natOfBits_append, natOfBits]
  simp only [signedOf, hvalue, List.length_append, List.length_singleton, Nat.add_sub_cancel]
  by_cases hzero : natOfBits low = 0
  · simp [hzero]
  · rw [if_neg (by omega), if_neg (by omega), if_neg hzero]
    congr 1
    push_cast
    ring

theorem signedOf_nullBits (k : Nat) : signedOf (nullBits (k + 1)) = none := by
  rw [nullBits, Nat.add_sub_cancel, signedOf_append_true, if_pos (natOfBits_zeros k)]

/-- A field with an integer is −(2^(k−1) − 1)…2^(k−1) − 1, `k` its size. -/
theorem signedOf_bounds {bs : List Bit} {z : Int} (h : signedOf bs = some z) :
    -(2 ^ (bs.length - 1)) < z ∧ z < 2 ^ (bs.length - 1) := by
  rcases List.eq_nil_or_concat bs with rfl | ⟨low, sign, rfl⟩
  · obtain rfl : (0 : Int) = z := by simpa [signedOf, natOfBits] using h
    simp
  · have hlt : (natOfBits low : Int) < 2 ^ low.length := by exact_mod_cast natOfBits_lt low
    rw [List.concat_eq_append] at h ⊢
    rw [List.length_append, List.length_singleton, Nat.add_sub_cancel]
    cases sign with
    | false =>
      obtain rfl := Option.some.inj ((signedOf_append_false low).symm.trans h)
      omega
    | true =>
      rw [signedOf_append_true] at h
      split at h
      · cases h
      · obtain rfl := Option.some.inj h
        omega

/-- Settles O8: the value by the last bit of the field, the bounds, and the sum of an unsigned field. -/
theorem numericFields : Obligations.NumericFields := by
  refine ⟨signedOf_append_false, fun low hlow => ?_, fun k => ?_, fun bs z _ h => signedOf_bounds h, natOfBits_eq_sum⟩
  · rw [signedOf_append_true, if_neg fun hzero => hlow (natOfBits_eq_zero_iff.1 hzero)]
  · have hnull := signedOf_nullBits k
    rwa [nullBits, Nat.add_sub_cancel] at hnull

/-! ### Writing a field and reading it back (R64, R65) -/

theorem natOfBits_signedBits (k : Nat) (z : Int) : (natOfBits (signedBits k z) : Int) = z % 2 ^ k := by
  have hpos : (0 : Int) < 2 ^ k := by positivity
  have hnonneg := Int.emod_nonneg z hpos.ne'
  have hlt : (z % 2 ^ k).toNat < 2 ^ k := by
    have := Int.emod_lt_of_pos z hpos
    zify
    omega
  rw [signedBits, natOfBits_bitsOfNat, Nat.cast_pow, Nat.cast_ofNat, Nat.mod_eq_of_lt hlt, Int.toNat_of_nonneg hnonneg]

theorem signedOf_signedBits {k : Nat} {z : Int} (hlow : -(2 ^ k) < z) (hhigh : z < 2 ^ k) :
    signedOf (signedBits (k + 1) z) = some z := by
  have hvalue := natOfBits_signedBits (k + 1) z
  rw [pow_succ] at hvalue
  have hhalf : ((2 ^ k : Nat) : Int) = 2 ^ k := by push_cast; rfl
  simp only [signedOf, length_signedBits, Nat.add_sub_cancel]
  rcases le_or_gt 0 z with hz | hz
  · rw [Int.emod_eq_of_lt hz (by omega)] at hvalue
    rw [if_neg (by omega), if_pos (by omega), hvalue]
  · rw [← Int.add_emod_right, Int.emod_eq_of_lt (by omega) (by omega)] at hvalue
    rw [if_neg (by omega), if_neg (by omega), hvalue]
    congr 1
    push_cast
    ring

theorem signedBits_of_signedOf {bs : List Bit} {z : Int} (hbs : bs ≠ []) (h : signedOf bs = some z) :
    signedBits bs.length z = bs := by
  obtain ⟨k, hk⟩ := Nat.exists_eq_succ_of_ne_zero (mt List.length_eq_zero_iff.1 hbs)
  have hlt := natOfBits_lt bs
  rw [hk] at hlt
  have hvalue : z % 2 ^ (k + 1) = natOfBits bs := by
    simp only [signedOf, hk, Nat.succ_eq_add_one, Nat.add_sub_cancel] at h
    have hlt' : (natOfBits bs : Int) < 2 ^ (k + 1) := by exact_mod_cast hlt
    split at h
    · cases h
    · split at h
      · obtain rfl := Option.some.inj h
        exact Int.emod_eq_of_lt (by omega) hlt'
      · obtain rfl := Option.some.inj h
        rw [← Int.add_emod_right]
        push_cast
        rw [pow_succ] at hlt' ⊢
        rw [show (natOfBits bs : Int) - 2 * 2 ^ k + 2 ^ k * 2 = natOfBits bs by ring]
        exact Int.emod_eq_of_lt (by omega) hlt'
  refine natOfBits_injective (length_signedBits ..) (Int.ofNat.inj ?_)
  rw [Int.ofNat_eq_natCast, Int.ofNat_eq_natCast, natOfBits_signedBits, hk, hvalue]

theorem eq_nullBits_of_signedOf {bs : List Bit} (hbs : bs ≠ []) (h : signedOf bs = none) : bs = nullBits bs.length := by
  rcases List.eq_nil_or_concat bs with rfl | ⟨low, sign, rfl⟩
  · exact absurd rfl hbs
  · rw [List.concat_eq_append] at h ⊢
    cases sign with
    | false => rw [signedOf_append_false] at h; cases h
    | true =>
      rw [signedOf_append_true] at h
      split at h
      · rw [nullBits, List.length_append, List.length_singleton, Nat.add_sub_cancel, ← natOfBits_eq_zero_iff.1 ‹_›]
      · cases h

theorem ofNat_natOfBits_u8Bits (u8 : BitVec 8) : BitVec.ofNat 8 (natOfBits (u8Bits u8)) = u8 := by
  rw [u8Bits, natOfBits_bitsOfNat, Nat.mod_eq_of_lt u8.isLt, BitVec.ofNat_toNat, BitVec.setWidth_eq]

theorem u8Bits_ofNat_natOfBits {f : List Bit} (hf : f.length = 8) : u8Bits (BitVec.ofNat 8 (natOfBits f)) = f := by
  have hlt := natOfBits_lt f
  rw [hf] at hlt
  rw [u8Bits, BitVec.toNat_ofNat, Nat.mod_eq_of_lt hlt, ← hf, bitsOfNat_natOfBits]

end Sys2Proof.NumericField

/-! PROOFS. The decoder and the encoder (spec 30_encoding.md R69 to R75). -/

namespace Sys2Proof.Encoding

open Sys2Proof.Laws Sys2Proof.EmbeddedStrings Sys2Proof.NumericField

/-! ### A 17-bit word is a field and the bits above it -/

/-- The bits from `w[k]` up to `w[16]`. -/
def bitsAbove (w : Item) (k : Nat) : List Bit := (List.range' k (instrSize - k)).map (wbit w)

theorem take_append_bitsAbove {w : Item} (hlength : w.length = instrSize) (k : Nat) : w.take k ++ bitsAbove w k = w := by
  have hdrop : bitsAbove w k = w.drop k := by
    refine List.ext_getElem (by simp [bitsAbove, hlength]) fun i _ hi => ?_
    rw [List.length_drop] at hi
    simp only [bitsAbove, List.getElem_map, List.getElem_range', List.getElem_drop, wbit, one_mul]
    exact List.getD_eq_getElem w false (by omega)
  rw [hdrop, List.take_append_drop]

theorem bitsAbove_eq_cons {w : Item} {k : Nat} {b : Bit} {tail : List Bit} (hk : k < 17) (hbit : wbit w k = b)
    (htail : bitsAbove w (k + 1) = tail) : bitsAbove w k = b :: tail := by
  have hsize : instrSize - k = (instrSize - (k + 1)) + 1 := by
    unfold instrSize
    omega
  rw [bitsAbove, hsize, List.range'_succ, List.map_cons, hbit, ← htail, bitsAbove]

/-- Three bits and those above them. -/
theorem bitsAbove_cons₃ {w : Item} {k : Nat} {p q r : Bit} {tail : List Bit} (hp : wbit w k = p)
    (hq : wbit w (k + 1) = q) (hr : wbit w (k + 2) = r) (htail : bitsAbove w (k + 3) = tail) (hk : k < 15 := by decide) :
    bitsAbove w k = p :: q :: r :: tail :=
  bitsAbove_eq_cons (by omega) hp (bitsAbove_eq_cons (by omega) hq (bitsAbove_eq_cons (by omega) hr htail))

/-! ### The fields of a word, written again -/

/-- A signed field of `k` bits, null as none (R65, R77). -/
def signedField (k : Nat) : Option Int → List Bit
  | none => nullBits k
  | some z => signedBits k z

/-- An embedded-string field of `k` bits, no string as none (R66, R67). -/
def embeddedField (k : Nat) : Option Item → List Bit
  | none => zeros k
  | some v => embeddedBits k v

theorem signedField_signedOf {f : List Bit} (hf : f ≠ []) : signedField f.length (signedOf f) = f := by
  cases hvalue : signedOf f with
  | none => exact (eq_nullBits_of_signedOf hf hvalue).symm
  | some z => exact signedBits_of_signedOf hf hvalue

theorem embeddedField_embeddedOf (f : List Bit) : embeddedField f.length (embeddedOf f) = f := by
  cases hvalue : embeddedOf f with
  | none => exact (eq_zeros_of_embeddedOf_eq_none hvalue).symm
  | some v => exact (eq_embeddedBits_of_embeddedOf_eq_some hvalue).2.symm

section

variable {w : Item} (hlength : w.length = instrSize)

include hlength

theorem length_take_word {k : Nat} (hk : k ≤ 17) : (w.take k).length = k := by
  rw [List.length_take, hlength]
  exact Nat.min_eq_left hk

theorem u8Bits_u8Of : u8Bits (u8Of w) = w.take 8 := u8Bits_ofNat_natOfBits (length_take_word hlength (by decide))

theorem zeros_of_u8Of (h : u8Of w = 0) : zeros 8 = w.take 8 := by
  rw [← u8Bits_u8Of hlength, h]
  rfl

theorem signedField_take {k : Nat} (hk : k + 1 ≤ 17) : signedField (k + 1) (signedOf (w.take (k + 1))) = w.take (k + 1) := by
  have hsize := length_take_word hlength hk
  have hne : w.take (k + 1) ≠ [] := fun hnil => by
    rw [hnil] at hsize
    cases hsize
  have hfield := signedField_signedOf hne
  rwa [hsize] at hfield

theorem embeddedField_take {k : Nat} (hk : k ≤ 17) : embeddedField k (embeddedOf (w.take k)) = w.take k := by
  have hfield := embeddedField_embeddedOf (w.take k)
  rwa [length_take_word hlength hk] at hfield

end

/-! ### What a field of any word can hold (R65 to R67, R77) -/

theorem signedOf_take_bounds {w : Item} {k : Nat} {z : Int} (h : signedOf (w.take (k + 1)) = some z) :
    -(2 ^ k) < z ∧ z < 2 ^ k := by
  obtain ⟨hlow, hhigh⟩ := signedOf_bounds h
  have hle : (2 : Int) ^ ((w.take (k + 1)).length - 1) ≤ 2 ^ k :=
    pow_le_pow_right₀ (by decide) (by rw [List.length_take]; omega)
  omega

theorem s9Ok_s9Of (w : Item) : (s9Of w).all s9Ok = true := by
  rw [Option.all_eq_true]
  intro s9 hs9
  obtain ⟨hlow, hhigh⟩ := signedOf_take_bounds hs9
  norm_num at hlow hhigh
  simp only [s9Ok, decide_eq_true_eq]
  omega

theorem s12Ok_signedOf_take (w : Item) : (signedOf (w.take 12)).all s12Ok = true := by
  rw [Option.all_eq_true]
  intro s12 hs12
  obtain ⟨hlow, hhigh⟩ := signedOf_take_bounds hs12
  norm_num at hlow hhigh
  simp only [s12Ok, decide_eq_true_eq]
  omega

theorem length_of_embeddedOf_take {w b : Item} {k : Nat} (h : embeddedOf (w.take (k + 1)) = some b) : b.length ≤ k := by
  obtain ⟨hlt, -⟩ := eq_embeddedBits_of_embeddedOf_eq_some h
  rw [List.length_take] at hlt
  omega

theorem b9Ok_b9Of (w : Item) : (b9Of w).all b9Ok = true := by
  rw [Option.all_eq_true]
  exact fun _ hb9 => decide_eq_true (length_of_embeddedOf_take hb9)

theorem b12Ok_embeddedOf_take (w : Item) : b12Ok (embeddedOf (w.take 12)) = true := by
  cases h : embeddedOf (w.take 12) with
  | none => rfl
  | some b => exact decide_eq_true (length_of_embeddedOf_take h)

/-! ### What the decoder answers -/

/-- `i` is well formed, and a 17-bit `w` is its encoding, but for an instruction with several words. -/
def ReadFrom (w : Item) (i : Instr) : Prop :=
  i.wf = true ∧ (w.length = instrSize → hasSeveralWords i = false → encode i = w)

namespace ReadFrom

variable {w : Item} {i : Instr} {tail : List Bit}

/-- The instruction's field is that of the word, and the bits above it are those of the word. -/
theorem of_field {k : Nat} {field : List Bit} (hwf : i.wf = true) (hfield : w.length = instrSize → field = w.take k)
    (hencode : encode i = field ++ tail) (hbits : bitsAbove w k = tail) : ReadFrom w i :=
  ⟨hwf, fun hlength _ => by rw [hencode, hfield hlength, ← hbits, take_append_bitsAbove hlength]⟩

theorem size (hwf : i.wf = true) (hencode : encode i = u8Bits (u8Of w) ++ tail) (hbits : bitsAbove w 8 = tail) :
    ReadFrom w i :=
  of_field hwf u8Bits_u8Of hencode hbits

/-- The twin with a size and the one without (R70). -/
theorem size_or_register (embedded : BitVec 8 → Instr) (register : Instr) (hwf : ∀ u8, (embedded u8).wf = sizeFieldOk u8)
    (hregister : register.wf = true) (hencode : ∀ u8, encode (embedded u8) = u8Bits u8 ++ tail)
    (hencodeRegister : encode register = zeros 8 ++ tail) (hbits : bitsAbove w 8 = tail) :
    ReadFrom w (if u8Of w = 0 then register else embedded (u8Of w)) := by
  split
  · next hzero =>
    exact of_field hregister (zeros_of_u8Of · hzero) hencodeRegister hbits
  · next hsize => exact size (by simpa [hwf, sizeFieldOk] using hsize) (hencode _) hbits

theorem zero (hzero : u8Of w = 0) (hwf : i.wf = true) (hencode : encode i = zeros 8 ++ tail)
    (hbits : bitsAbove w 8 = tail) : ReadFrom w i :=
  of_field hwf (zeros_of_u8Of · hzero) hencode hbits

/-- With an embedded `s9`, or the twin of the null one (R70). -/
theorem signed {o : Option Int} (hs9 : s9Of w = o) (hwf : i.wf = o.all s9Ok) (hencode : encode i = signedField 9 o ++ tail)
    (hbits : bitsAbove w 9 = tail) : ReadFrom w i := by
  subst hs9
  exact of_field (hwf.trans (s9Ok_s9Of w)) (signedField_take · (by decide)) hencode hbits

/-- With an embedded offset, plain or synchronized by `w[9]` (R71). -/
theorem offset {plain sync : Instr} {s9 : Int} (hs9 : s9Of w = some s9) (hwfPlain : plain.wf = s9Ok s9)
    (hwfSync : sync.wf = s9Ok s9) (hencodePlain : encode plain = signedBits 9 s9 ++ false :: tail)
    (hencodeSync : encode sync = signedBits 9 s9 ++ true :: tail) (hbits : bitsAbove w 10 = tail) :
    ReadFrom w (if wbit w 9 then sync else plain) := by
  cases h9 : wbit w 9 with
  | false => exact signed hs9 hwfPlain hencodePlain (bitsAbove_eq_cons (by decide) h9 hbits)
  | true => exact signed hs9 hwfSync hencodeSync (bitsAbove_eq_cons (by decide) h9 hbits)

/-- With an embedded `b9`, or the twin of the field without a string (R70). -/
theorem string {o : Option Item} (hb9 : b9Of w = o) (hwf : i.wf = o.all b9Ok) (hencode : encode i = embeddedField 9 o ++ tail)
    (hbits : bitsAbove w 9 = tail) : ReadFrom w i := by
  subst hb9
  exact of_field (hwf.trans (b9Ok_b9Of w)) (embeddedField_take · (by decide)) hencode hbits

/-- An instruction with several words is only held to be well formed. -/
theorem several (hwf : i.wf = true) (hseveral : hasSeveralWords i = true) : ReadFrom w i :=
  ⟨hwf, fun _ hone => by rw [hseveral] at hone; cases hone⟩

/-- Format E12 with its field `b12` (R67, R73). -/
theorem sgE (hbits : bitsAbove w 12 = [true, false, false, false, true]) :
    ReadFrom w (.sgE (embeddedOf (w.take 12))) := by
  have hencode : ∀ o, encode (.sgE o) = embeddedField 12 o ++ [true, false, false, false, true] := fun o => by
    cases o <;> rfl
  exact of_field (b12Ok_embeddedOf_take w) (embeddedField_take · (by decide)) (hencode _) hbits

/-- Format E12 with its field `s12`, or SM_Z for the null one (R77, R154). -/
theorem signed12 {o : Option Int} (hs12 : signedOf (w.take 12) = o) (hwf : i.wf = o.all s12Ok)
    (hencode : encode i = signedField 12 o ++ tail) (hbits : bitsAbove w 12 = tail) : ReadFrom w i := by
  subst hs12
  exact of_field (hwf.trans (s12Ok_signedOf_take w)) (signedField_take · (by decide)) hencode hbits

end ReadFrom

/-! ### The register-to-register string group (R72) -/

section

variable {w : Item}

theorem decodeT9_readFrom (hgroup : bitsAbove w 12 = [true, false, true, false, true]) : ReadFrom w (decodeT9 w) := by
  unfold decodeT9
  split
  · next h9 h10 h11 => split <;> next hfield => exact .string hfield rfl rfl (bitsAbove_cons₃ h9 h10 h11 hgroup)
  · next h9 h10 h11 => split <;> next hfield => exact .signed hfield rfl rfl (bitsAbove_cons₃ h9 h10 h11 hgroup)
  · next h9 h10 h11 => split <;> next hfield => exact .signed hfield rfl rfl (bitsAbove_cons₃ h9 h10 h11 hgroup)
  · next h9 h10 h11 => split <;> next hfield => exact .signed hfield rfl rfl (bitsAbove_cons₃ h9 h10 h11 hgroup)
  · next h9 h10 h11 => split <;> next hfield => exact .string hfield rfl rfl (bitsAbove_cons₃ h9 h10 h11 hgroup)
  · next h9 h10 h11 => split <;> next hfield => exact .string hfield rfl rfl (bitsAbove_cons₃ h9 h10 h11 hgroup)
  · next h9 h10 h11 => split <;> next hfield => exact .string hfield rfl rfl (bitsAbove_cons₃ h9 h10 h11 hgroup)
  · next h9 h10 h11 => split <;> next hfield => exact .string hfield rfl rfl (bitsAbove_cons₃ h9 h10 h11 hgroup)

theorem decodeT8_readFrom (hgroup : bitsAbove w 11 = [false, false, false, true, false, true]) :
    ReadFrom w (decodeT8 w) := by
  unfold decodeT8
  split
  · next h8 h9 h10 =>
    exact .size_or_register .smE0 .smR0 (fun _ => rfl) rfl (fun _ => rfl) rfl (bitsAbove_cons₃ h8 h9 h10 hgroup)
  · next h8 h9 h10 =>
    exact .size_or_register .smE1 .smR1 (fun _ => rfl) rfl (fun _ => rfl) rfl (bitsAbove_cons₃ h8 h9 h10 hgroup)
  · next h8 h9 h10 =>
    exact .size_or_register .srE0 .srR0 (fun _ => rfl) rfl (fun _ => rfl) rfl (bitsAbove_cons₃ h8 h9 h10 hgroup)
  · next h8 h9 h10 =>
    exact .size_or_register .srE1 .srR1 (fun _ => rfl) rfl (fun _ => rfl) rfl (bitsAbove_cons₃ h8 h9 h10 hgroup)
  · next h8 h9 h10 => exact .size rfl rfl (bitsAbove_cons₃ h8 h9 h10 hgroup)
  · next h8 h9 h10 => exact .size rfl rfl (bitsAbove_cons₃ h8 h9 h10 hgroup)
  · next h8 h9 h10 => exact .size rfl rfl (bitsAbove_cons₃ h8 h9 h10 hgroup)
  · next h8 h9 h10 => exact .size rfl rfl (bitsAbove_cons₃ h8 h9 h10 hgroup)

theorem decodeZ_readFrom (w : Item) : ReadFrom w (decodeZ w) := by
  unfold decodeZ
  split <;> exact .several rfl rfl

theorem decodeU8_readFrom (hgroup : bitsAbove w 11 = [true, false, false, true, false, true]) :
    ReadFrom w (decodeU8 w) := by
  unfold decodeU8
  split
  · exact decodeZ_readFrom w
  · next h8 h9 h10 => exact .size rfl rfl (bitsAbove_cons₃ h8 h9 h10 hgroup)
  · next h8 h9 h10 => exact .size rfl rfl (bitsAbove_cons₃ h8 h9 h10 hgroup)
  · next h8 h9 h10 =>
    exact .size_or_register .so0Q .so0R (fun _ => rfl) rfl (fun _ => rfl) rfl (bitsAbove_cons₃ h8 h9 h10 hgroup)
  · next h8 h9 h10 => exact .size rfl rfl (bitsAbove_cons₃ h8 h9 h10 hgroup)
  · next h8 h9 h10 =>
    exact .size_or_register .so1Q .so1R (fun _ => rfl) rfl (fun _ => rfl) rfl (bitsAbove_cons₃ h8 h9 h10 hgroup)
  · next h8 h9 h10 => exact .size rfl rfl (bitsAbove_cons₃ h8 h9 h10 hgroup)
  · next h8 h9 h10 =>
    exact .size_or_register .seS .seR (fun _ => rfl) rfl (fun _ => rfl) rfl (bitsAbove_cons₃ h8 h9 h10 hgroup)

theorem decodeString_readFrom (hgroup : bitsAbove w 13 = [false, true, false, true]) : ReadFrom w (decodeString w) := by
  unfold decodeString
  cases h12 : wbit w 12 with
  | true => exact decodeT9_readFrom (bitsAbove_eq_cons (by decide) h12 hgroup)
  | false =>
    have habove := bitsAbove_eq_cons (by decide) h12 hgroup
    cases h11 : wbit w 11 with
    | true => exact decodeU8_readFrom (bitsAbove_eq_cons (by decide) h11 habove)
    | false => exact decodeT8_readFrom (bitsAbove_eq_cons (by decide) h11 habove)

/-! ### The memory group (R71) -/

variable {i : Instr}

theorem decodeGet_readFrom (hgroup : bitsAbove w 11 = [true, false, true, true, false, true])
    (h : decodeGet w = .ok i) : ReadFrom w i := by
  unfold decodeGet at h
  cases h10 : wbit w 10 with
  | false =>
    rw [h10, if_neg Bool.false_ne_true] at h
    split at h
    · next h9 h8 =>
      cases h
      exact .size_or_register .sgAE .sgAR (fun _ => rfl) rfl (fun _ => rfl) rfl (bitsAbove_cons₃ h8 h9 h10 hgroup)
    · next h9 h8 =>
      cases h
      exact .size_or_register .sgAEY .sgARY (fun _ => rfl) rfl (fun _ => rfl) rfl (bitsAbove_cons₃ h8 h9 h10 hgroup)
    · next h9 h8 =>
      cases h
      exact .size_or_register .sgRS .sgRR (fun _ => rfl) rfl (fun _ => rfl) rfl (bitsAbove_cons₃ h8 h9 h10 hgroup)
    · next h9 h8 =>
      cases h
      exact .size_or_register .sgRSY .sgRRY (fun _ => rfl) rfl (fun _ => rfl) rfl (bitsAbove_cons₃ h8 h9 h10 hgroup)
  | true =>
    rw [h10, if_pos rfl] at h
    split at h
    · cases h
    · next s9 hs9 =>
      cases h
      exact .offset hs9 rfl rfl rfl rfl (bitsAbove_eq_cons (by decide) h10 hgroup)

/-- A Put and a Get and conditional put are read alike, but for their instructions (R71, 90_conflicts.md C6). -/
def putForm (w : Item) (abs absY reg regY : Instr) (off offY : Int → Instr) : Except DecodeRefusal Instr :=
  if wbit w 10 then
    match s9Of w with
    | none => .ok (if wbit w 9 then regY else reg)
    | some s9 => .ok (if wbit w 9 then offY s9 else off s9)
  else if u8Of w = 0 then
    match wbit w 9, wbit w 8 with
    | false, false => .ok abs
    | false, true => .ok absY
    | true, false => .ok reg
    | true, true => .ok regY
  else .error .unassignedEncoding

theorem decodePut_eq_putForm (w : Item) : decodePut w = putForm w .spA .spAY .spRR .spRRY .spRO .spROY := rfl

theorem decodeGetPut_eq_putForm (w : Item) : decodeGetPut w = putForm w .sgpA .sgpAY .sgpRR .sgpRRY .sgpRO .sgpROY := rfl

/-- A decoder of this form reads an instruction that is written back, where the rows of its instructions are given. -/
theorem putForm_readFrom {abs absY reg regY : Instr} {off offY : Int → Instr} {dir : List Bit}
    (habs : ∀ {w}, u8Of w = 0 → bitsAbove w 8 = [false, false, false] ++ dir → ReadFrom w abs)
    (habsY : ∀ {w}, u8Of w = 0 → bitsAbove w 8 = [true, false, false] ++ dir → ReadFrom w absY)
    (hreg : ∀ {w}, ReadFrom w reg) (hregY : ∀ {w}, ReadFrom w regY)
    (hoff : ∀ {w s9}, s9Of w = some s9 → bitsAbove w 10 = true :: dir →
      ReadFrom w (if wbit w 9 then offY s9 else off s9))
    (hgroup : bitsAbove w 11 = dir) (h : putForm w abs absY reg regY off offY = .ok i) : ReadFrom w i := by
  unfold putForm at h
  cases h10 : wbit w 10 with
  | false =>
    rw [h10, if_neg Bool.false_ne_true] at h
    split at h
    · next hzero =>
      split at h
      · next h9 h8 => cases h; exact habs hzero (bitsAbove_cons₃ h8 h9 h10 hgroup)
      · next h9 h8 => cases h; exact habsY hzero (bitsAbove_cons₃ h8 h9 h10 hgroup)
      · cases h; exact hreg
      · cases h; exact hregY
    · cases h
  | true =>
    rw [h10, if_pos rfl] at h
    split at h
    · cases h
      split
      · exact hregY
      · exact hreg
    · next s9 hs9 =>
      cases h
      exact hoff hs9 (bitsAbove_eq_cons (by decide) h10 hgroup)

theorem decodePut_readFrom (hgroup : bitsAbove w 11 = [false, true, true, true, false, true])
    (h : decodePut w = .ok i) : ReadFrom w i :=
  putForm_readFrom (.zero · rfl rfl ·) (.zero · rfl rfl ·) (.several rfl rfl) (.several rfl rfl)
    (.offset · rfl rfl rfl rfl ·) hgroup (decodePut_eq_putForm w ▸ h)

theorem decodeGetPut_readFrom (hgroup : bitsAbove w 11 = [true, true, true, true, false, true])
    (h : decodeGetPut w = .ok i) : ReadFrom w i :=
  putForm_readFrom (.zero · rfl rfl ·) (.zero · rfl rfl ·) (.several rfl rfl) (.several rfl rfl)
    (.offset · rfl rfl rfl rfl ·) hgroup (decodeGetPut_eq_putForm w ▸ h)

theorem decodeMemory_readFrom (hgroup : bitsAbove w 13 = [true, true, false, true])
    (h : decodeMemory w = .ok i) : ReadFrom w i := by
  have hdir : ∀ {p q}, wbit w 11 = p → wbit w 12 = q → bitsAbove w 11 = [p, q, true, true, false, true] :=
    fun h11 h12 => bitsAbove_eq_cons (by decide) h11 (bitsAbove_eq_cons (by decide) h12 hgroup)
  unfold decodeMemory at h
  split at h
  · next h11 h12 => exact decodeGet_readFrom (hdir h11 h12) h
  · next h11 h12 => exact decodePut_readFrom (hdir h11 h12) h
  · next h11 h12 => exact decodeGetPut_readFrom (hdir h11 h12) h
  · cases h

/-! ### Format E12 and the whole decoder (R73, R75) -/

theorem decodeE12_readFrom (hgroup : bitsAbove w 14 = [false, false, true]) (h : decodeE12 w = .ok i) : ReadFrom w i := by
  have htail : ∀ {p q}, wbit w 12 = p → wbit w 13 = q → bitsAbove w 12 = [p, q, false, false, true] :=
    fun h12 h13 => bitsAbove_eq_cons (by decide) h12 (bitsAbove_eq_cons (by decide) h13 hgroup)
  unfold decodeE12 at h
  split at h
  · next h12 h13 =>
    cases h
    exact .sgE (htail h12 h13)
  · next h12 h13 =>
    split at h
    · next hs12 => cases h; exact .signed12 hs12 rfl rfl (htail h12 h13)
    · next hs12 => cases h; exact .signed12 hs12 rfl rfl (htail h12 h13)
  · cases h

theorem decode_readFrom (h : decode w = .ok i) : ReadFrom w i := by
  have hgroup : ∀ {p}, wbit w 14 = p → wbit w 15 = false → wbit w 16 = true → bitsAbove w 14 = [p, false, true] :=
    fun h14 h15 h16 => bitsAbove_cons₃ h14 h15 h16 rfl
  unfold decode at h
  split at h
  · next h14 h15 h16 => exact decodeE12_readFrom (hgroup h14 h15 h16) h
  · next h14 h15 h16 =>
    have habove : ∀ {p}, wbit w 13 = p → bitsAbove w 13 = [p, true, false, true] :=
      fun h13 => bitsAbove_eq_cons (by decide) h13 (hgroup h14 h15 h16)
    split at h
    · next h13 => exact decodeMemory_readFrom (habove h13) h
    · next h13 =>
      cases h
      exact decodeString_readFrom (habove (Bool.eq_false_of_not_eq_true h13))
  · cases h

end

/-- Settles O2: whatever the word, each field it holds is one its instruction can hold. -/
theorem decodedInstructionsAreWellFormed : Obligations.DecodedInstructionsAreWellFormed := by
  intro w i h
  obtain ⟨hwf, -⟩ := decode_readFrom h
  exact hwf

/-- Settles O3: the field the decoder read and the bits it matched are what the encoder writes. -/
theorem encodeDecodeGivesTheWord : Obligations.EncodeDecodeGivesTheWord := by
  intro w i hlength h hone
  obtain ⟨-, hencode⟩ := decode_readFrom h
  exact hencode hlength hone

end Sys2Proof.Encoding

/-! PROOFS. Encoding and decoding agree, and the words outside the chapter (spec 30_encoding.md R70 to R77). -/

namespace Sys2Proof.Encoding

open Sys2Proof.Laws Sys2Proof.EmbeddedStrings Sys2Proof.NumericField

/-! ### The encoder's fields, read again (R64 to R67, R77) -/

@[simp] theorem u8Of_u8Bits_append (u8 : BitVec 8) (tail : List Bit) : u8Of (u8Bits u8 ++ tail) = u8 := by
  rw [u8Of, List.take_left' (length_u8Bits u8), ofNat_natOfBits_u8Bits]

theorem s9Of_signedBits_append {s9 : Int} (h : s9Ok s9 = true) (tail : List Bit) :
    s9Of (signedBits 9 s9 ++ tail) = some s9 := by
  have hbounds := of_decide_eq_true h
  rw [s9Of, List.take_left' (length_signedBits 9 s9)]
  exact signedOf_signedBits (by norm_num; omega) (by norm_num; omega)

theorem signedOf_signedBits_of_s12Ok {s12 : Int} (h : s12Ok s12 = true) : signedOf (signedBits 12 s12) = some s12 := by
  have hbounds := of_decide_eq_true h
  exact signedOf_signedBits (by norm_num; omega) (by norm_num; omega)

theorem ne_zero_of_sizeFieldOk {u8 : BitVec 8} (h : sizeFieldOk u8 = true) : u8 ≠ 0#8 := bne_iff_ne.1 h

/-- Settles O1, by the format of the word: the bits above the field lead to the row, where the field is read again. The
instructions without a field have one fixed word each. -/
theorem decodeEncodeAgree : Obligations.DecodeEncodeAgree := by
  intro i hwf
  cases i with
  | sgE b12 =>
    cases b12 with
    | none => rfl
    | some b =>
      have hword := decode_sgE_field (length_embeddedBits (k := 12) (Nat.lt_succ_of_le (of_decide_eq_true hwf)))
      rwa [embeddedOf_embeddedBits] at hword
  | igE s12 => simp [encode, decode, decodeE12, wbit, signedOf_signedBits_of_s12Ok hwf]
  | sgAE u8 | sgAEY u8 | sgRS u8 | sgRSY u8 =>
    simp [encode, decode, decodeMemory, decodeGet, wbit, ne_zero_of_sizeFieldOk hwf]
  | sgRO s9 | sgROY s9 => simp [encode, decode, decodeMemory, decodeGet, wbit, s9Of_signedBits_append hwf]
  | spRO s9 | spROY s9 => simp [encode, decode, decodeMemory, decodePut, wbit, s9Of_signedBits_append hwf]
  | sgpRO s9 | sgpROY s9 => simp [encode, decode, decodeMemory, decodeGetPut, wbit, s9Of_signedBits_append hwf]
  | scSE0 s9 | scSE1 s9 | scRE s9 => simp [encode, decode, decodeString, decodeT9, wbit, s9Of_signedBits_append hwf]
  | svE b9 => exact decode_b9_embeddedBits .sv (of_decide_eq_true hwf)
  | soS b9 => exact decode_b9_embeddedBits .so (of_decide_eq_true hwf)
  | sfSR b9 => exact decode_b9_embeddedBits .sfRight (of_decide_eq_true hwf)
  | sfSL b9 => exact decode_b9_embeddedBits .sfLeft (of_decide_eq_true hwf)
  | sfQE b9 => exact decode_b9_embeddedBits .sfCount (of_decide_eq_true hwf)
  | smE0 u8 | smE1 u8 | srE0 u8 | srE1 u8 =>
    simp [encode, decode, decodeString, decodeT8, wbit, ne_zero_of_sizeFieldOk hwf]
  | sfIR u8 | sfBR u8 | sfIL u8 | sfBL u8 => simp [encode, decode, decodeString, decodeT8, wbit]
  | so0Q u8 | so1Q u8 | seS u8 => simp [encode, decode, decodeString, decodeU8, wbit, ne_zero_of_sizeFieldOk hwf]
  | soL u8 | so0L u8 | so1L u8 | seA u8 => simp [encode, decode, decodeString, decodeU8, wbit]
  | _ => rfl

/-! ### Words outside the chapter (R74) -/

section

variable {w : Item}

theorem decode_of_other_group (hE12 : ¬ (wbit w 14 = false ∧ wbit w 15 = false ∧ wbit w 16 = true))
    (hstring : ¬ (wbit w 14 = true ∧ wbit w 15 = false ∧ wbit w 16 = true)) :
    decode w = .error .notAStringInstruction := by
  unfold decode
  split
  · next h14 h15 h16 => exact absurd ⟨h14, h15, h16⟩ hE12
  · next h14 h15 h16 => exact absurd ⟨h14, h15, h16⟩ hstring
  · rfl

theorem decode_of_E12 (h14 : wbit w 14 = false) (h15 : wbit w 15 = false) (h16 : wbit w 16 = true) :
    decode w = decodeE12 w := by
  simp only [decode, h14, h15, h16]

theorem decode_of_memory (h13 : wbit w 13 = true) (h14 : wbit w 14 = true) (h15 : wbit w 15 = false)
    (h16 : wbit w 16 = true) : decode w = decodeMemory w := by
  simp only [decode, h13, h14, h15, h16, if_true]

theorem decode_of_string (h13 : wbit w 13 = false) (h14 : wbit w 14 = true) (h15 : wbit w 15 = false)
    (h16 : wbit w 16 = true) : decode w = .ok (decodeString w) := by
  simp only [decode, h13, h14, h15, h16, Bool.false_eq_true, if_false]

theorem decodeE12_of_equal_bits (h : wbit w 12 = wbit w 13) : decodeE12 w = .error .notAStringInstruction := by
  unfold decodeE12
  split
  · next h12 h13 => rw [h12, h13] at h; cases h
  · next h12 h13 => rw [h12, h13] at h; cases h
  · rfl

theorem decodeMemory_of_no_direction (h11 : wbit w 11 = false) (h12 : wbit w 12 = false) :
    decodeMemory w = .error .notAStringInstruction := by
  simp only [decodeMemory, h11, h12]

/-- SG_RO and SG_RO_Y have no null form. -/
theorem decodeMemory_of_null_get (h11 : wbit w 11 = true) (h12 : wbit w 12 = false) (h10 : wbit w 10 = true)
    (hs9 : s9Of w = none) : decodeMemory w = .error .unassignedEncoding := by
  simp only [decodeMemory, h11, h12, decodeGet, h10, if_true, hs9]

/-- A Put and a Get and conditional put have no embedded size. -/
theorem decodeMemory_of_sized_put (h12 : wbit w 12 = true) (h10 : wbit w 10 = false) (hu8 : u8Of w ≠ 0) :
    decodeMemory w = .error .unassignedEncoding := by
  cases h11 : wbit w 11 with
  | false => simp only [decodeMemory, h11, h12, decodePut, h10, Bool.false_eq_true, if_false, if_neg hu8]
  | true => simp only [decodeMemory, h11, h12, decodeGetPut, h10, Bool.false_eq_true, if_false, if_neg hu8]

end

/-- Settles O6, row by row of R74's table. -/
theorem unassignedWordsRefused : Obligations.UnassignedWordsRefused := by
  intro w
  refine ⟨decode_of_other_group, fun h14 h15 h16 hbits => ?_, fun h13 h14 h15 h16 => ?_,
    fun h13 h14 h15 h16 => ⟨_, decode_of_string h13 h14 h15 h16⟩⟩
  · rw [decode_of_E12 h14 h15 h16, decodeE12_of_equal_bits hbits]
  · rw [decode_of_memory h13 h14 h15 h16]
    exact ⟨decodeMemory_of_no_direction, decodeMemory_of_null_get, decodeMemory_of_sized_put⟩

/-! ### Words written out -/

/-- Settles O4: the bits the decoder reads are written out, the ignored ones it never reads. -/
theorem severalWordsOfOneInstruction : Obligations.SeveralWordsOfOneInstruction :=
  ⟨fun _ _ _ _ _ _ => ⟨rfl, rfl, rfl, rfl⟩, by decide, by decide, by decide, by decide⟩

/-- Settles O5, by running the decoder. -/
theorem decodesWrittenWords : Obligations.DecodesWrittenWords := by
  unfold Obligations.DecodesWrittenWords
  decide

end Sys2Proof.Encoding

/-! PROOFS. Items read and written as integers (spec 10_state.md R26, R27). -/

namespace Sys2Proof.Integers

open Sys2Proof.Machine Sys2Proof.Laws Sys2Proof.NumericField

/-! ### Reading: the last bit is the sign -/

theorem undecidedBand_append (low : Item) (sign : Bit) :
    undecidedBand (low ++ [sign]) = true ↔ sign = true ∧ natOfBits low = 0 := by
  rw [undecidedBand_iff, natOfBits_eq_zero_iff]
  constructor
  · rintro ⟨k, h⟩
    obtain ⟨rfl, hsign⟩ := List.append_inj' h rfl
    exact ⟨by simpa using hsign, by simp [zeros]⟩
  · rintro ⟨rfl, hlow⟩
    exact ⟨low.length, congrArg (· ++ [true]) hlow⟩

theorem twosComplement_append_false (low : Item) : twosComplement (low ++ [false]) = natOfBits low := by
  simp [twosComplement]

theorem twosComplement_append_true (low : Item) :
    twosComplement (low ++ [true]) = (natOfBits low : Int) - 2 ^ low.length := by
  simp [twosComplement]

/-- An item that is neither empty nor in the band is a number where `IntOf` is the recommended one. -/
theorem intOf_of_decided {f : IntFormat} (hf : f ≠ .uninterpreted) {v : Item} (hne : v ≠ [])
    (hband : undecidedBand v = false) : intOf f v = .int (twosComplement v) := by
  cases f with
  | recommended | freeEncode => simp [intOf, hne, hband]
  | uninterpreted => exact absurd rfl hf

theorem intOf_append_false {f : IntFormat} (hf : f ≠ .uninterpreted) (low : Item) :
    intOf f (low ++ [false]) = .int (natOfBits low) := by
  have hband : undecidedBand (low ++ [false]) = false := by
    rw [Bool.eq_false_iff, Ne, undecidedBand_append]
    simp
  rw [intOf_of_decided hf (by simp) hband, twosComplement_append_false]

theorem intOf_append_true {f : IntFormat} (hf : f ≠ .uninterpreted) {low : Item} (hlow : natOfBits low ≠ 0) :
    intOf f (low ++ [true]) = .int ((natOfBits low : Int) - 2 ^ low.length) := by
  have hband : undecidedBand (low ++ [true]) = false := by
    rw [Bool.eq_false_iff, Ne, undecidedBand_append]
    simp [hlow]
  rw [intOf_of_decided hf (by simp) hband, twosComplement_append_true]

theorem intOf_band (f : IntFormat) (k : Nat) : intOf f (List.replicate k false ++ [true]) = .undecided := by
  have hband : undecidedBand (List.replicate k false ++ [true]) = true := undecidedBand_iff.2 ⟨k, rfl⟩
  simp [intOf, hband]

/-- Settles O28: the two readings that hold under every format, and the number by the last bit. -/
theorem integerReading : Obligations.IntegerReading :=
  ⟨fun f => ⟨rfl, intOf_band f⟩, fun _ low hf => intOf_append_false hf low,
    fun _ _ hf hlow => intOf_append_true hf fun hzero => hlow (natOfBits_eq_zero_iff.1 hzero)⟩

/-! ### Writing: the shortest two's complement -/

theorem natOfBits_digits {fuel n : Nat} (h : n ≤ fuel) : natOfBits (digits fuel n) = n := by
  induction fuel generalizing n with
  | zero =>
    obtain rfl : n = 0 := by omega
    rfl
  | succ fuel ih =>
    rw [digits]
    split
    · next hzero => simp [natOfBits, hzero]
    · have hbit : (n % 2 == 1).toNat = n % 2 := by rcases Nat.mod_two_eq_zero_or_one n with h | h <;> simp [h]
      rw [natOfBits, ih (by omega), hbit]
      omega

theorem length_digits_le {fuel n k : Nat} (h : n < 2 ^ k) : (digits fuel n).length ≤ k := by
  induction fuel generalizing n k with
  | zero => simp [digits]
  | succ fuel ih =>
    rw [digits]
    split
    · simp
    · obtain ⟨j, rfl⟩ : ∃ j, k = j + 1 := Nat.exists_eq_succ_of_ne_zero (by rintro rfl; simp at h; omega)
      have hhalf : n / 2 < 2 ^ j := by rw [pow_succ] at h; omega
      simpa using ih hhalf

theorem natOfBits_map_not (bs : List Bit) : natOfBits (bs.map (! ·)) + natOfBits bs + 1 = 2 ^ bs.length := by
  induction bs with
  | nil => rfl
  | cons b bs ih =>
    rw [List.map_cons, natOfBits, natOfBits, List.length_cons, pow_succ, ← ih]
    cases b <;> simp <;> ring

/-- The bits below the sign of a negative integer's encoding: the complement of the digits of `−z − 1`. -/
def negativeLow (m : Nat) : Item := (digits m m).map (! ·)

theorem natOfBits_negativeLow (m : Nat) : natOfBits (negativeLow m) + m + 1 = 2 ^ (negativeLow m).length := by
  have hnot := natOfBits_map_not (digits m m)
  rw [natOfBits_digits le_rfl] at hnot
  simpa [negativeLow] using hnot

theorem shortestTwos_natCast (n : Nat) : shortestTwos n = digits n n ++ [false] := by
  simp [shortestTwos]

theorem shortestTwos_negSucc (m : Nat) :
    shortestTwos (-(m : Int) - 1) =
      if natOfBits (negativeLow m) = 0 then negativeLow m ++ [true] ++ [true] else negativeLow m ++ [true] := by
  have hm : (-(-(m : Int) - 1) - 1).toNat = m := by omega
  rw [shortestTwos, if_neg (by omega), hm]
  exact if_congr ((undecidedBand_append (negativeLow m) true).trans (and_iff_right rfl)) rfl rfl

/-- Every integer is a natural number or one of `−m − 1`. -/
theorem eq_natCast_or_negSucc (z : Int) : (∃ n : Nat, z = n) ∨ ∃ m : Nat, z = -(m : Int) - 1 := by
  cases z with
  | ofNat n => exact .inl ⟨n, rfl⟩
  | negSucc m => exact .inr ⟨m, by omega⟩

theorem intOf_shortestTwos {f : IntFormat} (hf : f ≠ .uninterpreted) (z : Int) : intOf f (shortestTwos z) = .int z := by
  rcases eq_natCast_or_negSucc z with ⟨n, rfl⟩ | ⟨m, rfl⟩
  · rw [shortestTwos_natCast, intOf_append_false hf, natOfBits_digits le_rfl]
  · have hvalue := natOfBits_negativeLow m
    rw [shortestTwos_negSucc]
    split
    · next hzero =>
      have hlow : natOfBits (negativeLow m ++ [true]) = 2 ^ (negativeLow m).length := by
        simp [natOfBits_append, natOfBits, hzero]
      rw [intOf_append_true hf (by rw [hlow]; positivity), hlow, List.length_append, List.length_singleton, pow_succ]
      zify at hvalue
      congr 1
      push_cast
      omega
    · next hlow =>
      rw [intOf_append_true hf hlow]
      zify at hvalue
      congr 1
      omega

theorem shortestTwos_ne_nil (z : Int) : shortestTwos z ≠ [] := by
  intro hnil
  have hread := intOf_shortestTwos (f := .recommended) (by decide) z
  rw [hnil] at hread
  cases hread

theorem undecidedBand_shortestTwos (z : Int) : undecidedBand (shortestTwos z) = false := by
  rw [Bool.eq_false_iff]
  intro hband
  have hread := intOf_shortestTwos (f := .recommended) (by decide) z
  obtain ⟨k, hk⟩ := undecidedBand_iff.1 hband
  rw [hk, intOf_band] at hread
  cases hread

theorem length_shortestTwos_le {z : Int} {k : Nat} (hlow : -(2 ^ k) ≤ z) (hhigh : z < 2 ^ k) :
    (shortestTwos z).length ≤ k + 2 := by
  rcases eq_natCast_or_negSucc z with ⟨n, rfl⟩ | ⟨m, rfl⟩
  · have hdigits : (digits n n).length ≤ k := length_digits_le (by exact_mod_cast hhigh)
    rw [shortestTwos_natCast, List.length_append, List.length_singleton]
    omega
  · have hm : (m : Int) < 2 ^ k := by omega
    have hdigits : (digits m m).length ≤ k := length_digits_le (by exact_mod_cast hm)
    rw [shortestTwos_negSucc]
    split <;> simp [negativeLow] <;> omega

/-- No item that reads as `z` under the recommended format is shorter than `z`'s encoding. -/
theorem length_shortestTwos_le_of_intOf {z : Int} {v : Item} (h : intOf .recommended v = .int z) :
    (shortestTwos z).length ≤ v.length := by
  rcases List.eq_nil_or_concat v with rfl | ⟨low, sign, rfl⟩
  · cases h
  · have hlt := natOfBits_lt low
    rw [List.concat_eq_append] at h ⊢
    rw [List.length_append, List.length_singleton]
    cases sign with
    | false =>
      obtain rfl := IntReading.int.inj ((intOf_append_false (by decide) low).symm.trans h)
      rw [shortestTwos_natCast, List.length_append, List.length_singleton]
      exact Nat.succ_le_succ (length_digits_le hlt)
    | true =>
      by_cases hzero : natOfBits low = 0
      · rw [natOfBits_eq_zero_iff.1 hzero, zeros, intOf_band] at h
        cases h
      · obtain rfl := IntReading.int.inj ((intOf_append_true (by decide) hzero).symm.trans h)
        obtain ⟨m, hm⟩ : ∃ m, natOfBits low + m + 1 = 2 ^ low.length := ⟨2 ^ low.length - natOfBits low - 1, by omega⟩
        have hz : (natOfBits low : Int) - 2 ^ low.length = -(m : Int) - 1 := by zify at hm; omega
        have hdigits : (negativeLow m).length ≤ low.length := by
          simpa [negativeLow] using length_digits_le (fuel := m) (show m < 2 ^ low.length by omega)
        rw [hz, shortestTwos_negSucc]
        split
        · next hband =>
          have hshorter : (negativeLow m).length ≠ low.length := fun heq => by
            have hvalue := natOfBits_negativeLow m
            rw [heq, ← hm] at hvalue
            omega
          simp only [List.length_append, List.length_singleton]
          omega
        · simpa using hdigits

/-! ### `IntEncode` under each format -/

theorem intOf_uninterpreted_of_decided {v : Item} (hne : v ≠ []) (hband : undecidedBand v = false) {z : Int}
    (hread : openRead v = some z) : intOf .uninterpreted v = .int z := by
  simp [intOf, hne, hband, hread]

theorem intOf_openWrite (z : Int) : intOf .uninterpreted (openWrite z) = .int z := by
  unfold openWrite
  split
  · next hcodec =>
    refine intOf_uninterpreted_of_decided (shortestTwos_ne_nil z) (undecidedBand_shortestTwos z) ?_
    have hread := intOf_shortestTwos (f := .recommended) (by decide) z
    rw [intOf_of_decided (by decide) (shortestTwos_ne_nil z) (undecidedBand_shortestTwos z)] at hread
    simp only [openRead, hcodec, IntReading.int.inj hread]
  · next c hcodec =>
    refine intOf_uninterpreted_of_decided (c.write_ne_nil z) ?_ (by simp only [openRead, hcodec, c.read_write])
    rw [Bool.eq_false_iff, Ne, undecidedBand_iff]
    rintro ⟨k, hk⟩
    exact c.write_decided z k hk

theorem intOf_intEncode (f : IntFormat) (z : Int) : intOf f (intEncode f (some z)) = .int z := by
  cases f with
  | recommended => exact intOf_shortestTwos (by decide) z
  | freeEncode =>
    simp only [intEncode, freeEncode]
    split
    · next hread => exact hread.2
    · exact intOf_shortestTwos (by decide) z
  | uninterpreted => exact intOf_openWrite z

/-- What an instruction pushes as an integer is an item (log entry 10). -/
theorem length_intEncode_le (f : IntFormat) {z : Int} (hlow : -2047 ≤ z) (hhigh : z ≤ 2047) :
    (intEncode f (some z)).length ≤ maxSize := by
  have hshort : (shortestTwos z).length ≤ maxSize :=
    (length_shortestTwos_le (k := 11) (by norm_num; omega) (by norm_num; omega)).trans (by decide)
  cases f with
  | recommended => exact hshort
  | freeEncode =>
    simp only [intEncode, freeEncode]
    split
    · next hread => exact hread.1
    · exact hshort
  | uninterpreted =>
    simp only [intEncode, openWrite]
    split
    · exact hshort
    · next c _ => exact c.write_short z hlow hhigh

/-- Settles O29: what is written reads back, fits an item, and is the shortest under the recommended format. -/
theorem integerEncoding : Obligations.IntegerEncoding :=
  ⟨fun _ => rfl, intOf_intEncode, fun f _ hlow hhigh => length_intEncode_le f hlow hhigh,
    fun _ _ h => length_shortestTwos_le_of_intOf h⟩

end Sys2Proof.Integers

/-! PROOFS. Which addresses exist, and writing genspace (spec 20_memory.md R41, R43, R46). -/

namespace Sys2Proof.Writing

open Sys2Proof.Machine

/-! ### Which addresses exist -/

theorem genspaceValid_one {s : State} {a : Int} : s.genspaceValid a 1 = extentHas s.config.extent a := by
  simp [State.genspaceValid]

theorem genspaceValid_one_of_extent {s : State} {r : Region} (h : s.config.extent = [r]) (a : Int) :
    s.genspaceValid a 1 = regionHas r a := by
  simp [genspaceValid_one, extentHas, h]

theorem extentHas_append (e f : Extent) (a : Int) : extentHas (e ++ f) a = (extentHas e a || extentHas f a) := by
  simp [extentHas]

/-- Settles O58: a range bit by bit, and one bit for each kind of region. -/
theorem genspaceValidBitByBit : Obligations.GenspaceValidBitByBit := by
  refine ⟨fun s a n => ?_, fun s a h => ?_, fun s a b h => ?_, fun s a b h => ?_, fun s a b m h => ?_, fun s a h => ?_,
    fun s t u a h => ?_⟩
  · simp only [genspaceValid_iff, genspaceValid_one]
  · rw [genspaceValid_one_of_extent h, regionHas]
  · rw [genspaceValid_one_of_extent h, regionHas, decide_eq_true_iff]
  · rw [genspaceValid_one_of_extent h, regionHas, decide_eq_true_iff]
  · rw [genspaceValid_one_of_extent h, regionHas, decide_eq_true_iff]
  · rw [genspaceValid_one_of_extent h, regionHas]
  · rw [genspaceValid_one, genspaceValid_one, genspaceValid_one, h, extentHas_append, Bool.or_eq_true]

/-! ### `MemWrite` -/

theorem stored_write {before after : State} {a : Int} {v : Item} (h : after.genspace = before.genspace.write a v) :
    Stored before after a v := by
  unfold Stored
  rw [h]
  exact ⟨fun k hk => readBit_write_inside before.genspace a v k hk, fun b hb => readBit_write_outside before.genspace v hb⟩

theorem memWrite_of_valid {s : State} {a : Int} {v : Item} (h : s.genspaceValid a v.length = true) :
    s.memWrite a v = .ok (s.withBits a v) :=
  memWrite_eq_ok.2 ⟨h, rfl⟩

theorem memWrite_of_invalid {s : State} {a : Int} {v : Item} (h : s.genspaceValid a v.length = false) :
    s.memWrite a v = .error (.refuse (.accessOutside a v.length)) := by
  rw [State.memWrite, h, if_neg Bool.false_ne_true]

/-- Settles O26: the written state is the old one with the string in its genspace. -/
theorem memWriteStoresTheBits : Obligations.MemWriteStoresTheBits := by
  intro s a v
  refine ⟨fun hvalid => ⟨s.withBits a v, memWrite_of_valid hvalid, stored_write rfl, rfl, wf_write a v⟩,
    memWrite_of_invalid, memWrite_of_valid (genspaceValid_zero s a)⟩

end Sys2Proof.Writing

/-! PROOFS. The step around the instruction: fetch, the thrown mark, the end of the run, reset (spec 10_state.md R34;
20_memory.md R49; 60_exceptions.md R251; 70_reset_and_hazards.md R284). -/

namespace Sys2Proof.Stepping

open Sys2Proof.Machine Sys2Proof.Laws Sys2Proof.Reading

/-! ### Fetch and execution -/

theorem fetchInstr_of_holds {s : State} {w : Item} {i : Instr} (hlength : w.length = instrSize) (hholds : Holds s s.pc w)
    (hdecode : decode w = .ok i) : s.fetchInstr = .ok i := by
  simp only [State.fetchInstr, fetchWord_eq_ok.2 ⟨hlength, hholds⟩, hdecode]

theorem step_of_not_complete {s : State} (hmark : s.thrown = none) (hruns : ¬ Complete s) :
    (∃ i, s.fetchInstr = .ok i ∧ step s = exec i s) ∨ ∃ r, s.fetchInstr = .error r ∧ step s = .refused r := by
  have hnotEnd : ¬ (s.config.endOfRun = some s.pc ∧ s.threw = false) :=
    fun ⟨hend, hthrew⟩ => hruns ⟨hend, hmark, hthrew⟩
  cases hfetch : s.fetchInstr with
  | ok i => exact .inl ⟨i, rfl, by simp only [step, hmark, if_neg hnotEnd, hfetch]⟩
  | error r => exact .inr ⟨r, rfl, step_eq_refused_of_fetchInstr hmark hruns hfetch⟩

theorem step_eq_exec_of_fetchInstr {s : State} {i : Instr} (hmark : s.thrown = none) (hruns : ¬ Complete s)
    (hfetch : s.fetchInstr = .ok i) : step s = exec i s := by
  rcases step_of_not_complete hmark hruns with ⟨j, hj, hstep⟩ | ⟨r, hr, -⟩
  · rw [hfetch] at hj
    cases hj
    exact hstep
  · rw [hfetch] at hr
    cases hr

/-- Settles O9: the fetch finds the word, and the step is the instruction. -/
theorem stepRunsDecodedInstruction : Obligations.StepRunsDecodedInstruction :=
  fun _ _ _ hmark hruns hlength hholds hdecode =>
    step_eq_exec_of_fetchInstr hmark hruns (fetchInstr_of_holds hlength hholds hdecode)

/-! ### The model's own loader -/

theorem genspaceValid_withFetchWord (s : State) (nbits w : Nat) :
    (s.withFetchWord nbits w).genspaceValid s.pc instrSize = true := by
  have hextent : (s.withFetchWord nbits w).config.extent = s.extentWith s.pc instrSize := rfl
  rw [genspaceValid_iff, hextent, State.extentWith]
  intro k hk
  split
  · next hvalid => exact genspaceValid_iff.1 hvalid k hk
  · have hrange : regionHas (.range s.pc instrSize) (s.pc + (k : Nat)) = true := by
      rw [regionHas, decide_eq_true_iff]
      omega
    simp [extentHas, hrange]

theorem holds_withFetchWord (s : State) (nbits w : Nat) : Holds (s.withFetchWord nbits w) s.pc (tableBits nbits w) := by
  refine ⟨?_, fun k hk => ?_⟩
  · rw [tableBits, length_bitsOfNat]
    exact genspaceValid_withFetchWord s nbits w
  · rw [State.withFetchWord_genspace]
    exact readBit_write_inside s.genspace s.pc (tableBits nbits w) k hk

theorem not_complete_withFetchWord (s : State) (nbits w : Nat) : ¬ Complete (s.withFetchWord nbits w) := by
  rintro ⟨hend, -, -⟩
  simp only [State.withFetchWord] at hend
  split at hend
  · cases hend
  · next hother => exact hother hend

theorem decode_of_decodeTableWord {nbits w : Nat} {i : Instr} (h : decodeTableWord nbits w = some i) :
    decode (tableBits nbits w) = .ok i := by
  unfold decodeTableWord at h
  cases hdecode : decode (tableBits nbits w) <;> rw [hdecode] at h <;> cases h
  rfl

/-- Settles O10: the loader leaves the word at `pc`, valid, in a state that fetches. -/
theorem fetchWordRunsNext : Obligations.FetchWordRunsNext := by
  intro s nbits w i h
  refine step_eq_exec_of_fetchInstr (State.withFetchWord_thrown s nbits w) (not_complete_withFetchWord s nbits w) ?_
  refine fetchInstr_of_holds (length_bitsOfNat ..) ?_ (decode_of_decodeTableWord h)
  rw [State.withFetchWord_pc]
  exact holds_withFetchWord s nbits w

/-! ### A thrown state and a complete one -/

theorem step_of_thrown {s : State} {e : Thrown} (h : s.thrown = some e) : step s = s.leaveThrown e := by
  simp only [step, h]

theorem step_of_complete {s : State} (h : Complete s) : step s = .next s := by
  obtain ⟨hend, hmark, hthrew⟩ := h
  simp only [step, hmark, if_pos (And.intro hend hthrew)]

/-- A stack within the bounds is left as it is. -/
theorem boundStack_of_bounded {s : State} {stack : List Item} (hsized : StackSized { s with stack := stack })
    (hdepth : DepthBounded { s with stack := stack }) : s.boundStack stack = stack := by
  have hitems : stack.map (·.take maxSize) = stack := by
    conv_rhs => rw [← List.map_id stack]
    exact List.map_congr_left fun v hv => List.take_of_length_le (hsized v hv)
  simp only [DepthBounded, State.roomFor] at hdepth
  simp only [State.boundStack, hitems]
  cases hbound : s.config.stackDepth with
  | none => rfl
  | some m =>
    rw [hbound] at hdepth
    exact List.take_of_length_le (of_decide_eq_true hdepth)

theorem genspace_resume_of_no_stores {s : State} {r : Resumption} (h : r.stores = []) :
    (s.resume r).genspace = s.genspace := by
  simp only [State.resume, h, List.foldl_nil]

/-- Settles O12: the two settings of `ThrowEffect`, the second by what it gives, and the complete state. -/
theorem thrownStopsAndCompleteStays : Obligations.ThrownStopsAndCompleteStays := by
  refine ⟨fun s e hmark hunset => ?_, fun s e hmark hset => ?_, fun s => step_of_complete⟩
  · rw [step_of_thrown hmark, State.leaveThrown, hunset]
  · rw [step_of_thrown hmark]
    simp only [State.leaveThrown, hset]
    cases heffect : Config.openThrowEffect e s.stack s.pc s.genspace with
    | none => exact .inl ⟨rfl, rfl⟩
    | some r =>
      exact .inr ⟨r, s.resume r, rfl, rfl, State.resume_pc s r, State.resume_thrown s r, State.resume_threw s r,
        State.resume_log s r, State.resume_config s r, genspace_resume_of_no_stores, boundStack_of_bounded⟩

/-! ### Reset -/

/-- Settles O15: the fields of the reset state. -/
theorem resetLeaves : Obligations.ResetLeaves := ⟨rfl, rfl, rfl, rfl, rfl, readBit_nil, rfl⟩

/-- Settles O14: nothing is on the stack or in genspace after reset, and no mark is set. -/
theorem resetMeetsInv : Obligations.ResetMeetsInv where
  stackSized := fun _ hv => absurd hv List.not_mem_nil
  depthBounded := rfl
  memoryWf := wf_reset
  valuesValid := fun _ hvalue => by cases hvalue
  configSized := fun v hitem => by
    obtain rfl : [] = v := FindNotFound.item.inj hitem
    exact Nat.zero_le _
  markRecorded := fun hmark => absurd rfl hmark

end Sys2Proof.Stepping

/-! PROOFS. What an instruction can do, said once: it completes, with the listed items pulled and one pushed, or raises an
exception of its list (spec 00_scope.md R12; 10_state.md R22, R29; 20_memory.md R47; 60_exceptions.md R250, R260, R262). -/

namespace Sys2Proof.Effects

open Sys2Proof.Machine Sys2Proof.Integers

/-! ### What is said of an instruction -/

/-- What the tables say of an instruction: the items it pulls, whether it pushes one, logs an event, may write genspace,
the exceptions listed for it, whether `FindBadArg` is its own, and whether it has an encoding. -/
structure Profile where
  pulls : Nat
  pushes : Bool := true
  logs : Bool := false
  writes : Bool := false
  raises : List ExceptionName := []
  locates : Bool := false
  encodable : Bool

/-- The profile of an instruction, by the tables of the claims. -/
def profile (i : Instr) : Profile where
  pulls := pulls i
  pushes := !isPut i
  logs := (plainTwin i).isSome
  writes := isPut i || isGetPut i
  raises := raises i
  locates := isLocate i
  encodable := i.wf

/-- `t` is `s` but for its stack and `pc`, what a write of valid bits changed and the event logged. -/
structure Accessed (p : Profile) (s t : State) : Prop where
  sameRest : SameRest s t
  genspace : t.genspace = s.genspace ∨
    p.writes = true ∧ ∃ a v, s.genspaceValid a v.length = true ∧ t.genspace = s.genspace.write a v
  log : if p.logs then ∃ event, t.log = s.log ++ [event] else t.log = s.log

/-- An instruction with this profile completed from `s` in `t`. -/
structure Completed (p : Profile) (s t : State) : Prop extends Accessed p s t where
  pc : t.pc = s.pc + 17
  enough : p.pulls ≤ s.stack.length
  stack : ∃ pushed : List Item, pushed.length = p.pushes.toNat ∧ t.stack = pushed ++ s.stack.drop p.pulls ∧
    (p.encodable = true → ConfigSized s → ∀ v ∈ pushed, fits v)
  room : p.pushes = true → s.roomFor t.stack.length = true

/-- The exception is listed, or is the one `FindBadArg` names (48_find.md R221, log entry 24). -/
def Listed (p : Profile) (s : State) (name : ExceptionName) : Prop :=
  name ∈ p.raises ∨ (p.locates = true ∧ s.config.findBadArg = .raise name)

theorem Listed.of_contains {p : Profile} {s : State} {name : ExceptionName} (h : p.raises.contains name = true) :
    Listed p s name :=
  .inl (List.contains_iff_mem.1 h)

/-- The pseudocode `m`, run from `s`, completes and raises only as the profile says. -/
structure Sound (p : Profile) (s : State) (m : Except Stop State) : Prop where
  completed : ∀ t, m = .ok t → Completed p s t
  listed : ∀ e, m = .error (.raise e) → Listed p s e.name

/-! ### Genspace and log after the access of an instruction -/

variable {p : Profile} {s : State} {rest : List Item}

theorem SameRest.refl (s : State) : SameRest s s := ⟨rfl, rfl, rfl⟩

theorem sameRest_syncIf (s : State) (y : Bool) (k : SyncKind) (a : Int) (n : Nat) : SameRest s (s.syncIf y k a n) :=
  ⟨State.syncIf_thrown .., State.syncIf_threw .., State.syncIf_config ..⟩

theorem Accessed.plain (hlogs : p.logs = false) : Accessed p s s :=
  ⟨SameRest.refl s, .inl rfl, by rw [hlogs]; exact rfl⟩

theorem Accessed.syncIf (k : SyncKind) (a : Int) (n : Nat) : Accessed p s (s.syncIf p.logs k a n) := by
  refine ⟨sameRest_syncIf .., .inl (State.syncIf_genspace ..), ?_⟩
  cases p.logs
  · rfl
  · exact ⟨_, rfl⟩

theorem Accessed.withBits {u : State} (hwrites : p.writes = true) (hu : Accessed p s u) (hsame : u.genspace = s.genspace)
    {a : Int} {v : Item} (hvalid : s.genspaceValid a v.length = true) : Accessed p s (u.withBits a v) :=
  ⟨hu.sameRest, .inr ⟨hwrites, a, v, hvalid, by rw [State.withBits_genspace, hsame]⟩, hu.log⟩

/-! ### Completion by a push, and by a Put -/

theorem drop_of_pulled {xs : List Item} (hpulled : Pulled s xs rest) (hcount : xs.length = p.pulls) :
    s.stack.drop p.pulls = rest ∧ p.pulls ≤ s.stack.length := by
  obtain ⟨hstack, -⟩ := hpulled
  rw [hstack, ← hcount]
  exact ⟨List.drop_left, by simp⟩

theorem Completed.of_push {xs : List Item} {u : State} {v : Item} (hpulled : Pulled s xs rest)
    (hcount : xs.length = p.pulls) (hpushes : p.pushes = true) (hu : Accessed p s u) (hpc : u.pc = s.pc)
    (hroom : s.roomFor (rest.length + 1) = true) (hfits : p.encodable = true → ConfigSized s → fits v) :
    Completed p s (u.retire (v :: rest)) := by
  obtain ⟨hdrop, henough⟩ := drop_of_pulled hpulled hcount
  refine ⟨⟨hu.sameRest, hu.genspace, hu.log⟩, ?_, henough, ?_, fun _ => hroom⟩
  · rw [State.retire_pc, hpc]
  · refine ⟨[v], by rw [hpushes]; rfl, by rw [hdrop]; rfl, fun hencodable hconfig x hx => ?_⟩
    rw [List.mem_singleton.1 hx]
    exact hfits hencodable hconfig

theorem Completed.of_put {xs : List Item} {u : State} (hpulled : Pulled s xs rest)
    (hcount : xs.length = p.pulls) (hpushes : p.pushes = false) (hu : Accessed p s u) (hpc : u.pc = s.pc) :
    Completed p s (u.retire rest) := by
  obtain ⟨hdrop, henough⟩ := drop_of_pulled hpulled hcount
  refine ⟨⟨hu.sameRest, hu.genspace, hu.log⟩, ?_, henough, ?_, ?_⟩
  · rw [State.retire_pc, hpc]
  · exact ⟨[], by rw [hpushes]; rfl, by rw [hdrop]; rfl, fun _ _ x hx => absurd hx List.not_mem_nil⟩
  · intro h
    rw [hpushes] at h
    cases h

/-! ### The rule of each operation of the pseudocode -/

/-! ### What an access or a search pushes is an item -/

theorem fits_enc {n : Int} (hlow : 0 ≤ n) (hhigh : n ≤ 256) : fits (s.enc (some n)) :=
  length_intEncode_le s.config.intFormat (by omega) (by omega)

theorem length_occ_le (sup sub : Item) : (occ sup sub).length ≤ sup.length + 1 := by
  simpa [occ] using List.length_filter_le (occursAt sup sub) (List.range (sup.length + 1))

theorem le_length_of_mem_occ {sup sub : Item} {q : Nat} (h : q ∈ occ sup sub) : q ≤ sup.length := by
  have hrange := List.mem_range.1 (List.mem_filter.1 h).1
  omega

theorem mem_of_mem_candidates {anchor : FindLeftAnchor} {dir : Direction} {n : Nat} {b : Int} {ps : List Nat} {q : Nat}
    (h : q ∈ candidates anchor dir n b ps) : q ∈ ps := by
  unfold candidates at h
  cases dir with
  | right => exact (List.mem_filter.1 h).1
  | left => exact (List.mem_filter.1 (List.mem_reverse.1 h)).1

/-- What a search pushes is an item: an address in the superstring, the not-found item or an open one (48_find.md R221). -/
theorem fits_of_locate {dir : Direction} {sup sub r : Item} {i b : Option Int} (hconfig : ConfigSized s)
    (hsup : fits sup) (h : s.locate dir sup sub i b = .ok r) : fits r := by
  have hbad : ∀ {i b}, badArgument s.config.findBadArg sup sub i b = .ok r → fits r := by
    intro i b hbad
    unfold badArgument at hbad
    split at hbad <;> cases hbad
    exact length_clip _
  unfold State.locate at h
  split at h
  · split at h
    · obtain ⟨ps, hps, hr⟩ := bind_eq_ok.1 h
      obtain ⟨-, rfl⟩ := occurrences_eq_ok.1 hps
      simp only at hr
      split at hr
      · next q hq =>
        cases hr
        have hle := le_length_of_mem_occ (mem_of_mem_candidates (List.mem_of_getElem? hq))
        have hsize : sup.length ≤ 255 := hsup
        exact fits_enc (by omega) (by omega)
      · cases hr
        unfold notFoundItem
        split
        · next v hv => exact hconfig v hv
        · exact length_clip _
    · exact hbad h
  · exact hbad h

theorem fits_getPutItem (c : GetPutResult) {cur : Item} (hcur : fits cur) (old new : Item) :
    fits (getPutItem c cur old new) := by
  cases c with
  | stringRead => exact hcur
  | uninterpreted => exact length_clip _

namespace Sound

theorem bind {α : Type} {m : Except Stop α} {f : α → Except Stop State}
    (hraise : ∀ e, m = .error (.raise e) → Listed p s e.name) (h : ∀ a, m = .ok a → Sound p s (f a)) :
    Sound p s (m >>= f) where
  completed t ht := by
    obtain ⟨a, ha, hf⟩ := bind_eq_ok.1 ht
    exact (h a ha).completed t hf
  listed e he := by
    rcases bind_eq_error.1 he with hm | ⟨a, ha, hf⟩
    · exact hraise e hm
    · exact (h a ha).listed e hf

/-- An operation that only refuses. -/
theorem bind_of_refuses {α : Type} {m : Except Stop α} {f : α → Except Stop State}
    (hrefuses : ∀ e, m = .error e → ∃ r, e = .refuse r) (h : ∀ a, m = .ok a → Sound p s (f a)) : Sound p s (m >>= f) := by
  refine bind (fun e he => ?_) h
  obtain ⟨r, hr⟩ := hrefuses _ he
  cases hr

theorem raise {name : ExceptionName} {info : List (Option Int)} (h : p.raises.contains name = true := by rfl) :
    Sound p s (Machine.raise name info) where
  completed t ht := by cases ht
  listed e he := by
    cases he
    exact .of_contains h

theorem refuse {r : Refusal} : Sound p s (Machine.refuse r) where
  completed t ht := by cases ht
  listed e he := by cases he

/-! #### Pulls and the gate of a synchronized form -/

theorem pull1 {f : Item × List Item → Except Stop State} (h : ∀ x0 rest, Pulled s [x0] rest → Sound p s (f (x0, rest))) :
    Sound p s (s.pull1 >>= f) := by
  refine bind_of_refuses (fun e he => ?_) fun ⟨x0, rest⟩ hok => h x0 rest ?_
  · rcases pull1_eq_error he with ⟨hr, -⟩ | ⟨hr, -⟩ <;> exact ⟨_, hr⟩
  · obtain ⟨hstack, h0⟩ := pull1_eq_ok.1 hok
    exact ⟨hstack, by simpa using h0⟩

theorem pull2 {f : Item × Item × List Item → Except Stop State}
    (h : ∀ x0 x1 rest, Pulled s [x0, x1] rest → Sound p s (f (x0, x1, rest))) : Sound p s (s.pull2 >>= f) := by
  refine bind_of_refuses (fun e he => ?_) fun ⟨x0, x1, rest⟩ hok => h x0 x1 rest ?_
  · rcases pull2_eq_error he with ⟨hr, -⟩ | ⟨hr, -⟩ <;> exact ⟨_, hr⟩
  · obtain ⟨hstack, h0, h1⟩ := pull2_eq_ok.1 hok
    exact ⟨hstack, by simp [h0, h1]⟩

theorem pull3 {f : Item × Item × Item × List Item → Except Stop State}
    (h : ∀ x0 x1 x2 rest, Pulled s [x0, x1, x2] rest → Sound p s (f (x0, x1, x2, rest))) :
    Sound p s (s.pull3 >>= f) := by
  refine bind_of_refuses (fun e he => ?_) fun ⟨x0, x1, x2, rest⟩ hok => h x0 x1 x2 rest ?_
  · rcases pull3_eq_error he with ⟨hr, -⟩ | ⟨hr, -⟩ <;> exact ⟨_, hr⟩
  · obtain ⟨hstack, h0, h1, h2⟩ := pull3_eq_ok.1 hok
    exact ⟨hstack, by simp [h0, h1, h2]⟩

theorem pull4 {f : Item × Item × Item × Item × List Item → Except Stop State}
    (h : ∀ x0 x1 x2 x3 rest, Pulled s [x0, x1, x2, x3] rest → Sound p s (f (x0, x1, x2, x3, rest))) :
    Sound p s (s.pull4 >>= f) := by
  refine bind_of_refuses (fun e he => ?_) fun ⟨x0, x1, x2, x3, rest⟩ hok => h x0 x1 x2 x3 rest ?_
  · rcases pull4_eq_error he with ⟨hr, -⟩ | ⟨hr, -⟩ <;> exact ⟨_, hr⟩
  · obtain ⟨hstack, h0, h1, h2, h3⟩ := pull4_eq_ok.1 hok
    exact ⟨hstack, by simp [h0, h1, h2, h3]⟩

theorem allowSync {y : Bool} {f : Unit → Except Stop State} (h : Sound p s (f ())) : Sound p s (s.allowSync y >>= f) := by
  refine bind_of_refuses (fun e he => ?_) fun _ _ => h
  obtain ⟨-, -, hr⟩ := allowSync_eq_error he
  exact ⟨_, hr⟩

/-! #### Integer operands -/

theorem intArg {v : Item} {f : Option Int → Except Stop State} (h : ∀ n, Sound p s (f n)) :
    Sound p s (s.intArg v >>= f) := by
  refine bind_of_refuses (fun e he => ?_) fun n _ => h n
  obtain ⟨hr, -⟩ := intArg_eq_error he
  exact ⟨_, hr⟩

theorem addressArg {v : Item} {f : Int → Except Stop State} (h : ∀ a, Sound p s (f a)) :
    Sound p s (s.addressArg v >>= f) := by
  refine bind_of_refuses (fun e he => ?_) fun a _ => h a
  rcases addressArg_eq_error he with ⟨hr, -⟩ | ⟨hr, -⟩ <;> exact ⟨_, hr⟩

theorem sizeArg {v : Item} {f : Nat → Except Stop State} (h : ∀ n, n ≤ 255 → Sound p s (f n))
    (hlisted : p.raises.contains .sizeRange = true := by rfl) : Sound p s (s.sizeArg v >>= f) := by
  refine bind (fun e he => ?_) fun n hn => h n (sizeArg_eq_ok.1 hn).1
  rcases sizeArg_eq_error he with ⟨hr, -⟩ | ⟨hr, -⟩ | ⟨z, hr, -⟩ <;> cases hr <;> exact .of_contains hlisted

theorem distanceArg {v : Item} {f : Int → Except Stop State} (h : ∀ d, Sound p s (f d))
    (hlisted : p.raises.contains .nullDistance = true := by rfl) : Sound p s (s.distanceArg v >>= f) := by
  refine bind (fun e he => ?_) fun d _ => h d
  rcases distanceArg_eq_error he with ⟨hr, -⟩ | ⟨hr, -⟩ <;> cases hr
  exact .of_contains hlisted

theorem locationArg {v : Item} {f : Int → Except Stop State} (h : ∀ n, Sound p s (f n))
    (hlisted : p.raises.contains .locationRange = true := by rfl) : Sound p s (s.locationArg v >>= f) := by
  refine bind (fun e he => ?_) fun n _ => h n
  rcases locationArg_eq_error he with ⟨hr, -⟩ | ⟨hr, -⟩ <;> cases hr
  exact .of_contains hlisted

theorem rangedLocationArg {v : Item} {f : Int → Except Stop State} (h : ∀ n, Sound p s (f n))
    (hlisted : p.raises.contains .locationRange = true := by rfl) : Sound p s (s.rangedLocationArg v >>= f) := by
  refine bind (fun e he => ?_) fun n _ => h n
  rcases rangedLocationArg_eq_error he with ⟨hr, -⟩ | ⟨hr, -⟩ | ⟨z, hr, -⟩ <;> cases hr <;> exact .of_contains hlisted

theorem startArg {v : Item} {f : Int → Except Stop State} (h : ∀ a, Sound p s (f a))
    (hlisted : p.raises.contains .extractRange = true := by rfl) : Sound p s (s.startArg v >>= f) := by
  refine bind (fun e he => ?_) fun a _ => h a
  rcases startArg_eq_error he with ⟨hr, -⟩ | ⟨hr, -⟩ <;> cases hr
  exact .of_contains hlisted

/-! #### Accesses and pushes -/

section

variable {xs : List Item} (hpulled : Pulled s xs rest)

include hpulled

theorem pushAdvance {v : Item} (hfits : p.encodable = true → ConfigSized s → fits v)
    (hcount : xs.length = p.pulls := by rfl) (hpushes : p.pushes = true := by rfl) (hlogs : p.logs = false := by rfl) :
    Sound p s (s.pushAdvance rest v) where
  completed t ht := by
    obtain ⟨hroom, rfl⟩ := pushAdvance_eq_ok.1 ht
    exact .of_push hpulled hcount hpushes (.plain hlogs) rfl hroom hfits
  listed e he := by
    obtain ⟨hr, -⟩ := pushAdvance_eq_error he
    cases hr

theorem getStored {a : Int} {n : Nat} (hn : n ≤ 255) (hcount : xs.length = p.pulls := by rfl)
    (hpushes : p.pushes = true := by rfl) : Sound p s (getStored p.logs a n rest s) where
  completed t ht := by
    obtain ⟨v, hread, hroom, rfl⟩ := getStored_eq_ok.1 ht
    obtain ⟨rfl, -⟩ := Reading.memRead_eq_ok_iff_holds.1 hread
    exact .of_push hpulled hcount hpushes (.syncIf ..) (State.syncIf_pc ..) hroom fun _ _ => hn
  listed e he := by
    rcases getStored_eq_error he with hr | hr <;> cases hr

theorem putStored {a : Int} {d : Item} (hcount : xs.length = p.pulls := by rfl) (hpushes : p.pushes = false := by rfl)
    (hwrites : p.writes = true := by rfl) : Sound p s (putStored p.logs a d rest s) where
  completed t ht := by
    obtain ⟨hvalid, rfl⟩ := putStored_eq_ok.1 ht
    exact .of_put hpulled hcount hpushes (.withBits hwrites (.syncIf ..) (State.syncIf_genspace ..) hvalid)
      (State.syncIf_pc ..)
  listed e he := by cases putStored_eq_error he

theorem getPutStored {a : Int} {old new : Item} (hold : old ∈ xs) (hcount : xs.length = p.pulls := by rfl)
    (hpushes : p.pushes = true := by rfl) (hwrites : p.writes = true := by rfl)
    (hlisted : p.raises.contains .sizeMismatch = true := by rfl) : Sound p s (getPutStored p.logs a old new rest s) where
  completed t ht := by
    obtain ⟨-, cur, u, hread, hroom, hu, rfl⟩ := getPutStored_eq_ok.1 ht
    obtain ⟨hcur, -⟩ := Reading.memRead_eq_ok_iff_holds.1 hread
    have hfits : fits (getPutItem s.config.getPutResult cur old new) :=
      fits_getPutItem _ (hcur.le.trans (hpulled.2 old hold)) old new
    rcases hu with ⟨-, hvalid, rfl⟩ | ⟨-, rfl⟩
    · exact .of_push hpulled hcount hpushes (.withBits hwrites (.syncIf ..) (State.syncIf_genspace ..) hvalid)
        (State.syncIf_pc ..) hroom fun _ _ => hfits
    · exact .of_push hpulled hcount hpushes (.syncIf ..) (State.syncIf_pc ..) hroom fun _ _ => hfits
  listed e he := by
    rcases getPutStored_eq_error he with ⟨hr, -⟩ | hr | hr <;> cases hr
    exact .of_contains hlisted

theorem rotateOnto {v : Item} {d : Int} (hv : v ∈ xs) (hlisted : p.raises.contains .rotateEmpty = true := by rfl)
    (hcount : xs.length = p.pulls := by rfl) (hpushes : p.pushes = true := by rfl) (hlogs : p.logs = false := by rfl) :
    Sound p s (rotateOnto rest v d s) := by
  unfold Machine.rotateOnto
  split
  · exact .raise hlisted
  · exact pushAdvance hpulled (fun _ _ => (length_rotate v d).le.trans (hpulled.2 v hv)) hcount hpushes hlogs

theorem overwriteOnto {sup sub : Item} {n : Int} (hsup : sup ∈ xs) (hlisted : p.raises.contains .noFit = true := by rfl)
    (hcount : xs.length = p.pulls := by rfl) (hpushes : p.pushes = true := by rfl) (hlogs : p.logs = false := by rfl) :
    Sound p s (overwriteOnto rest sup sub n s) := by
  refine bind (fun e he => ?_) fun r hr => ?_
  · obtain ⟨he, -⟩ := overwrite_eq_error he
    cases he
    exact .of_contains hlisted
  · obtain ⟨⟨hlow, hhigh⟩, rfl⟩ := overwrite_eq_ok.1 hr
    have hsize : (overwriteBits sup sub n.toNat).length = sup.length := length_overwriteBits (by omega)
    exact pushAdvance hpulled (fun _ _ => hsize.le.trans (hpulled.2 sup hsup)) hcount hpushes hlogs

theorem extractOnto {sup : Item} {a : Int} {q : Nat} (hq : q ≤ 255) (hlisted : p.raises.contains .extractRange = true := by rfl)
    (hcount : xs.length = p.pulls := by rfl) (hpushes : p.pushes = true := by rfl) (hlogs : p.logs = false := by rfl) :
    Sound p s (extractOnto rest sup a q s) := by
  refine bind (fun e he => ?_) fun r hr => ?_
  · obtain ⟨-, ⟨-, he⟩ | ⟨-, he⟩⟩ := extract_eq_error he <;> cases he
    exact .of_contains hlisted
  · obtain ⟨-, rfl⟩ := extract_eq_ok.1 hr
    exact pushAdvance hpulled (fun _ _ => (List.length_take_le ..).trans hq) hcount hpushes hlogs

theorem countOnto {sup sub : Item} (hsup : sup ∈ xs) (hcount : xs.length = p.pulls := by rfl)
    (hpushes : p.pushes = true := by rfl) (hlogs : p.logs = false := by rfl) : Sound p s (countOnto rest sup sub s) := by
  refine bind_of_refuses (fun e he => ⟨_, (occurrences_eq_error he).1⟩) fun ps hps => ?_
  obtain ⟨-, rfl⟩ := occurrences_eq_ok.1 hps
  have hnumber := length_occ_le sup sub
  have hsize : sup.length ≤ 255 := hpulled.2 sup hsup
  exact pushAdvance hpulled (fun _ _ => fits_enc (n := (occ sup sub).length) (by omega) (by omega)) hcount hpushes hlogs

theorem locateOnto {dir : Direction} {sup sub : Item} {i b : Option Int} (hsup : sup ∈ xs)
    (hlocates : p.locates = true := by rfl) (hcount : xs.length = p.pulls := by rfl)
    (hpushes : p.pushes = true := by rfl) (hlogs : p.logs = false := by rfl) :
    Sound p s (locateOnto dir rest sup sub i b s) := by
  refine bind (fun e he => ?_) fun r hr => ?_
  · rcases locate_eq_error he with he | ⟨-, he⟩ | ⟨name, hname, he⟩ <;> cases he
    exact .inr ⟨hlocates, hname⟩
  · exact pushAdvance hpulled (fun _ hconfig => fits_of_locate hconfig (hpulled.2 sup hsup) hr) hcount hpushes hlogs

end

end Sound

end Sys2Proof.Effects

/-! PROOFS. Every instruction follows its profile, and what follows of every step: its common shape, the listed exceptions,
who writes genspace and the log, the invariant, the record of a throw. -/

namespace Sys2Proof.Effects

open Sys2Proof.Machine Sys2Proof.Integers

/-! ### The meanings that several instructions share -/

section

variable {s : State} {b : Bool}

theorem sound_getAbsoluteSized (y : Bool) (u8 : BitVec 8) :
    Sound { pulls := 1, logs := y, encodable := b } s (getAbsoluteSized y u8 s) :=
  .pull1 fun _ _ h => .allowSync (.addressArg fun _ => .getStored h (by omega))

theorem sound_getAbsolute (y : Bool) :
    Sound { pulls := 2, logs := y, raises := [.sizeRange], encodable := b } s (getAbsolute y s) :=
  .pull2 fun _ _ _ h => .allowSync (.addressArg fun _ => .sizeArg fun _ hn => .getStored h hn)

theorem sound_getRelativeOffset (y : Bool) (s9 : Int) :
    Sound { pulls := 1, logs := y, raises := [.sizeRange], encodable := b } s (getRelativeOffset y s9 s) :=
  .pull1 fun _ _ h => .allowSync (.sizeArg fun _ hn => .getStored h hn)

theorem sound_getRelativeSized (y : Bool) (u8 : BitVec 8) :
    Sound { pulls := 1, logs := y, encodable := b } s (getRelativeSized y u8 s) :=
  .pull1 fun _ _ h => .allowSync (.addressArg fun _ => .getStored h (by omega))

theorem sound_getRelative (y : Bool) :
    Sound { pulls := 2, logs := y, raises := [.sizeRange], encodable := b } s (getRelative y s) :=
  .pull2 fun _ _ _ h => .allowSync (.addressArg fun _ => .sizeArg fun _ hn => .getStored h hn)

theorem sound_putAbsolute (y : Bool) :
    Sound { pulls := 2, pushes := false, logs := y, writes := true, encodable := b } s (putAbsolute y s) :=
  .pull2 fun _ _ _ h => .allowSync (.addressArg fun _ => .putStored h)

theorem sound_putRelativeOffset (y : Bool) (s9 : Int) :
    Sound { pulls := 1, pushes := false, logs := y, writes := true, encodable := b } s (putRelativeOffset y s9 s) :=
  .pull1 fun _ _ h => .allowSync (.putStored h)

theorem sound_putRelative (y : Bool) :
    Sound { pulls := 2, pushes := false, logs := y, writes := true, encodable := b } s (putRelative y s) :=
  .pull2 fun _ _ _ h => .allowSync (.addressArg fun _ => .putStored h)

theorem sound_getPutAbsolute (y : Bool) :
    Sound { pulls := 3, logs := y, writes := true, raises := [.sizeMismatch], encodable := b } s (getPutAbsolute y s) :=
  .pull3 fun _ _ _ _ h => .allowSync (.addressArg fun _ => .getPutStored h (by simp))

theorem sound_getPutRelativeOffset (y : Bool) (s9 : Int) :
    Sound { pulls := 2, logs := y, writes := true, raises := [.sizeMismatch], encodable := b } s
      (getPutRelativeOffset y s9 s) :=
  .pull2 fun _ _ _ h => .allowSync (.getPutStored h (by simp))

theorem sound_getPutRelative (y : Bool) :
    Sound { pulls := 3, logs := y, writes := true, raises := [.sizeMismatch], encodable := b } s (getPutRelative y s) :=
  .pull3 fun _ _ _ _ h => .allowSync (.addressArg fun _ => .getPutStored h (by simp))

theorem fits_replicate {f : Bit} {n : Nat} (hn : n ≤ 255) : fits (List.replicate n f) :=
  List.length_replicate.le.trans hn

theorem toNat_le (u8 : BitVec 8) : u8.toNat ≤ 255 := by omega

theorem sound_manufacture (f : Bit) : Sound { pulls := 1, raises := [.sizeRange], encodable := b } s (manufacture f s) :=
  .pull1 fun _ _ h => .sizeArg fun _ hn => .pushAdvance h fun _ _ => fits_replicate hn

theorem sound_resizeSized (f : Bit) (u8 : BitVec 8) : Sound { pulls := 1, encodable := b } s (resizeSized f u8 s) :=
  .pull1 fun v _ h => .pushAdvance h fun _ _ => (length_resize v u8.toNat f).le.trans (toNat_le u8)

theorem sound_resizeRegister (f : Bit) :
    Sound { pulls := 2, raises := [.sizeRange], encodable := b } s (resizeRegister f s) :=
  .pull2 fun v _ _ h => .sizeArg fun n hn => .pushAdvance h fun _ _ => (length_resize v n f).le.trans hn

theorem sound_shiftEmbedded (f : Bit) (s9 : Int) : Sound { pulls := 1, encodable := b } s (shiftEmbedded f s9 s) :=
  .pull1 fun v _ h => .pushAdvance h fun _ _ => (length_shift v s9 f).le.trans (h.2 v (by simp))

theorem sound_shiftRegister (f : Bit) :
    Sound { pulls := 2, raises := [.nullDistance], encodable := b } s (shiftRegister f s) :=
  .pull2 fun v _ _ h => .distanceArg fun d =>
    .pushAdvance h fun _ _ => (length_shift v d f).le.trans (h.2 v (by simp))

theorem sound_overwriteFillAt (f : Bit) (u8 : BitVec 8) :
    Sound { pulls := 2, raises := [.sizeRange, .noFit], encodable := b } s (overwriteFillAt f u8 s) :=
  .pull2 fun _ _ _ h => .sizeArg fun _ _ => .overwriteOnto h (by simp)

theorem sound_overwriteFillQuantity (f : Bit) (u8 : BitVec 8) :
    Sound { pulls := 2, raises := [.locationRange, .noFit], encodable := b } s (overwriteFillQuantity f u8 s) :=
  .pull2 fun _ _ _ h => .locationArg fun _ => .overwriteOnto h (by simp)

theorem sound_overwriteFill (f : Bit) :
    Sound { pulls := 3, raises := [.locationRange, .sizeRange, .noFit], encodable := b } s (overwriteFill f s) :=
  .pull3 fun _ _ _ _ h => .locationArg fun _ => .sizeArg fun _ _ => .overwriteOnto h (by simp)

theorem sound_findIndexEmbedded (dir : Direction) (u8 : BitVec 8) :
    Sound { pulls := 3, locates := true, encodable := b } s (findIndexEmbedded dir u8 s) :=
  .pull3 fun _ _ _ _ h => .intArg fun _ => .locateOnto h (by simp)

theorem sound_findStartEmbedded (dir : Direction) (u8 : BitVec 8) :
    Sound { pulls := 3, locates := true, encodable := b } s (findStartEmbedded dir u8 s) :=
  .pull3 fun _ _ _ _ h => .intArg fun _ => .locateOnto h (by simp)

theorem sound_findSubstringEmbedded (dir : Direction) (b9 : Item) :
    Sound { pulls := 3, locates := true, encodable := b } s (findSubstringEmbedded dir b9 s) :=
  .pull3 fun _ _ _ _ h => .intArg fun _ => .intArg fun _ => .locateOnto h (by simp)

theorem sound_findRegister (dir : Direction) :
    Sound { pulls := 4, locates := true, encodable := b } s (findRegister dir s) :=
  .pull4 fun _ _ _ _ _ h => .intArg fun _ => .intArg fun _ => .locateOnto h (by simp)

/-- An instruction that pulls nothing and pushes `v`. -/
theorem sound_pushOnly {v : Item} (hv : b = true → fits v) :
    Sound { pulls := 0, encodable := b } s (s.pushAdvance s.stack v) :=
  .pushAdvance (xs := []) ⟨rfl, by simp⟩ fun hencodable _ => hv hencodable

end

/-! ### Every instruction -/

/-- The pseudocode of an instruction completes and raises as the instruction's profile says. -/
theorem exec_sound (i : Instr) (s : State) : ∃ m, exec i s = s.conclude m ∧ Sound (profile i) s m := by
  cases i with
  | sgE b12 =>
    cases b12 with
    | none => exact ⟨_, rfl, .raise⟩
    | some b =>
      have hfits : b12Ok (some b) = true → fits b := fun h => (of_decide_eq_true h).trans (by decide)
      exact ⟨_, rfl, .pushAdvance (xs := []) ⟨rfl, by simp⟩ fun hencodable _ => hfits hencodable⟩
  | sgAE | sgAEY => exact ⟨_, rfl, sound_getAbsoluteSized _ _⟩
  | sgAR | sgARY => exact ⟨_, rfl, sound_getAbsolute _⟩
  | sgRO | sgROY => exact ⟨_, rfl, sound_getRelativeOffset _ _⟩
  | sgRS | sgRSY => exact ⟨_, rfl, sound_getRelativeSized _ _⟩
  | sgRR | sgRRY => exact ⟨_, rfl, sound_getRelative _⟩
  | spA | spAY => exact ⟨_, rfl, sound_putAbsolute _⟩
  | spRO | spROY => exact ⟨_, rfl, sound_putRelativeOffset _ _⟩
  | spRR | spRRY => exact ⟨_, rfl, sound_putRelative _⟩
  | sgpA | sgpAY => exact ⟨_, rfl, sound_getPutAbsolute _⟩
  | sgpRO | sgpROY => exact ⟨_, rfl, sound_getPutRelativeOffset _ _⟩
  | sgpRR | sgpRRY => exact ⟨_, rfl, sound_getPutRelative _⟩
  | svE => exact ⟨_, rfl, .pull1 fun _ _ h => .pushAdvance h fun _ _ => (length_cmp6 _ _).le.trans (by decide)⟩
  | svR => exact ⟨_, rfl, .pull2 fun _ _ _ h => .pushAdvance h fun _ _ => (length_cmp6 _ _).le.trans (by decide)⟩
  | smE0 u8 | smE1 u8 => exact ⟨_, rfl, sound_pushOnly fun _ => fits_replicate (toNat_le u8)⟩
  | smR0 | smR1 => exact ⟨_, rfl, sound_manufacture _⟩
  | smZ => exact ⟨_, rfl, sound_pushOnly fun _ => Nat.zero_le _⟩
  | igE s12 =>
    have hfits : s12Ok s12 = true → fits (s.enc (some s12)) := fun h =>
      length_intEncode_le _ (of_decide_eq_true h).1 (of_decide_eq_true h).2
    exact ⟨_, rfl, sound_pushOnly hfits⟩
  | srE0 | srE1 => exact ⟨_, rfl, sound_resizeSized _ _⟩
  | srR0 | srR1 => exact ⟨_, rfl, sound_resizeRegister _⟩
  | scSE0 | scSE1 => exact ⟨_, rfl, sound_shiftEmbedded _ _⟩
  | scSR0 | scSR1 => exact ⟨_, rfl, sound_shiftRegister _⟩
  | scRE => exact ⟨_, rfl, .pull1 fun _ _ h => .rotateOnto h (by simp)⟩
  | scRR => exact ⟨_, rfl, .pull2 fun _ _ _ h => .distanceArg fun _ => .rotateOnto h (by simp)⟩
  | scB =>
    exact ⟨_, rfl, .pull1 fun v _ h => .pushAdvance h fun _ _ => List.length_reverse.le.trans (h.2 v (by simp))⟩
  | soL => exact ⟨_, rfl, .pull2 fun _ _ _ h => .overwriteOnto h (by simp)⟩
  | soS => exact ⟨_, rfl, .pull2 fun _ _ _ h => .rangedLocationArg fun _ => .overwriteOnto h (by simp)⟩
  | soR => exact ⟨_, rfl, .pull3 fun _ _ _ _ h => .rangedLocationArg fun _ => .overwriteOnto h (by simp)⟩
  | so0L | so1L => exact ⟨_, rfl, sound_overwriteFillAt _ _⟩
  | so0Q | so1Q => exact ⟨_, rfl, sound_overwriteFillQuantity _ _⟩
  | so0R | so1R => exact ⟨_, rfl, sound_overwriteFill _⟩
  | seA => exact ⟨_, rfl, .pull2 fun _ _ _ h => .sizeArg fun _ hq => .extractOnto h hq⟩
  | seS u8 => exact ⟨_, rfl, .pull2 fun _ _ _ h => .startArg fun _ => .extractOnto h (toNat_le u8)⟩
  | seR =>
    exact ⟨_, rfl, .pull3 fun _ _ _ _ h => .startArg fun _ => .sizeArg fun _ hq =>
      .extractOnto h hq⟩
  | sfIR | sfIL => exact ⟨_, rfl, sound_findIndexEmbedded _ _⟩
  | sfBR | sfBL => exact ⟨_, rfl, sound_findStartEmbedded _ _⟩
  | sfSR | sfSL => exact ⟨_, rfl, sound_findSubstringEmbedded _ _⟩
  | sfRR | sfRL => exact ⟨_, rfl, sound_findRegister _⟩
  | sfQE => exact ⟨_, rfl, .pull1 fun _ _ h => .countOnto h (by simp)⟩
  | sfQR => exact ⟨_, rfl, .pull2 fun _ _ _ h => .countOnto h (by simp)⟩
  | sj =>
    refine ⟨_, rfl, .pull2 fun lo hi _ h => ?_⟩
    show Sound _ s (if 255 < lo.length + hi.length then _ else _)
    split
    · cases s.config.joinOverflow with
      | raise => exact .raise
      | refuse => exact .refuse
    · next hshort => exact .pushAdvance h fun _ _ => List.length_append.le.trans (not_lt.1 hshort)
  | sbN =>
    exact ⟨_, rfl, .pull1 fun v _ h => .pushAdvance h fun _ _ => List.length_map _ |>.le.trans (h.2 v (by simp))⟩
  | sbO =>
    refine ⟨_, rfl, .pull2 fun v w _ h => ?_⟩
    show Sound _ s (if v.length ≠ w.length then _ else _)
    split
    · exact .raise
    · exact .pushAdvance h fun _ _ => by
        rw [fits, List.length_zipWith]
        exact (Nat.min_le_left ..).trans (h.2 v (by simp))

/-- Every next state of an instruction: completed, or the state as it was with an exception of the list. -/
theorem completed_or_thrown {i : Instr} {s t : State} (h : exec i s = .next t) :
    Completed (profile i) s t ∨ ∃ e, t = s.throw e ∧ Listed (profile i) s e.name := by
  obtain ⟨m, hexec, hsound⟩ := exec_sound i s
  rw [hexec] at h
  rcases conclude_eq_next.1 h with hok | ⟨e, hraise, rfl⟩
  · exact .inl (hsound.completed t hok)
  · exact .inr ⟨e, rfl, hsound.listed e hraise⟩

/-! ### The common shape, the exceptions, genspace and the log -/

/-- Settles O16: what every instruction keeps is read off its profile. -/
theorem execCompletesOrThrows : Obligations.ExecCompletesOrThrows := by
  intro i s t h
  rcases completed_or_thrown h with hdone | ⟨e, rfl, -⟩
  · obtain ⟨pushed, hnumber, hstack, -⟩ := hdone.stack
    have hpushed : pushed.length = if isPut i then 0 else 1 := by
      rw [hnumber]
      cases hput : isPut i <;> simp [profile, hput]
    exact .inr ⟨hdone.pc, hdone.sameRest, hdone.enough, pushed, hpushed, hstack⟩
  · exact .inl ⟨e, rfl⟩

theorem thrown_of_completed {p : Profile} {s t : State} (h : Completed p s t) : t.thrown = s.thrown := h.sameRest.1

theorem threw_of_completed {p : Profile} {s t : State} (h : Completed p s t) : t.threw = s.threw := h.sameRest.2.1

theorem config_of_completed {p : Profile} {s t : State} (h : Completed p s t) : t.config = s.config := h.sameRest.2.2

/-- Settles O17: a completed instruction leaves no mark where there was none. -/
theorem onlyListedExceptions : Obligations.OnlyListedExceptions := by
  intro i s t e hmark h hthrown
  rcases completed_or_thrown h with hdone | ⟨e', rfl, hlisted⟩
  · rw [thrown_of_completed hdone, hmark] at hthrown
    cases hthrown
  · cases hthrown
    exact hlisted

/-- Settles O18: the profile of no other instruction writes. -/
theorem onlyPutsWriteGenspace : Obligations.OnlyPutsWriteGenspace := by
  intro i s t hput hgetPut h
  rcases completed_or_thrown h with hdone | ⟨e, rfl, -⟩
  · rcases hdone.genspace with hsame | ⟨hwrites, -⟩
    · exact hsame
    · simp [profile, hput, hgetPut] at hwrites
  · rfl

/-- Settles O20: the twin tells which clause of the log holds. -/
theorem onlySynchronizedFormsLog : Obligations.OnlySynchronizedFormsLog := by
  intro i s t h
  rcases completed_or_thrown h with hdone | ⟨e, rfl, -⟩
  · have hlog := hdone.log
    refine ⟨fun hplain => ?_, fun j htwin => .inr ?_⟩
    · simpa [profile, hplain] using hlog
    · simpa [profile, htwin] using hlog
  · exact ⟨fun _ => rfl, fun _ _ => .inl ⟨e, rfl⟩⟩

/-! ### The invariant -/

theorem roomFor_mono {s : State} {d d' : Nat} (hle : d' ≤ d) (h : s.roomFor d = true) : s.roomFor d' = true := by
  unfold State.roomFor at h ⊢
  split at h
  · rfl
  · exact decide_eq_true (hle.trans (of_decide_eq_true h))

theorem valuesValid_write {s : State} {a : Int} {v : Item} (hvalid : s.genspaceValid a v.length = true)
    (hvalues : ValuesValid s) {b : Int} (h : ((s.genspace.write a v).readBit b).isSome) :
    extentHas s.config.extent b = true := by
  rcases isSome_readBit_write h with ⟨hlow, hhigh⟩ | hbefore
  · have hbit := genspaceValid_iff.1 hvalid (b - a).toNat (by omega)
    rwa [show a + ((b - a).toNat : Int) = b by omega] at hbit
  · exact hvalues b hbefore

/-- An encodable instruction that completes keeps the invariant. -/
theorem inv_of_completed {p : Profile} {s t : State} (hencodable : p.encodable = true) (hinv : Inv s)
    (h : Completed p s t) : Inv t := by
  have hconfig := config_of_completed h
  obtain ⟨pushed, hnumber, hstack, hfits⟩ := h.stack
  have hroom : ∀ d, t.roomFor d = s.roomFor d := roomFor_congr hconfig
  refine ⟨fun v hv => ?_, ?_, ?_, fun b hb => ?_, fun v hitem => ?_, fun hmark => ?_⟩
  · rw [hstack] at hv
    rcases List.mem_append.1 hv with hv | hv
    · exact hfits hencodable hinv.configSized v hv
    · exact hinv.stackSized v (List.mem_of_mem_drop hv)
  · rw [DepthBounded, hroom]
    cases hpushes : p.pushes with
    | true => exact h.room hpushes
    | false =>
      rw [hpushes] at hnumber
      have hle : t.stack.length ≤ s.stack.length := by simp [hstack, List.length_eq_zero_iff.1 hnumber]
      exact roomFor_mono hle hinv.depthBounded
  · rcases h.genspace with hsame | ⟨-, a, v, -, hwrite⟩
    · rw [hsame]
      exact hinv.memoryWf
    · rw [hwrite]
      exact wf_write a v hinv.memoryWf
  · rw [hconfig]
    rcases h.genspace with hsame | ⟨-, a, v, hvalid, hwrite⟩
    · rw [hsame] at hb
      exact hinv.valuesValid b hb
    · rw [hwrite] at hb
      exact valuesValid_write hvalid hinv.valuesValid hb
  · rw [hconfig] at hitem
    exact hinv.configSized v hitem
  · rw [thrown_of_completed h] at hmark
    rw [threw_of_completed h]
    exact hinv.markRecorded hmark

theorem inv_throw {s : State} (hinv : Inv s) (e : Thrown) : Inv (s.throw e) :=
  ⟨hinv.stackSized, hinv.depthBounded, hinv.memoryWf, hinv.valuesValid, hinv.configSized, fun _ => rfl⟩

theorem valuesValid_storeValid {s : State} (hvalues : ValuesValid s) (a : Int) (v : Item) :
    ValuesValid (s.storeValid a v) := by
  intro b hb
  rw [State.storeValid_config]
  rcases isSome_readBit_storeValid hb with hbefore | hvalid
  · exact hvalues b hbefore
  · exact hvalid

theorem valuesValid_resume {s : State} (hvalues : ValuesValid s) (r : Resumption) : ValuesValid (s.resume r) := by
  show ValuesValid (r.stores.foldl (fun t c => t.storeValid c.1 c.2) s)
  induction r.stores generalizing s with
  | nil => exact hvalues
  | cons c stores ih => exact ih (valuesValid_storeValid hvalues c.1 c.2)

theorem length_le_of_mem_boundStack {s : State} {stack : List Item} {v : Item} (h : v ∈ s.boundStack stack) :
    v.length ≤ maxSize := by
  have hitems : v ∈ stack.map (·.take maxSize) := by
    unfold State.boundStack at h
    split at h
    · exact h
    · exact List.mem_of_mem_take h
  obtain ⟨u, -, rfl⟩ := List.mem_map.1 hitems
  exact List.length_take_le ..

theorem roomFor_length_boundStack (s : State) (stack : List Item) : s.roomFor (s.boundStack stack).length = true := by
  unfold State.roomFor State.boundStack
  split
  · rfl
  · exact decide_eq_true (List.length_take_le ..)

theorem inv_resume {s : State} (hinv : Inv s) (r : Resumption) : Inv (s.resume r) where
  stackSized _ hv := length_le_of_mem_boundStack hv
  depthBounded := by
    rw [DepthBounded, roomFor_congr (State.resume_config s r)]
    exact roomFor_length_boundStack s r.stack
  memoryWf := wf_resume r hinv.memoryWf
  valuesValid := valuesValid_resume hinv.valuesValid r
  configSized v hitem := by
    rw [State.resume_config] at hitem
    exact hinv.configSized v hitem
  markRecorded hmark := absurd rfl hmark

/-- Every next state of a step: a resumption, the state of a complete run, or what the fetched instruction answers. -/
theorem step_eq_next {s t : State} (h : step s = .next t) :
    (∃ e r, s.thrown = some e ∧ t = s.resume r) ∨ (Complete s ∧ t = s) ∨
      (s.thrown = none ∧ ∃ i, s.fetchInstr = .ok i ∧ exec i s = .next t) := by
  cases hmark : s.thrown with
  | some e =>
    rw [Stepping.step_of_thrown hmark] at h
    obtain ⟨-, r, -, rfl⟩ := leaveThrown_eq_next.1 h
    exact .inl ⟨e, r, rfl, rfl⟩
  | none =>
    by_cases hcomplete : Complete s
    · rw [Stepping.step_of_complete hcomplete] at h
      cases h
      exact .inr (.inl ⟨hcomplete, rfl⟩)
    · rcases Stepping.step_of_not_complete hmark hcomplete with ⟨i, hi, hstep⟩ | ⟨r, -, hstep⟩ <;> rw [hstep] at h
      · exact .inr (.inr ⟨rfl, i, hi, h⟩)
      · cases h

/-- A fetched instruction is one its word can hold (O2). -/
theorem wf_of_fetchInstr {s : State} {i : Instr} (h : s.fetchInstr = .ok i) : i.wf = true := by
  unfold State.fetchInstr at h
  split at h
  · cases h
  · split at h <;> cases h
    exact Encoding.decodedInstructionsAreWellFormed _ _ ‹_›

/-- Settles O13: a resumption is cut to the bounds, a complete run stays, and an instruction that was fetched is encodable,
so that what it pushes is an item. -/
theorem stepKeepsInv : Obligations.StepKeepsInv := by
  intro s t hinv h
  rcases step_eq_next h with ⟨e, r, -, rfl⟩ | ⟨-, rfl⟩ | ⟨-, i, hfetch, hexec⟩
  · exact inv_resume hinv r
  · exact hinv
  · rcases completed_or_thrown hexec with hdone | ⟨e, rfl, -⟩
    · exact inv_of_completed (wf_of_fetchInstr hfetch) hinv hdone
    · exact inv_throw hinv e

/-! ### The record of a throw -/

/-- An instruction keeps the record, and records what it throws. -/
theorem threw_of_exec {i : Instr} {s t : State} (h : exec i s = .next t) :
    (t.thrown = s.thrown ∧ t.threw = s.threw) ∨ t.threw = true := by
  rcases completed_or_thrown h with hdone | ⟨e, rfl, -⟩
  · exact .inl ⟨thrown_of_completed hdone, threw_of_completed hdone⟩
  · exact .inr rfl

theorem threw_of_step {s t : State} (hthrew : Threw s) (h : step s = .next t) : Threw t := by
  rcases step_eq_next h with ⟨e, r, -, rfl⟩ | ⟨-, rfl⟩ | ⟨hmark, i, -, hexec⟩
  · exact .inr rfl
  · exact hthrew
  · rcases threw_of_exec hexec with ⟨-, hsame⟩ | hrecord
    · exact .inr (hsame.trans (hthrew.resolve_left fun hne => hne hmark))
    · exact .inr hrecord

theorem not_complete_of_threw {s : State} (hthrew : Threw s) : ¬ Complete s := by
  rintro ⟨-, hmark, hrecord⟩
  rcases hthrew with hne | htrue
  · exact hne hmark
  · rw [hrecord] at htrue
    cases htrue

/-- Settles O59: no instruction and no resumption clears the record, and a complete run has none. -/
theorem thrownRunIsNeverComplete : Obligations.ThrownRunIsNeverComplete := by
  refine ⟨fun i s t hmark h hthrown => ?_, fun _ _ => threw_of_step, fun _ => not_complete_of_threw,
    fun s hrecord hmark => Stepping.step_of_not_complete hmark (not_complete_of_threw (.inr hrecord))⟩
  rcases threw_of_exec h with ⟨hsame, -⟩ | hrecord
  · exact absurd (hsame.trans hmark) hthrown
  · exact hrecord

end Sys2Proof.Effects

/-! PROOFS. What comes before an instruction's own work: the pulls and the gate of a synchronized form (spec 10_state.md R23,
R24, R28; 20_memory.md R47; 60_exceptions.md R263). -/

namespace Sys2Proof.Pulling

open Sys2Proof.Machine Sys2Proof.Circulating

/-! ### The pulls come first -/

theorem pull3_of_pulled {s : State} {x0 x1 x2 : Item} {rest : List Item} (h : Pulled s [x0, x1, x2] rest) :
    s.pull3 = .ok (x0, x1, x2, rest) := by
  obtain ⟨hstack, hfits⟩ := h
  exact pull3_eq_ok.2 ⟨hstack, hfits x0 (by simp), hfits x1 (by simp), hfits x2 (by simp)⟩

theorem pull4_of_pulled {s : State} {x0 x1 x2 x3 : Item} {rest : List Item} (h : Pulled s [x0, x1, x2, x3] rest) :
    s.pull4 = .ok (x0, x1, x2, x3, rest) := by
  obtain ⟨hstack, hfits⟩ := h
  exact pull4_eq_ok.2 ⟨hstack, hfits x0 (by simp), hfits x1 (by simp), hfits x2 (by simp), hfits x3 (by simp)⟩

/-- The pseudocode `m` begins by pulling `k` items: they are there, or it is refused for one of the two reasons. -/
def PullsFirst (s : State) (k : Nat) (m : Except Stop State) : Prop :=
  (∃ xs rest, Pulled s xs rest ∧ xs.length = k) ∨ (m = refuse .stackUnderflow ∧ s.stack.length < k) ∨
    (m = refuse .oversizeItem ∧ k ≤ s.stack.length)

namespace PullsFirst

variable {s : State}

theorem none (m : Except Stop State) : PullsFirst s 0 m := .inl ⟨[], s.stack, ⟨rfl, by simp⟩, rfl⟩

theorem of_pull {α : Type} {pull : Except Stop α} {k : Nat} (f : α → Except Stop State)
    (hok : ∀ a, pull = .ok a → ∃ xs rest, Pulled s xs rest ∧ xs.length = k)
    (herror : ∀ {e}, pull = .error e →
      (e = .refuse .stackUnderflow ∧ s.stack.length < k) ∨ (e = .refuse .oversizeItem ∧ k ≤ s.stack.length)) :
    PullsFirst s k (pull >>= f) := by
  cases hpull : pull with
  | ok a => exact .inl (hok a hpull)
  | error e =>
    rcases herror hpull with ⟨rfl, hlength⟩ | ⟨rfl, hlength⟩
    · exact .inr (.inl ⟨rfl, hlength⟩)
    · exact .inr (.inr ⟨rfl, hlength⟩)

theorem one (f : Item × List Item → Except Stop State) : PullsFirst s 1 (s.pull1 >>= f) :=
  of_pull f (fun ⟨x0, rest⟩ hpull => by
    obtain ⟨hstack, h0⟩ := pull1_eq_ok.1 hpull
    exact ⟨[x0], rest, ⟨hstack, by simpa using h0⟩, rfl⟩) pull1_eq_error

theorem two (f : Item × Item × List Item → Except Stop State) : PullsFirst s 2 (s.pull2 >>= f) :=
  of_pull f (fun ⟨x0, x1, rest⟩ hpull => by
    obtain ⟨hstack, h0, h1⟩ := pull2_eq_ok.1 hpull
    exact ⟨[x0, x1], rest, ⟨hstack, by simp [h0, h1]⟩, rfl⟩) pull2_eq_error

theorem three (f : Item × Item × Item × List Item → Except Stop State) : PullsFirst s 3 (s.pull3 >>= f) :=
  of_pull f (fun ⟨x0, x1, x2, rest⟩ hpull => by
    obtain ⟨hstack, h0, h1, h2⟩ := pull3_eq_ok.1 hpull
    exact ⟨[x0, x1, x2], rest, ⟨hstack, by simp [h0, h1, h2]⟩, rfl⟩) pull3_eq_error

theorem four (f : Item × Item × Item × Item × List Item → Except Stop State) : PullsFirst s 4 (s.pull4 >>= f) :=
  of_pull f (fun ⟨x0, x1, x2, x3, rest⟩ hpull => by
    obtain ⟨hstack, h0, h1, h2, h3⟩ := pull4_eq_ok.1 hpull
    exact ⟨[x0, x1, x2, x3], rest, ⟨hstack, by simp [h0, h1, h2, h3]⟩, rfl⟩) pull4_eq_error

end PullsFirst

/-- Every instruction begins by pulling the items it lists. -/
theorem exec_pullsFirst (i : Instr) (s : State) : ∃ m, exec i s = s.conclude m ∧ PullsFirst s (pulls i) m := by
  cases i with
  | sgE | smE0 | smE1 | smZ | igE => exact ⟨_, rfl, .none _⟩
  | sgAE | sgAEY | sgRO | sgROY | sgRS | sgRSY | spRO | spROY | svE | smR0 | smR1 | srE0 | srE1 | scSE0 | scSE1 | scRE | scB
  | sfQE | sbN => exact ⟨_, rfl, .one _⟩
  | sgAR | sgARY | sgRR | sgRRY | spA | spAY | spRR | spRRY | sgpRO | sgpROY | svR | srR0 | srR1 | scSR0 | scSR1 | scRR | soL
  | soS | so0L | so0Q | so1L | so1Q | seA | seS | sfQR | sj | sbO => exact ⟨_, rfl, .two _⟩
  | sgpA | sgpAY | sgpRR | sgpRRY | soR | so0R | so1R | seR | sfIR | sfBR | sfSR | sfIL | sfBL | sfSL =>
    exact ⟨_, rfl, .three _⟩
  | sfRR | sfRL => exact ⟨_, rfl, .four _⟩

theorem length_of_pulled {s : State} {xs rest : List Item} (h : Pulled s xs rest) : xs.length ≤ s.stack.length := by
  rw [h.1]
  simp

/-- Settles O22: every instruction begins by pulling its items. -/
theorem underflowComesFirst : Obligations.UnderflowComesFirst := by
  intro i s hfew
  obtain ⟨m, hexec, ⟨xs, rest, hpulled, hcount⟩ | ⟨rfl, -⟩ | ⟨-, henough⟩⟩ := exec_pullsFirst i s
  · have hlength := length_of_pulled hpulled
    omega
  · rw [hexec, conclude_refuse]
  · omega

/-- Settles O23: the pull does not complete, and there are enough items. -/
theorem oversizeOperandRefused : Obligations.OversizeOperandRefused := by
  intro i s v henough hv hlong
  obtain ⟨m, hexec, ⟨xs, rest, ⟨hstack, hfits⟩, hcount⟩ | ⟨-, hfew⟩ | ⟨rfl, -⟩⟩ := exec_pullsFirst i s
  · rw [hstack, ← hcount, List.take_left] at hv
    exact absurd (hfits v hv) hlong
  · omega
  · rw [hexec, conclude_refuse]

/-- Settles O24: what pulls nothing pushes at once. -/
theorem fullStackRefusesPush : Obligations.FullStackRefusesPush := by
  intro i s hpulls hne hfull
  have hpush : ∀ v, s.conclude (s.pushAdvance s.stack v) = .refused .stackOverflow := fun v => by
    have hroom : ¬ s.roomFor (s.stack.length + 1) = true := hfull
    rw [State.pushAdvance, if_neg hroom]
    rfl
  cases i with
  | sgE b12 =>
    cases b12 with
    | none => exact absurd rfl hne
    | some b => exact hpush b
  | smE0 | smE1 | smZ | igE => exact hpush _
  | _ => cases hpulls

/-! ### Several agents -/

section

variable {s : State} {xs rest : List Item} (hpulled : Pulled s xs rest) (hagents : s.config.agents = .several)

include hagents

theorem allowSync_of_several : s.allowSync true = refuse .synchronized := by
  simp [State.allowSync, hagents, refuse]

include hpulled

/-- After one, two or three pulls the gate refuses. -/
theorem refused_of_gate1 (hcount : xs.length = 1) {f : Item × List Item → Except Stop State}
    {g : Item → List Item → Unit → Except Stop State} (hf : ∀ x0 rest, f (x0, rest) = s.allowSync true >>= g x0 rest) :
    s.conclude (s.pull1 >>= f) = .refused .synchronized := by
  obtain ⟨x0, rfl⟩ := List.length_eq_one_iff.1 hcount
  rw [pull1_of_pulled hpulled, ok_bind, hf, allowSync_of_several hagents, refuse_bind, conclude_refuse]

theorem refused_of_gate2 (hcount : xs.length = 2) {f : Item × Item × List Item → Except Stop State}
    {g : Item → Item → List Item → Unit → Except Stop State}
    (hf : ∀ x0 x1 rest, f (x0, x1, rest) = s.allowSync true >>= g x0 x1 rest) :
    s.conclude (s.pull2 >>= f) = .refused .synchronized := by
  obtain ⟨x0, x1, rfl⟩ := List.length_eq_two.1 hcount
  rw [pull2_of_pulled hpulled, ok_bind, hf, allowSync_of_several hagents, refuse_bind, conclude_refuse]

theorem refused_of_gate3 (hcount : xs.length = 3) {f : Item × Item × Item × List Item → Except Stop State}
    {g : Item → Item → Item → List Item → Unit → Except Stop State}
    (hf : ∀ x0 x1 x2 rest, f (x0, x1, x2, rest) = s.allowSync true >>= g x0 x1 x2 rest) :
    s.conclude (s.pull3 >>= f) = .refused .synchronized := by
  obtain ⟨x0, x1, x2, rfl⟩ := List.length_eq_three.1 hcount
  rw [pull3_of_pulled hpulled, ok_bind, hf, allowSync_of_several hagents, refuse_bind, conclude_refuse]

end

/-- Settles O21: each synchronized form passes the gate right after its pulls. -/
theorem severalAgentsRefuseSynchronized : Obligations.SeveralAgentsRefuseSynchronized := by
  intro i j s xs rest htwin hagents hpulled hcount
  cases i with
  | sgAEY | sgROY | sgRSY | spROY => exact refused_of_gate1 hpulled hagents hcount fun _ _ => rfl
  | sgARY | sgRRY | spAY | spRRY | sgpROY => exact refused_of_gate2 hpulled hagents hcount fun _ _ _ => rfl
  | sgpAY | sgpRRY => exact refused_of_gate3 hpulled hagents hcount fun _ _ _ _ => rfl
  | _ => cases htwin

/-! ### One agent: the synchronized form and its plain twin -/

/-- The outcome of the pseudocode with the log of `s`. -/
def dropLog (s : State) (m : Except Stop State) : Except Stop State := m.map fun t => { t with log := s.log }

/-- The pseudocode `m` of a synchronized form is the `m'` of its plain twin but for the log. -/
def TwinOf (s : State) (m m' : Except Stop State) : Prop := dropLog s m = m'

theorem forgetLog_conclude (s : State) (m : Except Stop State) :
    forgetLog s (s.conclude m) = s.conclude (dropLog s m) := by
  rcases m with (e | r) | t <;> rfl

namespace TwinOf

variable {s : State}

theorem bind {α : Type} {m : Except Stop α} {f g : α → Except Stop State} (h : ∀ a, TwinOf s (f a) (g a)) :
    TwinOf s (m >>= f) (m >>= g) := by
  cases m with
  | error e => rfl
  | ok a => exact h a

theorem gate (hagents : s.config.agents = .one) {f g : Unit → Except Stop State} (h : TwinOf s (f ()) (g ())) :
    TwinOf s (s.allowSync true >>= f) (s.allowSync false >>= g) := by
  have hopen : s.allowSync true = .ok () := allowSync_eq_ok.2 (.inr (by rw [hagents]; decide))
  rw [hopen, allowSync_false]
  exact h

theorem pushAdvance {u u' : State} (h : { u with log := s.log } = u') (rest : List Item) (v : Item) :
    TwinOf s (u.pushAdvance rest v) (u'.pushAdvance rest v) := by
  subst h
  show dropLog s (if u.roomFor (rest.length + 1) then _ else _) = if u.roomFor (rest.length + 1) then _ else _
  split <;> rfl

theorem getStored (a : Int) (n : Nat) (rest : List Item) :
    TwinOf s (getStored true a n rest s) (getStored false a n rest s) :=
  bind (m := s.memRead a n) fun v => pushAdvance (u := s.sync .get a n) (u' := s) rfl rest v

theorem putStored (a : Int) (d : Item) (rest : List Item) :
    TwinOf s (putStored true a d rest s) (putStored false a d rest s) := by
  show dropLog s ((if s.genspaceValid a d.length then _ else _) >>= _) = (if s.genspaceValid a d.length then _ else _) >>= _
  split <;> rfl

theorem getPutStored (a : Int) (old new : Item) (rest : List Item) :
    TwinOf s (getPutStored true a old new rest s) (getPutStored false a old new rest s) := by
  unfold Machine.getPutStored
  split
  · rfl
  · refine bind (m := s.memRead a old.length) fun cur => ?_
    split
    · show dropLog s ((if s.genspaceValid a new.length then _ else _) >>= _) =
        (if s.genspaceValid a new.length then _ else _) >>= _
      split
      · exact pushAdvance (u := (s.sync .getPut a old.length).withBits a new) (u' := s.withBits a new) rfl ..
      · rfl
    · exact pushAdvance (u := s.sync .getPut a old.length) (u' := s) rfl ..

end TwinOf

/-- The pseudocode of a synchronized form, and that of its plain twin, from one that takes the form as an argument. -/
theorem twinOf_forms {s : State} {m : Bool → Except Stop State} (h : TwinOf s (m true) (m false)) :
    forgetLog s (s.conclude (m true)) = s.conclude (m false) := by
  rw [forgetLog_conclude, h]

/-- Settles O19: the two forms pull, read and access alike, and differ at the gate and in the log. -/
theorem synchronizedFormIsPlainTwin : Obligations.SynchronizedFormIsPlainTwin := by
  intro i j s htwin hone
  cases i with
  | sgAEY u8 =>
    cases htwin
    exact twinOf_forms (m := (getAbsoluteSized · u8 s)) (.bind fun (x0, rest) => .gate hone (.bind fun _ => .getStored ..))
  | sgARY =>
    cases htwin
    exact twinOf_forms (m := (getAbsolute · s))
      (.bind fun (x0, x1, rest) => .gate hone (.bind fun _ => .bind fun _ => .getStored ..))
  | sgROY s9 =>
    cases htwin
    exact twinOf_forms (m := (getRelativeOffset · s9 s)) (.bind fun (x0, rest) => .gate hone (.bind fun _ => .getStored ..))
  | sgRSY u8 =>
    cases htwin
    exact twinOf_forms (m := (getRelativeSized · u8 s)) (.bind fun (x0, rest) => .gate hone (.bind fun _ => .getStored ..))
  | sgRRY =>
    cases htwin
    exact twinOf_forms (m := (getRelative · s))
      (.bind fun (x0, x1, rest) => .gate hone (.bind fun _ => .bind fun _ => .getStored ..))
  | spAY =>
    cases htwin
    exact twinOf_forms (m := (putAbsolute · s)) (.bind fun (x0, d, rest) => .gate hone (.bind fun _ => .putStored ..))
  | spROY s9 =>
    cases htwin
    exact twinOf_forms (m := (putRelativeOffset · s9 s)) (.bind fun (d, rest) => .gate hone (.putStored ..))
  | spRRY =>
    cases htwin
    exact twinOf_forms (m := (putRelative · s)) (.bind fun (x0, d, rest) => .gate hone (.bind fun _ => .putStored ..))
  | sgpAY =>
    cases htwin
    exact twinOf_forms (m := (getPutAbsolute · s))
      (.bind fun (x0, old, new, rest) => .gate hone (.bind fun _ => .getPutStored ..))
  | sgpROY s9 =>
    cases htwin
    exact twinOf_forms (m := (getPutRelativeOffset · s9 s))
      (.bind fun (old, new, rest) => .gate hone (.getPutStored ..))
  | sgpRRY =>
    cases htwin
    exact twinOf_forms (m := (getPutRelative · s))
      (.bind fun (x0, old, new, rest) => .gate hone (.bind fun _ => .getPutStored ..))
  | _ => cases htwin

end Sys2Proof.Pulling

/-! PROOFS. Get, Put, Get and conditional put: what each does with its operands (spec 40_get.md, 41_put.md,
42_get_and_put.md; 20_memory.md R41 to R47). -/

namespace Sys2Proof.Accessing

open Sys2Proof.Machine Sys2Proof.Circulating Sys2Proof.Reading Sys2Proof.Writing Sys2Proof.Pulling

variable {s : State} {rest : List Item} {i : Instr} {y : Bool} {a : Int}

/-! ### From the operand lists to the accesses -/

theorem allowSync_of_allowed (h : SyncAllowed s y) : s.allowSync y = .ok () := by
  refine allowSync_eq_ok.2 ?_
  cases y with
  | false => exact .inl rfl
  | true => exact .inr (by rw [h rfl]; decide)

theorem addressArg_of_readsAs {x : Item} {z : Int} (h : ReadsAs s x z) : s.addressArg x = .ok z := addressArg_eq_ok.2 h

theorem sizeArg_of_readsAs {x : Item} {n : Nat} (h : ReadsAs s x n) (hn : n ≤ 255) : s.sizeArg x = .ok n :=
  sizeArg_eq_ok.2 ⟨hn, h⟩

/-- Every Get comes to the access of its address and size (R100, R102 to R111). -/
theorem exec_of_getOperands {n : Nat} (h : GetOperands s rest i y a n) (hsync : SyncAllowed s y) :
    exec i s = s.conclude (getStored y a n rest s) := by
  have hgate := allowSync_of_allowed hsync
  cases h with
  | @sgAE u8 _ _ hp ha | @sgAEY u8 _ _ hp ha =>
    show s.conclude (getAbsoluteSized _ u8 s) = _
    simp only [getAbsoluteSized, pull1_of_pulled hp, hgate, addressArg_of_readsAs ha, ok_bind]
  | sgAR hp ha hn hle | sgARY hp ha hn hle =>
    show s.conclude (getAbsolute _ s) = _
    simp only [getAbsolute, pull2_of_pulled hp, hgate, addressArg_of_readsAs ha, sizeArg_of_readsAs hn hle, ok_bind]
  | @sgRO s9 _ _ hp hn hle | @sgROY s9 _ _ hp hn hle =>
    show s.conclude (getRelativeOffset _ s9 s) = _
    simp only [getRelativeOffset, pull1_of_pulled hp, hgate, sizeArg_of_readsAs hn hle, ok_bind, State.relative]
  | @sgRS u8 _ _ hp ho | @sgRSY u8 _ _ hp ho =>
    show s.conclude (getRelativeSized _ u8 s) = _
    simp only [getRelativeSized, pull1_of_pulled hp, hgate, addressArg_of_readsAs ho, ok_bind, State.relative]
  | sgRR hp ho hn hle | sgRRY hp ho hn hle =>
    show s.conclude (getRelative _ s) = _
    simp only [getRelative, pull2_of_pulled hp, hgate, addressArg_of_readsAs ho, sizeArg_of_readsAs hn hle, ok_bind,
      State.relative]

/-- Every Put comes to the access of its address and data (R120 to R126). -/
theorem exec_of_putOperands {d : Item} (h : PutOperands s rest i y a d) (hsync : SyncAllowed s y) :
    exec i s = s.conclude (putStored y a d rest s) := by
  have hgate := allowSync_of_allowed hsync
  cases h with
  | spA hp ha | spAY hp ha =>
    show s.conclude (putAbsolute _ s) = _
    simp only [putAbsolute, pull2_of_pulled hp, hgate, addressArg_of_readsAs ha, ok_bind]
  | @spRO s9 _ hp | @spROY s9 _ hp =>
    show s.conclude (putRelativeOffset _ s9 s) = _
    simp only [putRelativeOffset, pull1_of_pulled hp, hgate, ok_bind, State.relative]
  | spRR hp ho | spRRY hp ho =>
    show s.conclude (putRelative _ s) = _
    simp only [putRelative, pull2_of_pulled hp, hgate, addressArg_of_readsAs ho, ok_bind, State.relative]

/-- Every Get and conditional put comes to the access of its address with its two strings, which are pulled items
(R130 to R136). -/
theorem exec_of_getPutOperands {old new : Item} (h : GetPutOperands s rest i y a old new) (hsync : SyncAllowed s y) :
    exec i s = s.conclude (getPutStored y a old new rest s) ∧ fits old := by
  have hgate := allowSync_of_allowed hsync
  cases h with
  | sgpA hp ha | sgpAY hp ha =>
    refine ⟨?_, hp.2 old (by simp)⟩
    show s.conclude (getPutAbsolute _ s) = _
    simp only [getPutAbsolute, pull3_of_pulled hp, hgate, addressArg_of_readsAs ha, ok_bind]
  | @sgpRO s9 _ _ hp | @sgpROY s9 _ _ hp =>
    refine ⟨?_, hp.2 old (by simp)⟩
    show s.conclude (getPutRelativeOffset _ s9 s) = _
    simp only [getPutRelativeOffset, pull2_of_pulled hp, hgate, ok_bind, State.relative]
  | sgpRR hp ho | sgpRRY hp ho =>
    refine ⟨?_, hp.2 old (by simp)⟩
    show s.conclude (getPutRelative _ s) = _
    simp only [getPutRelative, pull3_of_pulled hp, hgate, addressArg_of_readsAs ho, ok_bind, State.relative]

/-! ### Get -/

theorem log_syncIf (s : State) (y : Bool) (k : SyncKind) (a : Int) (n : Nat) :
    (s.syncIf y k a n).log = logAfter s y k a n := by
  cases y <;> rfl

theorem retire_syncIf (s : State) (y : Bool) (k : SyncKind) (a : Int) (n : Nat) (stack : List Item) :
    (s.syncIf y k a n).retire stack = { advanced s stack with log := logAfter s y k a n } := by
  cases y <;> rfl

/-- Settles O39: the bits held are the bits read. -/
theorem getReadsGenspace : Obligations.GetReadsGenspace := by
  intro s rest i y a v hoperands hsync hholds hroom
  have hread : getStored y a v.length rest s = .ok ((s.syncIf y .get a v.length).retire (v :: rest)) :=
    getStored_eq_ok.2 ⟨v, memRead_length_eq_ok.2 hholds, hroom, rfl⟩
  rw [exec_of_getOperands hoperands hsync, hread, conclude_ok, retire_syncIf]

theorem getStored_of_not_holds {n : Nat} (h : ∀ v : Item, v.length = n → ¬ Holds s a v) :
    getStored y a n rest s = refuse (.accessOutside a n) := by
  simp only [getStored, memRead_syncIf, memRead_eq_refuse_of_not_holds h, error_bind, refuse]

/-! ### Put -/

theorem exec_put_of_valid {d : Item} (hoperands : PutOperands s rest i y a d) (hsync : SyncAllowed s y)
    (hvalid : s.genspaceValid a d.length = true) :
    exec i s = .next (((s.syncIf y .put a d.length).withBits a d).retire rest) := by
  rw [exec_of_putOperands hoperands hsync, putStored_eq_ok.2 ⟨hvalid, rfl⟩, conclude_ok]

theorem stored_syncIf_withBits (s : State) (y : Bool) (k : SyncKind) (a : Int) (n : Nat) (v : Item) (stack : List Item) :
    Stored s (((s.syncIf y k a n).withBits a v).retire stack) a v :=
  stored_write (by rw [State.retire_genspace, State.withBits_genspace, State.syncIf_genspace])

/-- Settles O40: the bits are written over genspace, which changes nothing at other addresses. -/
theorem putWritesGenspace : Obligations.PutWritesGenspace := by
  intro s rest i y a d hoperands hsync hvalid
  refine ⟨_, exec_put_of_valid hoperands hsync hvalid, rfl, ?_, ?_, Effects.sameRest_syncIf ..,
    stored_syncIf_withBits ..⟩
  · rw [State.retire_pc, State.withBits_pc, State.syncIf_pc]
  · rw [State.retire_log, State.withBits_log, log_syncIf]

theorem putStored_of_invalid {d : Item} (h : s.genspaceValid a d.length = false) :
    putStored y a d rest s = refuse (.accessOutside a d.length) := by
  have hwrite : (s.syncIf y .put a d.length).memWrite a d = refuse (.accessOutside a d.length) :=
    memWrite_of_invalid (by rw [genspaceValid_syncIf, h])
  rw [putStored, hwrite, refuse_bind]

theorem genspaceValid_congr {t : State} (h : t.config = s.config) (a : Int) (n : Nat) :
    t.genspaceValid a n = s.genspaceValid a n := by
  simp only [State.genspaceValid, h]

theorem readsAs_congr {t : State} (h : t.config = s.config) {x : Item} {z : Int} : ReadsAs t x z ↔ ReadsAs s x z := by
  rw [ReadsAs, ReadsAs, h]

/-- Settles O27: the Put leaves the data in genspace and the Get's operands on the stack. -/
theorem putThenGetReturnsTheData : Obligations.PutThenGetReturnsTheData := by
  intro s x0 d y0 y1 rest a ⟨hstack, hfits⟩ hx0 hy0 hy1 hvalid hroom
  simp only [List.forall_mem_cons] at hfits
  obtain ⟨hfit0, hfitd, hfits⟩ := hfits
  have hput : PutOperands s (y0 :: y1 :: rest) .spA false a d := .spA ⟨hstack, by simp [hfit0, hfitd]⟩ hx0
  obtain ⟨t, hexec, hstackt, hpc, -, ⟨-, -, hconfig⟩, hbits, -⟩ :=
    putWritesGenspace s _ .spA false a d hput (fun h => by cases h) hvalid
  have hget : GetOperands t rest .sgAR false a d.length :=
    .sgAR ⟨hstackt, by simpa using hfits⟩ ((readsAs_congr hconfig).2 hy0) ((readsAs_congr hconfig).2 hy1) hfitd
  have hroomt : CanPush t rest := (roomFor_congr hconfig _).trans hroom
  refine ⟨t, _, hexec, getReadsGenspace t rest .sgAR false a d hget (fun h => by cases h)
    ⟨(genspaceValid_congr hconfig ..).trans hvalid, hbits⟩ hroomt, rfl, ?_⟩
  show t.pc + 17 = s.pc + 34
  omega

/-! ### Get and conditional put -/

theorem getPutStored_of_sizes {old new : Item} (h : old.length ≠ new.length) :
    getPutStored y a old new rest s = raise .sizeMismatch [some old.length, some new.length] := by
  rw [getPutStored, if_pos h]

theorem getPutStored_of_not_holds {old new : Item} (hsize : old.length = new.length)
    (h : ∀ v : Item, v.length = old.length → ¬ Holds s a v) :
    getPutStored y a old new rest s = refuse (.accessOutside a old.length) := by
  rw [getPutStored, if_neg (not_not.2 hsize)]
  simp only [memRead_syncIf, memRead_eq_refuse_of_not_holds h, error_bind, refuse]

/-- Settles O41, by the outcome of the comparison. -/
theorem getPutComparesAndWrites : Obligations.GetPutComparesAndWrites := by
  intro s rest i y a old new cur hoperands hsync hsize hcur hholds hroom
  obtain ⟨hexec, hold⟩ := exec_of_getPutOperands hoperands hsync
  have hread : s.memRead a old.length = .ok cur := memRead_eq_ok_iff_holds.2 ⟨hcur, hholds⟩
  have hpush : (getPutItem s.config.getPutResult cur old new).length ≤ maxSize :=
    Effects.fits_getPutItem _ (hcur.le.trans hold) old new
  have hitem : s.config.getPutResult = .stringRead → getPutItem s.config.getPutResult cur old new = cur := by
    intro h
    rw [h, getPutItem]
  by_cases hequal : cur = old
  · have hvalid : s.genspaceValid a new.length = true := by
      rw [← hsize, ← hcur]
      exact hholds.1
    have hdone := (getPutStored_eq_ok (y := y)).2 ⟨hsize, cur, _, hread, hroom, .inl ⟨hequal, hvalid, rfl⟩, rfl⟩
    rw [hexec, hdone, conclude_ok]
    refine ⟨_, _, rfl, rfl, ?_, ?_, Effects.sameRest_syncIf .., fun _ => stored_syncIf_withBits ..,
      fun hne => absurd hequal hne, hitem, hpush⟩
    · rw [State.retire_pc, State.withBits_pc, State.syncIf_pc]
    · rw [State.retire_log, State.withBits_log, log_syncIf]
  · have hdone := (getPutStored_eq_ok (y := y)).2 ⟨hsize, cur, _, hread, hroom, .inr ⟨hequal, rfl⟩, rfl⟩
    rw [hexec, hdone, conclude_ok]
    refine ⟨_, _, rfl, rfl, ?_, ?_, Effects.sameRest_syncIf .., fun h => absurd h hequal, fun _ b => ?_, hitem, hpush⟩
    · rw [State.retire_pc, State.syncIf_pc]
    · rw [State.retire_log, log_syncIf]
    · rw [State.retire_genspace, State.syncIf_genspace]

/-! ### What stops an access -/

/-- Settles O56: the access is reached and fails. -/
theorem accessOutsideRefused : Obligations.AccessOutsideRefused := by
  refine ⟨fun s rest i y a n hoperands hsync hnone => ?_, fun s rest i y a d hoperands hsync hvalid => ?_,
    fun s rest i y a old new hoperands hsync hsize hnone => ?_⟩
  · rw [exec_of_getOperands hoperands hsync, getStored_of_not_holds hnone, conclude_refuse]
  · rw [exec_of_putOperands hoperands hsync, putStored_of_invalid hvalid, conclude_refuse]
  · rw [(exec_of_getPutOperands hoperands hsync).1, getPutStored_of_not_holds hsize hnone, conclude_refuse]

/-- Settles O52: both families compare the sizes before anything else they do with their strings. -/
theorem sizeMismatchThrown : Obligations.SizeMismatchThrown := by
  refine ⟨fun s rest i y a old new hoperands hsync hsize => ?_, fun s rest p q b0 b1 b2 b3 hpulled hsize => ?_⟩
  · rw [(exec_of_getPutOperands hoperands hsync).1, getPutStored_of_sizes hsize, conclude_raise]
  · simp only [exec, execSbO, pull2_of_pulled hpulled, ok_bind, if_pos hsize, conclude_raise]

end Sys2Proof.Accessing

/-! PROOFS. The instructions that work on the stack alone, but for Find: what each pushes, throws or refuses (spec
43_versus.md to 47_extract.md, 49_join_boolean.md; 60_exceptions.md R252, R257 to R259). -/

namespace Sys2Proof.Registers

open Sys2Proof.Machine Sys2Proof.Circulating Sys2Proof.Pulling Sys2Proof.Accessing

variable {s : State} {rest : List Item}

/-! ### Pushes and operands -/

/-- With room on the stack a push completes (10_state.md R23). -/
theorem pushAdvance_of_canPush (h : CanPush s rest) (v : Item) : s.pushAdvance rest v = .ok (advanced s (v :: rest)) :=
  pushAdvance_eq_ok.2 ⟨h, rfl⟩

theorem distanceArg_of_readsAs {x : Item} {d : Int} (h : ReadsAs s x d) : s.distanceArg x = .ok d := distanceArg_eq_ok.2 h

theorem locationArg_of_readsAs {x : Item} {n : Int} (h : ReadsAs s x n) : s.locationArg x = .ok n := locationArg_eq_ok.2 h

theorem rangedLocationArg_of_readsAs {x : Item} {n : Int} (h : ReadsAs s x n) (hn : -255 ≤ n ∧ n ≤ 255) :
    s.rangedLocationArg x = .ok n :=
  rangedLocationArg_eq_ok.2 ⟨hn, h⟩

theorem startArg_of_readsAs {x : Item} {a : Int} (h : ReadsAs s x a) : s.startArg x = .ok a := startArg_eq_ok.2 h

theorem intArg_of_reads {x : Item} {n : Option Int} (h : Reads s x n) : s.intArg x = .ok n := by
  cases n with
  | none => exact intArg_eq_ok.2 (.inl ⟨rfl, h⟩)
  | some z => exact intArg_eq_ok.2 (.inr ⟨z, rfl, h⟩)

theorem locationArg_of_null {x : Item} (h : ReadsNull s x) : s.locationArg x = raise .locationRange [none] := by
  simp only [State.locationArg, intArg_of_reads (n := none) h, ok_bind]

theorem rangedLocationArg_of_null {x : Item} (h : ReadsNull s x) :
    s.rangedLocationArg x = raise .locationRange [none] := by
  rw [State.rangedLocationArg, locationArg_of_null h, raise_bind]

theorem rangedLocationArg_of_outside {x : Item} {n : Int} (h : ReadsAs s x n) (hn : n < -255 ∨ 255 < n) :
    s.rangedLocationArg x = raise .locationRange [some n] := by
  rw [State.rangedLocationArg, locationArg_of_readsAs h, ok_bind, if_pos hn]

theorem startArg_of_null {x : Item} (h : ReadsNull s x) : s.startArg x = raise .extractRange [none] := by
  simp only [State.startArg, intArg_of_reads (n := none) h, ok_bind]

theorem sizeArg_of_badSize {x : Item} {n : Option Int} (h : BadSize s x n) : s.sizeArg x = raise .sizeRange [n] := by
  obtain ⟨hreads, hbad⟩ := h
  cases n with
  | none => simp only [State.sizeArg, intArg_of_reads hreads, ok_bind]
  | some z => simp only [State.sizeArg, intArg_of_reads hreads, ok_bind, if_pos (hbad z rfl)]

/-! ### Manufacture, Resize, Versus, Circulate -/

/-- Settles O38: there is room for the item, and nothing to check before it is pushed. -/
theorem manufacturedStringsPushed : Obligations.ManufacturedStringsPushed := by
  intro s hroom
  have hpush : ∀ v, s.conclude (s.pushAdvance s.stack v) = .next (advanced s (v :: s.stack)) := fun v => by
    rw [pushAdvance_of_canPush hroom, conclude_ok]
  exact ⟨fun b => hpush b, fun u8 => hpush _, fun u8 => hpush _, hpush [], fun s12 => hpush _⟩

/-- Settles O42: the strings are pulled and their comparison is pushed. -/
theorem versusPushesTheComparison : Obligations.VersusPushesTheComparison := by
  intro s rest hroom
  refine ⟨fun p b9 hp => ?_, fun p q hp => ?_⟩
  · simp only [exec, execSvE, pull1_of_pulled hp, ok_bind, pushAdvance_of_canPush hroom, conclude_ok]
  · simp only [exec, execSvR, pull2_of_pulled hp, ok_bind, pushAdvance_of_canPush hroom, conclude_ok]

theorem manufacture_of_pulled {x0 : Item} {n : Nat} (hroom : CanPush s rest) (hp : Pulled s [x0] rest)
    (hn : ReadsAs s x0 n) (hle : n ≤ 255) (f : Bit) :
    manufacture f s = .ok (advanced s (List.replicate n f :: rest)) := by
  simp only [manufacture, pull1_of_pulled hp, sizeArg_of_readsAs hn hle, ok_bind, pushAdvance_of_canPush hroom, fill]

theorem resizeSized_of_pulled {v : Item} (hroom : CanPush s rest) (hp : Pulled s [v] rest) (f : Bit) (u8 : BitVec 8) :
    resizeSized f u8 s = .ok (advanced s (resize v u8.toNat f :: rest)) := by
  simp only [resizeSized, pull1_of_pulled hp, ok_bind, pushAdvance_of_canPush hroom]

theorem resizeRegister_of_pulled {v x1 : Item} {n : Nat} (hroom : CanPush s rest) (hp : Pulled s [v, x1] rest)
    (hn : ReadsAs s x1 n) (hle : n ≤ 255) (f : Bit) : resizeRegister f s = .ok (advanced s (resize v n f :: rest)) := by
  simp only [resizeRegister, pull2_of_pulled hp, sizeArg_of_readsAs hn hle, ok_bind, pushAdvance_of_canPush hroom]

/-- Settles O43: the pseudocode of each pair, for either fill bit. -/
theorem manufactureAndResizeComplete : Obligations.ManufactureAndResizeComplete := by
  intro s rest hroom
  refine ⟨fun x0 n hp hn hle => ⟨?_, ?_⟩, fun v u8 hp => ⟨?_, ?_⟩, fun v x1 n hp hn hle => ⟨?_, ?_⟩⟩
  · exact congrArg s.conclude (manufacture_of_pulled hroom hp hn hle false)
  · exact congrArg s.conclude (manufacture_of_pulled hroom hp hn hle true)
  · exact congrArg s.conclude (resizeSized_of_pulled hroom hp false u8)
  · exact congrArg s.conclude (resizeSized_of_pulled hroom hp true u8)
  · exact congrArg s.conclude (resizeRegister_of_pulled hroom hp hn hle false)
  · exact congrArg s.conclude (resizeRegister_of_pulled hroom hp hn hle true)

theorem shiftEmbedded_of_pulled {v : Item} (hroom : CanPush s rest) (hp : Pulled s [v] rest) (f : Bit) (s9 : Int) :
    shiftEmbedded f s9 s = .ok (advanced s (shift v s9 f :: rest)) := by
  simp only [shiftEmbedded, pull1_of_pulled hp, ok_bind, pushAdvance_of_canPush hroom]

theorem shiftRegister_of_pulled {v x1 : Item} {d : Int} (hroom : CanPush s rest) (hp : Pulled s [v, x1] rest)
    (hd : ReadsAs s x1 d) (f : Bit) : shiftRegister f s = .ok (advanced s (shift v d f :: rest)) := by
  simp only [shiftRegister, pull2_of_pulled hp, distanceArg_of_readsAs hd, ok_bind, pushAdvance_of_canPush hroom]

theorem rotateOnto_of_ne_nil {v : Item} (hroom : CanPush s rest) (hv : v ≠ []) (d : Int) :
    rotateOnto rest v d s = .ok (advanced s (rotate v d :: rest)) :=
  rotateOnto_eq_ok.2 ⟨hv, hroom, rfl⟩

/-- Settles O44: the pseudocode of each pair, for either fill bit, and the rotation of a non-empty string. -/
theorem shiftsAndRotationsComplete : Obligations.ShiftsAndRotationsComplete := by
  intro s rest hroom
  refine ⟨fun v s9 hp => ⟨?_, ?_, fun hv => ?_⟩, fun v x1 d hp hd => ⟨?_, ?_, fun hv => ?_⟩⟩
  · exact congrArg s.conclude (shiftEmbedded_of_pulled hroom hp false s9)
  · exact congrArg s.conclude (shiftEmbedded_of_pulled hroom hp true s9)
  · rw [exec_scRE_of_pulled hp, rotateOnto_of_ne_nil hroom hv, conclude_ok]
  · exact congrArg s.conclude (shiftRegister_of_pulled hroom hp hd false)
  · exact congrArg s.conclude (shiftRegister_of_pulled hroom hp hd true)
  · rw [exec_scRR_of_pulled hp hd, rotateOnto_of_ne_nil hroom hv, conclude_ok]

/-! ### Overwrite (R190 to R199) -/

theorem getElem?_overwriteBits_inside {sup sub : Item} {n k : Nat} (hn : n ≤ sup.length) (hk : k < sub.length) :
    (overwriteBits sup sub n)[n + k]? = sub[k]? := by
  have htake : (sup.take n).length = n := by rw [List.length_take, Nat.min_eq_left hn]
  rw [overwriteBits, List.append_assoc, List.getElem?_append_right (by omega), htake, Nat.add_sub_cancel_left,
    List.getElem?_append_left hk]

theorem getElem?_overwriteBits_below {sup sub : Item} {n j : Nat} (hn : n ≤ sup.length) (hj : j < n) :
    (overwriteBits sup sub n)[j]? = sup[j]? := by
  have htake : (sup.take n).length = n := by rw [List.length_take, Nat.min_eq_left hn]
  rw [overwriteBits, List.append_assoc, List.getElem?_append_left (by omega), List.getElem?_take_of_lt hj]

theorem getElem?_overwriteBits_above {sup sub : Item} {n j : Nat} (hn : n ≤ sup.length) (hj : n + sub.length ≤ j) :
    (overwriteBits sup sub n)[j]? = sup[j]? := by
  have htake : (sup.take n).length = n := by rw [List.length_take, Nat.min_eq_left hn]
  have hlower : (sup.take n ++ sub).length = n + sub.length := by rw [List.length_append, htake]
  rw [overwriteBits, List.getElem?_append_right (by omega), hlower, List.getElem?_drop, Nat.add_sub_cancel' hj]

theorem overwrite_of_fits {sup sub : Item} {n : Int} (h : 0 ≤ n ∧ n + sub.length ≤ sup.length) :
    overwrite sup sub n = .ok (overwriteBits sup sub n.toNat) :=
  overwrite_eq_ok.2 ⟨h, rfl⟩

theorem overwrite_of_not_fits {sup sub : Item} {n : Int} (h : ¬ (0 ≤ n ∧ n + sub.length ≤ sup.length)) :
    overwrite sup sub n = raise .noFit [some n, some sub.length, some sup.length] :=
  if_neg h

/-- Settles O35: an index of the result lies below, in or above the substring. -/
theorem overwriteRule : Obligations.OverwriteRule := by
  intro sup sub n
  refine ⟨fun hfit => ⟨_, overwrite_of_fits hfit, length_overwriteBits (by omega),
    fun k hk => getElem?_overwriteBits_inside (by omega) hk, fun j hj => ?_⟩, overwrite_of_not_fits⟩
  rcases hj with hbelow | habove
  · exact getElem?_overwriteBits_below (by omega) (by omega)
  · exact getElem?_overwriteBits_above (by omega) (by omega)

/-- Every Overwrite comes to the overwrite of its superstring (R191 to R199). -/
theorem exec_of_overwriteOperands {i : Instr} {sup sub : Item} {n : Int} (h : OverwriteOperands s rest i sup sub n) :
    exec i s = s.conclude (overwriteOnto rest sup sub n s) := by
  cases h with
  | soL hp => simp only [exec, execSoL, pull2_of_pulled hp, ok_bind]
  | soS hp hn hrange =>
    simp only [exec, execSoS, pull2_of_pulled hp, rangedLocationArg_of_readsAs hn hrange, ok_bind]
  | soR hp hn hrange =>
    simp only [exec, execSoR, pull3_of_pulled hp, rangedLocationArg_of_readsAs hn hrange, ok_bind]
  | @so0L u8 _ _ _ hp hq hle | @so1L u8 _ _ _ hp hq hle =>
    show s.conclude (overwriteFillAt _ u8 s) = _
    simp only [overwriteFillAt, pull2_of_pulled hp, sizeArg_of_readsAs hq hle, ok_bind, fill]
  | @so0Q u8 _ _ _ hp hn | @so1Q u8 _ _ _ hp hn =>
    show s.conclude (overwriteFillQuantity _ u8 s) = _
    simp only [overwriteFillQuantity, pull2_of_pulled hp, locationArg_of_readsAs hn, ok_bind, fill]
  | so0R hp hn hq hle | so1R hp hn hq hle =>
    show s.conclude (overwriteFill _ s) = _
    simp only [overwriteFill, pull3_of_pulled hp, locationArg_of_readsAs hn, sizeArg_of_readsAs hq hle, ok_bind, fill]

/-- Settles O45: the rule of the overwrite, and the push. -/
theorem overwriteCompletes : Obligations.OverwriteCompletes := by
  intro s rest i sup sub n hoperands hfit hroom
  obtain ⟨r, hr, hsize, hinside, houtside⟩ := (overwriteRule sup sub n).1 (by omega)
  refine ⟨r, ?_, hsize, hinside, fun j hj => houtside j (by omega)⟩
  rw [exec_of_overwriteOperands hoperands, overwriteOnto, hr, ok_bind, pushAdvance_of_canPush hroom, conclude_ok]

/-! ### Extract (R210 to R213) -/

theorem extract_of_inside {sup : Item} {a : Int} {q : Nat} (h : 0 ≤ a ∧ a + q ≤ sup.length) :
    extract sup a q = .ok ((sup.drop a.toNat).take q) :=
  extract_eq_ok.2 ⟨h, rfl⟩

theorem extract_of_outside {sup : Item} {a : Int} {q : Nat} (h : ¬ (0 ≤ a ∧ a + q ≤ sup.length)) (hq : 1 ≤ q) :
    extract sup a q = raise .extractRange [some a, some q, some sup.length] := by
  rw [extract, if_neg h, if_neg (by omega)]

theorem extract_zero_of_outside {sup : Item} {a : Int} {q : Nat} (h : ¬ (0 ≤ a ∧ a + q ≤ sup.length)) (hq : q = 0) :
    extract sup a q = refuse .undecidedExtract := by
  rw [extract, if_neg h, if_pos hq]

/-- Settles O36: the result is a piece of the superstring. -/
theorem extractRule : Obligations.ExtractRule := by
  intro sup a q
  refine ⟨fun hinside => ⟨_, extract_of_inside hinside, ?_, fun k hk => ?_⟩, extract_of_outside, extract_zero_of_outside⟩
  · rw [List.length_take, List.length_drop]
    omega
  · rw [List.getElem?_take_of_lt hk, List.getElem?_drop]

/-- Every Extract comes to the extract of its superstring (R211 to R213). -/
theorem exec_of_extractOperands {i : Instr} {sup : Item} {a : Int} {q : Nat} (h : ExtractOperands s rest i sup a q) :
    exec i s = s.conclude (extractOnto rest sup a q s) := by
  cases h with
  | seA hp hq hle => simp only [exec, execSeA, pull2_of_pulled hp, sizeArg_of_readsAs hq hle, ok_bind]
  | seS hp ha => simp only [exec, execSeS, pull2_of_pulled hp, startArg_of_readsAs ha, ok_bind]
  | seR hp ha hq hle =>
    simp only [exec, execSeR, pull3_of_pulled hp, startArg_of_readsAs ha, sizeArg_of_readsAs hq hle, ok_bind]

/-- Settles O46: the rule of the extract, and the push. -/
theorem extractCompletes : Obligations.ExtractCompletes := by
  intro s rest i sup a q hoperands hinside hroom
  obtain ⟨r, hr, hsize, hbits⟩ := (extractRule sup a q).1 (by omega)
  refine ⟨r, ?_, hsize, hbits⟩
  rw [exec_of_extractOperands hoperands, extractOnto, hr, ok_bind, pushAdvance_of_canPush hroom, conclude_ok]

/-! ### Join and Boolean -/

theorem getElem?_zipWith_boolOp {p q : Item} {k : Nat} {x y : Bit} (b0 b1 b2 b3 : Bit) (hx : p[k]? = some x)
    (hy : q[k]? = some y) :
    (List.zipWith (boolOp b0 b1 b2 b3) p q)[k]? = some ([b0, b1, b2, b3].getD (2 * x.toNat + y.toNat) false) := by
  rw [List.getElem?_zipWith, hx, hy]
  cases x <;> cases y <;> rfl

/-- Settles O50: the pushed strings are `map` and `zipWith` of the pulled ones, read at an index. -/
theorem joinAndBooleanComplete : Obligations.JoinAndBooleanComplete := by
  intro s rest hroom
  refine ⟨fun lo hi hp hshort => ?_, fun v hp => ⟨v.map (! ·), ?_, by simp, fun k hk => by simp [hk]⟩,
    fun p q b0 b1 b2 b3 hp hsize => ⟨List.zipWith (boolOp b0 b1 b2 b3) p q, ?_, by simp [hsize],
      fun k x y => getElem?_zipWith_boolOp b0 b1 b2 b3⟩⟩
  · simp only [exec, execSj, pull2_of_pulled hp, ok_bind, if_neg (not_lt.2 hshort), pushAdvance_of_canPush hroom,
      conclude_ok]
  · simp only [exec, execSbN, pull1_of_pulled hp, ok_bind, pushAdvance_of_canPush hroom, conclude_ok]
  · simp only [exec, execSbO, pull2_of_pulled hp, ok_bind, if_neg (not_not.2 hsize), pushAdvance_of_canPush hroom,
      conclude_ok]

/-! ### Exceptions -/

theorem overwriteFillQuantity_of_null {x0 x1 : Item} (hp : Pulled s [x0, x1] rest) (hnull : ReadsNull s x1) (f : Bit)
    (u8 : BitVec 8) : overwriteFillQuantity f u8 s = raise .locationRange [none] := by
  simp only [overwriteFillQuantity, pull2_of_pulled hp, ok_bind, locationArg_of_null hnull, raise_bind]

theorem overwriteFill_of_null {x0 x1 x2 : Item} (hp : Pulled s [x0, x1, x2] rest) (hnull : ReadsNull s x1) (f : Bit) :
    overwriteFill f s = raise .locationRange [none] := by
  simp only [overwriteFill, pull3_of_pulled hp, ok_bind, locationArg_of_null hnull, raise_bind]

theorem exec_soS_of_raise {x0 x1 : Item} {name : ExceptionName} {args : List (Option Int)}
    (hp : Pulled s [x0, x1] rest) (hraise : s.rangedLocationArg x1 = raise name args) (b9 : Item) :
    exec (.soS b9) s = .next (s.throw ⟨name, args⟩) := by
  simp only [exec, execSoS, pull2_of_pulled hp, ok_bind, hraise, raise_bind, conclude_raise]

theorem exec_soR_of_raise {x0 x1 x2 : Item} {name : ExceptionName} {args : List (Option Int)}
    (hp : Pulled s [x0, x1, x2] rest) (hraise : s.rangedLocationArg x2 = raise name args) :
    exec .soR s = .next (s.throw ⟨name, args⟩) := by
  simp only [exec, execSoR, pull3_of_pulled hp, ok_bind, hraise, raise_bind, conclude_raise]

/-- Settles O54: the checks of Overwrite and Extract in the order of their pseudocode. -/
theorem overwriteAndExtractExceptions : Obligations.OverwriteAndExtractExceptions := by
  refine ⟨fun s rest i sup sub n hoperands hfit => ?_, fun s rest x0 x1 x2 b9 u8 => ⟨fun n hn => ⟨fun hp hread => ?_,
    fun hp hread => ?_⟩, fun i hi hp hnull => ?_, fun i hi hp hnull => ?_, fun hp hnull => ?_, fun hp hnull => ?_,
    fun hp hnull => ?_⟩, fun s rest i sup a q hoperands houtside => ⟨fun hq => ?_, fun hq => ?_⟩⟩
  · rw [exec_of_overwriteOperands hoperands, overwriteOnto, overwrite_of_not_fits hfit, raise_bind, conclude_raise]
  · exact exec_soS_of_raise hp (rangedLocationArg_of_outside hread hn) b9
  · exact exec_soR_of_raise hp (rangedLocationArg_of_outside hread hn)
  · simp only [List.mem_cons, List.not_mem_nil, or_false] at hi
    rcases hi with rfl | rfl | rfl
    · exact exec_soS_of_raise hp (rangedLocationArg_of_null hnull) b9
    · exact congrArg s.conclude (overwriteFillQuantity_of_null hp hnull false u8)
    · exact congrArg s.conclude (overwriteFillQuantity_of_null hp hnull true u8)
  · simp only [List.mem_cons, List.not_mem_nil, or_false] at hi
    rcases hi with rfl | rfl
    · exact congrArg s.conclude (overwriteFill_of_null hp hnull false)
    · exact congrArg s.conclude (overwriteFill_of_null hp hnull true)
  · exact exec_soR_of_raise hp (rangedLocationArg_of_null hnull)
  · simp only [exec, execSeS, pull2_of_pulled hp, ok_bind, startArg_of_null hnull, raise_bind, conclude_raise]
  · simp only [exec, execSeR, pull3_of_pulled hp, ok_bind, startArg_of_null hnull, raise_bind, conclude_raise]
  · rw [exec_of_extractOperands hoperands, extractOnto, extract_of_outside houtside hq, raise_bind, conclude_raise]
  · rw [exec_of_extractOperands hoperands, extractOnto, extract_zero_of_outside houtside hq, refuse_bind, conclude_refuse]

end Sys2Proof.Registers

/-! PROOFS. Operands that stop an instruction: a size out of range, a null address, an item in the undecided band (spec
00_scope.md R11; 10_state.md R26; 20_memory.md R44; 60_exceptions.md R252, R263). -/

namespace Sys2Proof.BadOperands

open Sys2Proof.Machine Sys2Proof.Circulating Sys2Proof.Pulling Sys2Proof.Accessing Sys2Proof.Registers

variable {s : State} {rest : List Item}

/-! ### Sizes out of range: the meanings with a size operand raise the same -/

section

variable {x0 x1 x2 : Item} {n : Option Int}

theorem getAbsolute_of_badSize {y : Bool} {a : Int} (hgate : SyncAllowed s y) (hp : Pulled s [x0, x1] rest)
    (ha : ReadsAs s x0 a) (hbad : BadSize s x1 n) : getAbsolute y s = raise .sizeRange [n] := by
  simp only [getAbsolute, pull2_of_pulled hp, allowSync_of_allowed hgate, addressArg_of_readsAs ha,
    sizeArg_of_badSize hbad, ok_bind, raise_bind]

theorem getRelative_of_badSize {y : Bool} {o : Int} (hgate : SyncAllowed s y) (hp : Pulled s [x0, x1] rest)
    (ho : ReadsAs s x0 o) (hbad : BadSize s x1 n) : getRelative y s = raise .sizeRange [n] := by
  simp only [getRelative, pull2_of_pulled hp, allowSync_of_allowed hgate, addressArg_of_readsAs ho,
    sizeArg_of_badSize hbad, ok_bind, raise_bind]

theorem getRelativeOffset_of_badSize {y : Bool} (hgate : SyncAllowed s y) (hp : Pulled s [x0] rest)
    (hbad : BadSize s x0 n) (s9 : Int) : getRelativeOffset y s9 s = raise .sizeRange [n] := by
  simp only [getRelativeOffset, pull1_of_pulled hp, allowSync_of_allowed hgate, sizeArg_of_badSize hbad, ok_bind,
    raise_bind]

theorem manufacture_of_badSize (hp : Pulled s [x0] rest) (hbad : BadSize s x0 n) (f : Bit) :
    manufacture f s = raise .sizeRange [n] := by
  simp only [manufacture, pull1_of_pulled hp, sizeArg_of_badSize hbad, ok_bind, raise_bind]

theorem resizeRegister_of_badSize (hp : Pulled s [x0, x1] rest) (hbad : BadSize s x1 n) (f : Bit) :
    resizeRegister f s = raise .sizeRange [n] := by
  simp only [resizeRegister, pull2_of_pulled hp, sizeArg_of_badSize hbad, ok_bind, raise_bind]

theorem overwriteFillAt_of_badSize (hp : Pulled s [x0, x1] rest) (hbad : BadSize s x1 n) (f : Bit) (u8 : BitVec 8) :
    overwriteFillAt f u8 s = raise .sizeRange [n] := by
  simp only [overwriteFillAt, pull2_of_pulled hp, sizeArg_of_badSize hbad, ok_bind, raise_bind]

theorem overwriteFill_of_badSize {a : Int} (hp : Pulled s [x0, x1, x2] rest) (ha : ReadsAs s x1 a)
    (hbad : BadSize s x2 n) (f : Bit) : overwriteFill f s = raise .sizeRange [n] := by
  simp only [overwriteFill, pull3_of_pulled hp, locationArg_of_readsAs ha, sizeArg_of_badSize hbad, ok_bind, raise_bind]

theorem exec_seA_of_badSize (hp : Pulled s [x0, x1] rest) (hbad : BadSize s x1 n) (u8 : BitVec 8) :
    exec (.seA u8) s = .next (s.throw ⟨.sizeRange, [n]⟩) := by
  simp only [exec, execSeA, pull2_of_pulled hp, sizeArg_of_badSize hbad, ok_bind, raise_bind, conclude_raise]

theorem exec_seR_of_badSize {a : Int} (hp : Pulled s [x0, x1, x2] rest) (ha : ReadsAs s x1 a) (hbad : BadSize s x2 n) :
    exec .seR s = .next (s.throw ⟨.sizeRange, [n]⟩) := by
  simp only [exec, execSeR, pull3_of_pulled hp, startArg_of_readsAs ha, sizeArg_of_badSize hbad, ok_bind, raise_bind,
    conclude_raise]

end

theorem exec_sj_of_long {lo hi : Item} (hp : Pulled s [lo, hi] rest) (hlong : 255 < lo.length + hi.length) :
    exec .sj s = s.conclude (joinTooLong s.config.joinOverflow (lo.length + hi.length)) := by
  simp only [exec, execSj, pull2_of_pulled hp, ok_bind, if_pos hlong]

/-- Settles O51: the sixteen instructions by the meaning they share, and the join by its setting. -/
theorem sizeRangeThrown : Obligations.SizeRangeThrown := by
  intro s rest x0 x1 x2 a n
  have hone : s.config.agents = .one → SyncAllowed s true := fun h _ => h
  have hplain : SyncAllowed s false := fun h => by cases h
  simp only [List.forall_mem_cons, List.not_mem_nil, false_imp_iff, implies_true, and_true]
  refine ⟨⟨fun hp ha hbad => ?_, fun hp ha hbad => ?_⟩, ⟨fun hagents hp ha hbad => ?_, fun hagents hp ha hbad => ?_⟩,
    fun s9 hp hbad => ⟨?_, fun hagents => ?_⟩, ⟨fun hp hbad => ?_, fun hp hbad => ?_⟩, ⟨fun hp hbad => ?_, fun hp hbad => ?_⟩,
    fun u8 => ⟨fun hp hbad => ?_, fun hp hbad => ?_, fun hp hbad => exec_seA_of_badSize hp hbad u8⟩,
    ⟨fun hp ha hbad => ?_, fun hp ha hbad => ?_, fun hp ha hbad => exec_seR_of_badSize hp ha hbad⟩,
    fun hp hlong => ⟨fun hset => ?_, fun hset => ?_⟩⟩
  · exact congrArg s.conclude (getAbsolute_of_badSize hplain hp ha hbad)
  · exact congrArg s.conclude (getRelative_of_badSize hplain hp ha hbad)
  · exact congrArg s.conclude (getAbsolute_of_badSize (hone hagents) hp ha hbad)
  · exact congrArg s.conclude (getRelative_of_badSize (hone hagents) hp ha hbad)
  · exact congrArg s.conclude (getRelativeOffset_of_badSize hplain hp hbad s9)
  · exact congrArg s.conclude (getRelativeOffset_of_badSize (hone hagents) hp hbad s9)
  · exact congrArg s.conclude (manufacture_of_badSize hp hbad false)
  · exact congrArg s.conclude (manufacture_of_badSize hp hbad true)
  · exact congrArg s.conclude (resizeRegister_of_badSize hp hbad false)
  · exact congrArg s.conclude (resizeRegister_of_badSize hp hbad true)
  · exact congrArg s.conclude (overwriteFillAt_of_badSize hp hbad false u8)
  · exact congrArg s.conclude (overwriteFillAt_of_badSize hp hbad true u8)
  · exact congrArg s.conclude (overwriteFill_of_badSize hp ha hbad false)
  · exact congrArg s.conclude (overwriteFill_of_badSize hp ha hbad true)
  · rw [exec_sj_of_long hp hlong, hset]
    rfl
  · rw [exec_sj_of_long hp hlong, hset]
    rfl

/-! ### The order in which an instruction reads its integers -/

/-- The pseudocode `m` reads these items as integers, in this order: an undecided one stops it, and after a number it goes
on to the next, but for the last. -/
inductive ReadsInOrder (s : State) : List Item → Except Stop State → Prop
  | none (m : Except Stop State) : ReadsInOrder s [] m
  | after {α : Type} {op : Except Stop α} {a : α} {vs : List Item} {f : α → Except Stop State} (hop : op = .ok a)
      (h : ReadsInOrder s vs (f a)) : ReadsInOrder s vs (op >>= f)
  | next {α : Type} {op : Except Stop α} {value : Int → α} {v : Item} {vs : List Item} {f : α → Except Stop State}
      (hundecided : Undecided s v → op = refuse .undecidedInteger) (hnumber : ∀ z, ReadsAs s v z → op = .ok (value z))
      (h : ∀ z, ReadsInOrder s vs (f (value z))) : ReadsInOrder s (v :: vs) (op >>= f)
  | last {α : Type} {op : Except Stop α} {v : Item} {f : α → Except Stop State}
      (hundecided : Undecided s v → op = refuse .undecidedInteger) : ReadsInOrder s [v] (op >>= f)

namespace ReadsInOrder

/-- The first undecided item after numbers refuses (R26, R263). -/
theorem refused {vs us ws : List Item} {v : Item} {m : Except Stop State} (h : ReadsInOrder s vs m)
    (hvs : vs = us ++ v :: ws) (hnumbers : ∀ u ∈ us, ∃ z, ReadsAs s u z) (hv : Undecided s v) :
    m = refuse .undecidedInteger := by
  induction h generalizing us with
  | none m => simp at hvs
  | after hop _ ih =>
    rw [hop, ok_bind]
    exact ih hvs hnumbers
  | next hundecided hnumber _ ih =>
    cases us with
    | nil =>
      obtain ⟨rfl, -⟩ := List.cons.inj hvs
      rw [hundecided hv, refuse_bind]
    | cons u us =>
      obtain ⟨rfl, htail⟩ := List.cons.inj hvs
      obtain ⟨z, hz⟩ := hnumbers _ (List.mem_cons_self ..)
      rw [hnumber z hz, ok_bind]
      exact ih z htail fun u hu => hnumbers u (List.mem_cons_of_mem _ hu)
  | last hundecided =>
    cases us with
    | nil =>
      obtain ⟨rfl, -⟩ := List.cons.inj hvs
      rw [hundecided hv, refuse_bind]
    | cons u us => simp at hvs

/-! #### The operations that read an integer -/

variable {v : Item} {vs : List Item}

theorem intArg_of_undecided (h : Undecided s v) : s.intArg v = refuse .undecidedInteger := by
  have hread : intOf s.config.intFormat v = .undecided := h
  simp only [State.intArg, hread]

theorem int {f : Option Int → Except Stop State} (h : ∀ z, ReadsInOrder s vs (f (some z))) :
    ReadsInOrder s (v :: vs) (s.intArg v >>= f) :=
  .next intArg_of_undecided (fun _ hz => intArg_of_reads (n := some _) hz) h

theorem address {f : Int → Except Stop State} (h : ∀ z, ReadsInOrder s vs (f z)) :
    ReadsInOrder s (v :: vs) (s.addressArg v >>= f) :=
  .next (fun hv => by rw [State.addressArg, intArg_of_undecided hv, refuse_bind]) (fun _ => addressArg_of_readsAs) h

theorem distance {f : Int → Except Stop State} (h : ∀ z, ReadsInOrder s vs (f z)) :
    ReadsInOrder s (v :: vs) (s.distanceArg v >>= f) :=
  .next (fun hv => by rw [State.distanceArg, intArg_of_undecided hv, refuse_bind]) (fun _ => distanceArg_of_readsAs) h

theorem location {f : Int → Except Stop State} (h : ∀ z, ReadsInOrder s vs (f z)) :
    ReadsInOrder s (v :: vs) (s.locationArg v >>= f) :=
  .next (fun hv => by rw [State.locationArg, intArg_of_undecided hv, refuse_bind]) (fun _ => locationArg_of_readsAs) h

theorem start {f : Int → Except Stop State} (h : ∀ z, ReadsInOrder s vs (f z)) :
    ReadsInOrder s (v :: vs) (s.startArg v >>= f) :=
  .next (fun hv => by rw [State.startArg, intArg_of_undecided hv, refuse_bind]) (fun _ => startArg_of_readsAs) h

/-- A number that is no size stops the instruction too, so a size is read last. -/
theorem size {f : Nat → Except Stop State} : ReadsInOrder s [v] (s.sizeArg v >>= f) :=
  .last fun hv => by rw [State.sizeArg, intArg_of_undecided hv, refuse_bind]

theorem rangedLocation {f : Int → Except Stop State} : ReadsInOrder s [v] (s.rangedLocationArg v >>= f) :=
  .last fun hv => by
    rw [State.rangedLocationArg, State.locationArg, intArg_of_undecided hv, refuse_bind, refuse_bind]

end ReadsInOrder

/-- Every instruction reads the integers of its list, in the order of the list (R263). -/
theorem exec_readsInOrder (i : Instr) {xs : List Item} (hp : Pulled s xs rest) (hcount : xs.length = pulls i)
    (hone : s.config.agents = .one) :
    ∃ m vs, exec i s = s.conclude m ∧ ReadsInOrder s vs m ∧ vs.map some = (intOperands i).map (xs[·]?) := by
  have hgate : ∀ y, s.allowSync y = .ok () := fun y => allowSync_of_allowed fun _ => hone
  cases i with
  | sgE | spRO | spROY | sgpRO | sgpROY | svE | svR | smE0 | smE1 | smZ | igE | srE0 | srE1 | scSE0 | scSE1 | scRE | scB | soL
  | sfQE | sfQR | sj | sbN | sbO => exact ⟨_, [], rfl, .none _, rfl⟩
  | sgAE | sgAEY | sgRS | sgRSY =>
    obtain ⟨x0, rfl⟩ := List.length_eq_one_iff.1 hcount
    exact ⟨_, _, rfl, .after (pull1_of_pulled hp) (.after (hgate _) (.address fun _ => .none _)), rfl⟩
  | sgRO | sgROY =>
    obtain ⟨x0, rfl⟩ := List.length_eq_one_iff.1 hcount
    exact ⟨_, _, rfl, .after (pull1_of_pulled hp) (.after (hgate _) .size), rfl⟩
  | smR0 | smR1 =>
    obtain ⟨x0, rfl⟩ := List.length_eq_one_iff.1 hcount
    exact ⟨_, _, rfl, .after (pull1_of_pulled hp) .size, rfl⟩
  | sgAR | sgARY | sgRR | sgRRY =>
    obtain ⟨x0, x1, rfl⟩ := List.length_eq_two.1 hcount
    exact ⟨_, _, rfl, .after (pull2_of_pulled hp) (.after (hgate _) (.address fun _ => .size)), rfl⟩
  | spA | spAY | spRR | spRRY =>
    obtain ⟨x0, x1, rfl⟩ := List.length_eq_two.1 hcount
    exact ⟨_, _, rfl, .after (pull2_of_pulled hp) (.after (hgate _) (.address fun _ => .none _)), rfl⟩
  | srR0 | srR1 | so0L | so1L | seA =>
    obtain ⟨x0, x1, rfl⟩ := List.length_eq_two.1 hcount
    exact ⟨_, _, rfl, .after (pull2_of_pulled hp) .size, rfl⟩
  | scSR0 | scSR1 | scRR =>
    obtain ⟨x0, x1, rfl⟩ := List.length_eq_two.1 hcount
    exact ⟨_, _, rfl, .after (pull2_of_pulled hp) (.distance fun _ => .none _), rfl⟩
  | soS =>
    obtain ⟨x0, x1, rfl⟩ := List.length_eq_two.1 hcount
    exact ⟨_, _, rfl, .after (pull2_of_pulled hp) .rangedLocation, rfl⟩
  | so0Q | so1Q =>
    obtain ⟨x0, x1, rfl⟩ := List.length_eq_two.1 hcount
    exact ⟨_, _, rfl, .after (pull2_of_pulled hp) (.location fun _ => .none _), rfl⟩
  | seS =>
    obtain ⟨x0, x1, rfl⟩ := List.length_eq_two.1 hcount
    exact ⟨_, _, rfl, .after (pull2_of_pulled hp) (.start fun _ => .none _), rfl⟩
  | sgpA | sgpAY | sgpRR | sgpRRY =>
    obtain ⟨x0, x1, x2, rfl⟩ := List.length_eq_three.1 hcount
    exact ⟨_, _, rfl, .after (pull3_of_pulled hp) (.after (hgate _) (.address fun _ => .none _)), rfl⟩
  | soR =>
    obtain ⟨x0, x1, x2, rfl⟩ := List.length_eq_three.1 hcount
    exact ⟨_, _, rfl, .after (pull3_of_pulled hp) .rangedLocation, rfl⟩
  | so0R | so1R =>
    obtain ⟨x0, x1, x2, rfl⟩ := List.length_eq_three.1 hcount
    exact ⟨_, _, rfl, .after (pull3_of_pulled hp) (.location fun _ => .size), rfl⟩
  | seR =>
    obtain ⟨x0, x1, x2, rfl⟩ := List.length_eq_three.1 hcount
    exact ⟨_, _, rfl, .after (pull3_of_pulled hp) (.start fun _ => .size), rfl⟩
  | sfIR | sfBR | sfIL | sfBL =>
    obtain ⟨x0, x1, x2, rfl⟩ := List.length_eq_three.1 hcount
    exact ⟨_, _, rfl, .after (pull3_of_pulled hp) (.int fun _ => .none _), rfl⟩
  | sfSR | sfSL =>
    obtain ⟨x0, x1, x2, rfl⟩ := List.length_eq_three.1 hcount
    exact ⟨_, _, rfl, .after (pull3_of_pulled hp) (.int fun _ => .int fun _ => .none _), rfl⟩
  | sfRR | sfRL =>
    obtain ⟨x0, x1, x2, x3, rfl⟩ : ∃ x0 x1 x2 x3, xs = [x0, x1, x2, x3] := by
      match xs, hcount with
      | [x0, x1, x2, x3], _ => exact ⟨x0, x1, x2, x3, rfl⟩
    exact ⟨_, _, rfl, .after (pull4_of_pulled hp) (.int fun _ => .int fun _ => .none _), rfl⟩

/-! ### Null addresses -/

theorem bind_of_ok {α : Type} {op : Except Stop α} {a : α} {f : α → Except Stop State} (h : op = .ok a) :
    (op >>= f) = f a := by
  rw [h, ok_bind]

/-- After its pulls and the gate, an instruction with an address operand reads `x[0]` as an address (R44). -/
theorem exec_readsAddress {i : Instr} (hi : hasAddressOperand i = true) {xs : List Item} (hp : Pulled s xs rest)
    (hcount : xs.length = pulls i) (hone : s.config.agents = .one) :
    ∃ x0 f, xs[0]? = some x0 ∧ exec i s = s.conclude (s.addressArg x0 >>= f) := by
  have hgate : ∀ y, s.allowSync y = .ok () := fun y => allowSync_of_allowed fun _ => hone
  cases i with
  | sgAE | sgAEY | sgRS | sgRSY =>
    obtain ⟨x0, rfl⟩ := List.length_eq_one_iff.1 hcount
    exact ⟨x0, _, rfl, congrArg s.conclude ((bind_of_ok (pull1_of_pulled hp)).trans (bind_of_ok (hgate _)))⟩
  | sgAR | sgARY | sgRR | sgRRY | spA | spAY | spRR | spRRY =>
    obtain ⟨x0, x1, rfl⟩ := List.length_eq_two.1 hcount
    exact ⟨x0, _, rfl, congrArg s.conclude ((bind_of_ok (pull2_of_pulled hp)).trans (bind_of_ok (hgate _)))⟩
  | sgpA | sgpAY | sgpRR | sgpRRY =>
    obtain ⟨x0, x1, x2, rfl⟩ := List.length_eq_three.1 hcount
    exact ⟨x0, _, rfl, congrArg s.conclude ((bind_of_ok (pull3_of_pulled hp)).trans (bind_of_ok (hgate _)))⟩
  | _ => cases hi

theorem addressArg_of_null {x : Item} (h : ReadsNull s x) : s.addressArg x = refuse .nullAddress := by
  simp only [State.addressArg, intArg_of_reads (n := none) h, ok_bind]

/-- Settles O55: the address is read before all else, and the integers in the order of the list. -/
theorem nullAddressAndUndecidedRefused : Obligations.NullAddressAndUndecidedRefused := by
  intro i s xs rest hp hcount hone
  obtain ⟨m, vs, hexec, hreads, hvs⟩ := exec_readsInOrder i hp hcount hone
  refine ⟨fun x0 hi hx0 hnull => ?_, fun j v hj hv hundecided => ?_, fun j k u v z hjk hu hz hv hundecided => ?_⟩
  · obtain ⟨x, f, hx, haddress⟩ := exec_readsAddress hi hp hcount hone
    obtain rfl : x = x0 := Option.some.inj (hx.symm.trans hx0)
    rw [haddress, addressArg_of_null hnull, refuse_bind, conclude_refuse]
  · obtain ⟨js, hjs⟩ := List.head?_eq_some_iff.1 hj
    rw [hjs, List.map_cons, hv] at hvs
    obtain ⟨w, ws, rfl, hw, -⟩ := List.map_eq_cons_iff.1 hvs
    obtain rfl : w = v := Option.some.inj hw
    rw [hexec, hreads.refused (us := []) rfl (by simp) hundecided, conclude_refuse]
  · obtain rfl : vs = [u, v] := by
      have hsome : vs.map some = [u, v].map some := by simp [hvs, hjk, hu, hv]
      exact List.map_injective_iff.2 (Option.some_injective _) hsome
    rw [hexec, hreads.refused (us := [u]) rfl (by simpa using ⟨z, hz⟩) hundecided, conclude_refuse]

end Sys2Proof.BadOperands

/-! PROOFS. The Find family: counting, locating, bad arguments, overlaps (spec 48_find.md R220 to R232). -/

namespace Sys2Proof.Finding

open Sys2Proof.Machine Sys2Proof.Circulating Sys2Proof.Pulling Sys2Proof.Registers

variable {s : State} {rest : List Item} {sup sub : Item}

/-! ### Where a substring stands -/

theorem standsAt_iff {p : Nat} :
    standsAt sup sub p = true ↔ p + sub.length ≤ sup.length ∧ ∀ k, k < sub.length → sup[p + k]? = sub[k]? := by
  simp only [standsAt, Bool.and_eq_true, decide_eq_true_eq, List.all_eq_true, List.mem_range, beq_iff_eq]
  refine and_congr_right fun hfits => forall₂_congr fun k hk => ?_
  rw [List.getD_eq_getElem _ _ (show p + k < sup.length by omega), List.getD_eq_getElem _ _ hk,
    List.getElem?_eq_getElem (show p + k < sup.length by omega), List.getElem?_eq_getElem hk, Option.some_inj]

/-- The model's search and the bitwise one of the claims find the same addresses. -/
theorem occursAt_eq_standsAt (p : Nat) : occursAt sup sub p = standsAt sup sub p := by
  rw [Bool.eq_iff_iff, occursAt_iff, standsAt_iff]

theorem occ_eq_filter (sup sub : Item) : occ sup sub = (List.range (sup.length + 1)).filter (standsAt sup sub) :=
  List.filter_congr fun p _ => occursAt_eq_standsAt p

theorem mem_occ_iff {p : Nat} : p ∈ occ sup sub ↔ standsAt sup sub p = true := by
  rw [occ_eq_filter, List.mem_filter, List.mem_range, and_iff_right_iff_imp]
  intro hstands
  have hfits := (standsAt_iff.1 hstands).1
  omega

/-- Counting addresses with a property is counting them in `Occ(sup, sub)`. -/
theorem countInstances_eq_countP (sup sub : Item) (f : Nat → Bool) :
    countInstances sup sub f = (occ sup sub).countP f := by
  rw [countInstances, occ_eq_filter, List.countP_filter]
  simp only [Bool.and_comm]

theorem countInstances_all (sup sub : Item) : countInstances sup sub (fun _ => true) = (occ sup sub).length := by
  rw [countInstances_eq_countP, List.countP_true]

theorem length_occ_nil (sup : Item) : (occ sup []).length = 1 + sup.length := by
  have hall : (List.range (sup.length + 1)).filter (standsAt sup []) = List.range (sup.length + 1) := by
    refine List.filter_eq_self.2 fun p hp => standsAt_iff.2 ⟨?_, fun k hk => absurd hk (Nat.not_lt_zero k)⟩
    have hlt := List.mem_range.1 hp
    simp only [List.length_nil]
    omega
  rw [occ_eq_filter, hall, List.length_range, Nat.add_comm]

theorem occ_eq_nil_of_longer (h : sup.length < sub.length) : occ sup sub = [] := by
  refine List.eq_nil_iff_forall_not_mem.2 fun p hp => ?_
  have hfits := (standsAt_iff.1 (mem_occ_iff.1 hp)).1
  omega

/-! ### Overlaps (R220) -/

theorem overlapping_eq_true_iff : overlapping sup sub = true ↔
    ∃ p q, standsAt sup sub p = true ∧ standsAt sup sub q = true ∧ p < q ∧ q < p + sub.length := by
  simp only [overlapping, List.any_eq_true, mem_occ_iff, decide_eq_true_eq]
  constructor
  · rintro ⟨p, hp, q, hq, hlt, hnear⟩
    exact ⟨p, q, hp, hq, hlt, hnear⟩
  · rintro ⟨p, q, hp, hq, hlt, hnear⟩
    exact ⟨p, hp, q, hq, hlt, hnear⟩

theorem occurrences_of_allowed (h : OverlapAllowed s sup sub) : s.occurrences sup sub = .ok (occ sup sub) := by
  refine occurrences_eq_ok.2 ⟨fun hrefuse => ?_, rfl⟩
  rcases h with hcount | hapart
  · rw [hcount] at hrefuse
    cases hrefuse
  · rw [Bool.eq_false_iff, Ne, overlapping_eq_true_iff]
    rintro ⟨p, q, hp, hq, hlt, hnear⟩
    have hfar := hapart p q hp hq hlt
    omega

theorem occurrences_of_overlap (hset : s.config.overlap = .refuse) {p q : Nat} (hp : standsAt sup sub p = true)
    (hq : standsAt sup sub q = true) (hlt : p < q) (hnear : q < p + sub.length) :
    s.occurrences sup sub = refuse .overlapUndecided :=
  if_pos ⟨hset, overlapping_eq_true_iff.2 ⟨p, q, hp, hq, hlt, hnear⟩⟩

/-! ### From the operand lists to the searches -/

/-- Every locating instruction comes to the search (R223 to R230). -/
theorem exec_of_findOperands {k : Instr} {dir : Direction} {i b : Option Int}
    (h : FindOperands s rest k dir sup sub i b) : exec k s = s.conclude (locateOnto dir rest sup sub i b s) := by
  cases h with
  | @sfIR u8 _ _ _ _ hp hb | @sfIL u8 _ _ _ _ hp hb =>
    show s.conclude (findIndexEmbedded _ u8 s) = _
    simp only [findIndexEmbedded, pull3_of_pulled hp, intArg_of_reads hb, ok_bind]
  | @sfBR u8 _ _ _ _ hp hi | @sfBL u8 _ _ _ _ hp hi =>
    show s.conclude (findStartEmbedded _ u8 s) = _
    simp only [findStartEmbedded, pull3_of_pulled hp, intArg_of_reads hi, ok_bind]
  | sfSR hp hi hb | sfSL hp hi hb =>
    show s.conclude (findSubstringEmbedded _ sub s) = _
    simp only [findSubstringEmbedded, pull3_of_pulled hp, intArg_of_reads hi, intArg_of_reads hb, ok_bind]
  | sfRR hp hi hb | sfRL hp hi hb =>
    show s.conclude (findRegister _ s) = _
    simp only [findRegister, pull4_of_pulled hp, intArg_of_reads hi, intArg_of_reads hb, ok_bind]

/-- Both counting instructions come to the count (R231, R232). -/
theorem exec_of_countOperands {k : Instr} (h : CountOperands s rest k sup sub) :
    exec k s = s.conclude (countOnto rest sup sub s) := by
  cases h with
  | sfQE hp => simp only [exec, execSfQE, pull1_of_pulled hp, ok_bind]
  | sfQR hp => simp only [exec, execSfQR, pull2_of_pulled hp, ok_bind]

/-- Settles O47: every address is counted, and `occ` gives them. -/
theorem findCounts : Obligations.FindCounts := by
  intro s rest k sup sub hoperands hoverlap hroom
  refine ⟨?_, ?_, fun hlonger => ?_⟩
  · rw [exec_of_countOperands hoperands, countOnto, occurrences_of_allowed hoverlap, ok_bind,
      pushAdvance_of_canPush hroom, conclude_ok, countInstances_all]
  · rintro rfl
    rw [countInstances_all, length_occ_nil]
  · rw [countInstances_all, occ_eq_nil_of_longer hlonger, List.length_nil]

/-! ### The order of a search (R221) -/

theorem searchedBefore_irrefl (dir : Direction) (p : Nat) : searchedBefore dir p p = false := by
  cases dir <;> simp [searchedBefore]

theorem searchedBefore_asymm {dir : Direction} {p q : Nat} (h : searchedBefore dir p q = true) :
    searchedBefore dir q p = false := by
  cases dir <;> simp [searchedBefore] at h ⊢ <;> omega

/-- In a list in search order, what stands at position `n` has exactly `n` before it. -/
theorem countP_searchedBefore {dir : Direction} {l : List Nat} (h : l.Pairwise fun q p => searchedBefore dir q p = true)
    {n p : Nat} (hn : l[n]? = some p) : l.countP (searchedBefore dir · p) = n := by
  induction l generalizing n with
  | nil => simp at hn
  | cons x l ih =>
    obtain ⟨hx, hl⟩ := List.pairwise_cons.1 h
    cases n with
    | zero =>
      obtain rfl : x = p := by simpa using hn
      have hnone : l.countP (searchedBefore dir · x) = 0 :=
        List.countP_eq_zero.2 fun q hq => by simp [searchedBefore_asymm (hx q hq)]
      rw [List.countP_cons_of_neg (by simp [searchedBefore_irrefl]), hnone]
    | succ n =>
      have hn : l[n]? = some p := by simpa using hn
      have hhead : searchedBefore dir x p = true := hx p (List.mem_of_getElem? hn)
      rw [List.countP_cons_of_pos (p := (searchedBefore dir · p)) hhead, ih hl hn]

theorem admits_eq_searchMeets (s : State) (dir : Direction) (sub : Item) (b : Int) :
    admits s.config.findLeftAnchor dir sub.length b = searchMeets s dir sub b := by
  funext p
  unfold admits searchMeets
  cases dir with
  | right => rfl
  | left =>
    cases s.config.findLeftAnchor with
    | start => rfl
    | finish =>
      rw [Bool.eq_iff_iff, decide_eq_true_iff, decide_eq_true_iff]
      omega

/-- The addresses a search meets, in its order. -/
def searchOrder (s : State) (dir : Direction) (sup sub : Item) (b : Int) : List Nat :=
  candidates s.config.findLeftAnchor dir sub.length b (occ sup sub)

theorem pairwise_searchOrder (s : State) (dir : Direction) (sup sub : Item) (b : Int) :
    (searchOrder s dir sup sub b).Pairwise fun q p => searchedBefore dir q p = true := by
  have hrising : ((occ sup sub).filter (admits s.config.findLeftAnchor dir sub.length b)).Pairwise (· < ·) :=
    (List.pairwise_lt_range.filter _).filter _
  cases dir with
  | right => exact hrising.imp fun hlt => decide_eq_true hlt
  | left => exact List.pairwise_reverse.2 (hrising.imp fun hlt => decide_eq_true hlt)

theorem countP_searchOrder (s : State) (dir : Direction) (sup sub : Item) (b : Int) (f : Nat → Bool) :
    (searchOrder s dir sup sub b).countP f = countInstances sup sub fun q => searchMeets s dir sub b q && f q := by
  have hmet : ((occ sup sub).filter (admits s.config.findLeftAnchor dir sub.length b)).countP f =
      countInstances sup sub fun q => searchMeets s dir sub b q && f q := by
    rw [countInstances_eq_countP, List.countP_filter, admits_eq_searchMeets]
    simp only [Bool.and_comm]
  cases dir with
  | right => exact hmet
  | left => exact (List.countP_reverse ..).trans hmet

theorem length_searchOrder (s : State) (dir : Direction) (sup sub : Item) (b : Int) :
    (searchOrder s dir sup sub b).length = countInstances sup sub (searchMeets s dir sub b) := by
  have hall := countP_searchOrder s dir sup sub b fun _ => true
  simpa only [List.countP_true, Bool.and_true] using hall

theorem mem_searchOrder {dir : Direction} {b : Int} {p : Nat} (h : p ∈ searchOrder s dir sup sub b) :
    standsAt sup sub p = true ∧ searchMeets s dir sub b p = true := by
  have hmet : p ∈ (occ sup sub).filter (admits s.config.findLeftAnchor dir sub.length b) := by
    cases dir with
    | right => exact h
    | left => exact List.mem_reverse.1 h
  obtain ⟨hocc, hadmits⟩ := List.mem_filter.1 hmet
  rw [admits_eq_searchMeets] at hadmits
  exact ⟨mem_occ_iff.1 hocc, hadmits⟩

/-! ### The search with good arguments -/

/-- What the search answers from the addresses met, at position `n`. -/
def locateItem (s : State) (dir : Direction) (sup sub : Item) (i b : Int) : Item :=
  match (searchOrder s dir sup sub b)[(i - indexBase s.config.findIndexBase).toNat]? with
  | some p => s.enc (some (p : Int))
  | none => notFoundItem s.config.findNotFound sup sub i b

theorem findArgsOk_iff_good {i b : Int} :
    findArgsOk s.config.findIndexBase sup i b = true ↔ FindArgsGood s sup (some i) (some b) :=
  decide_eq_true_iff

theorem locate_of_good {dir : Direction} {i b : Int} (hgood : FindArgsGood s sup (some i) (some b))
    (hoverlap : OverlapAllowed s sup sub) :
    s.locate dir sup sub (some i) (some b) = .ok (locateItem s dir sup sub i b) := by
  simp only [State.locate, findArgsOk_iff_good.2 hgood, if_true, occurrences_of_allowed hoverlap, ok_bind, locateItem,
    searchOrder]
  cases (candidates s.config.findLeftAnchor dir sub.length b (occ sup sub))[(i - indexBase s.config.findIndexBase).toNat]?
  · rfl
  · rfl

theorem locateResult_locateItem {dir : Direction} {i b : Int} (hgood : FindArgsGood s sup (some i) (some b)) :
    LocateResult s dir sup sub i b (locateItem s dir sup sub i b) := by
  have hbase : indexBase s.config.findIndexBase ≤ i := hgood.1
  unfold locateItem
  cases hfound : (searchOrder s dir sup sub b)[(i - indexBase s.config.findIndexBase).toNat]? with
  | some p =>
    obtain ⟨hstands, hmeets⟩ := mem_searchOrder (List.mem_of_getElem? hfound)
    have hbefore := countP_searchedBefore (pairwise_searchOrder s dir sup sub b) hfound
    rw [countP_searchOrder] at hbefore
    exact .inl ⟨p, hstands, hmeets, by omega, rfl⟩
  | none =>
    have hfew := List.getElem?_eq_none_iff.1 hfound
    rw [length_searchOrder] at hfew
    refine .inr ⟨by omega, fun v hv => ?_, fun hopen => ?_⟩
    · simp only [hv, notFoundItem]
    · simp only [hopen, notFoundItem]
      exact length_clip _

/-- Settles O48: the index in search order is the number of addresses met before. -/
theorem findLocates : Obligations.FindLocates := by
  intro s rest k dir sup sub i b hoperands hgood hoverlap hroom
  refine ⟨locateItem s dir sup sub i b, ?_, locateResult_locateItem hgood⟩
  rw [exec_of_findOperands hoperands, locateOnto, locate_of_good hgood hoverlap, ok_bind, pushAdvance_of_canPush hroom,
    conclude_ok]

/-- Settles O57: the overlap is met before the count, and before the search when its arguments are good. -/
theorem overlapRefused : Obligations.OverlapRefused := by
  intro s rest k sup sub p q hset hp hq hlt hnear
  have hoverlap := occurrences_of_overlap hset hp hq hlt hnear
  refine ⟨fun hoperands => ?_, fun dir i b hoperands hgood => ?_⟩
  · rw [exec_of_countOperands hoperands, countOnto, hoverlap, refuse_bind, conclude_refuse]
  · obtain ⟨i, b, rfl, rfl⟩ : ∃ i' b', i = some i' ∧ b = some b' := by
      cases i <;> cases b <;> simp [FindArgsGood] at hgood ⊢
    rw [exec_of_findOperands hoperands, locateOnto]
    simp only [State.locate, findArgsOk_iff_good.2 hgood, if_true, hoverlap, refuse_bind, conclude_refuse]

/-! ### Bad arguments -/

theorem locate_of_bad {dir : Direction} {i b : Option Int} (hbad : ¬ FindArgsGood s sup i b) :
    s.locate dir sup sub i b = badArgument s.config.findBadArg sup sub i b := by
  unfold State.locate
  split
  · next i b =>
    rw [if_neg (mt findArgsOk_iff_good.1 hbad)]
  · rfl

/-- Settles O49, by the setting of `FindBadArg`. -/
theorem findBadArguments : Obligations.FindBadArguments := by
  intro s rest k dir sup sub i b hoperands hbad
  have hexec := exec_of_findOperands hoperands
  rw [locateOnto, locate_of_bad hbad] at hexec
  refine ⟨fun hset => ?_, fun name hset => ?_, fun hset hroom => ⟨clip (Config.openBadArg sup sub i b), ?_, length_clip _⟩⟩
  · rw [hexec, hset, badArgument, refuse_bind, conclude_refuse]
  · rw [hexec, hset, badArgument, raise_bind, conclude_raise]
  · rw [hexec, hset, badArgument, ok_bind, pushAdvance_of_canPush hroom, conclude_ok]

end Sys2Proof.Finding
